-- ==== Sys2Proof/Word.lean ====
section
/-! DEFINITION. The machine's words (spec/00_scope.md R7, spec/20_memory.md R67): a bus micro-action moves one bit,
a buffer access eight, a command word has sixteen. All values are unsigned. -/

namespace Sys2Proof

/-- One bit: a line level, or the register BITV (R11, R27). -/
abbrev Bit := BitVec 1

/-- One byte: a buffer byte, an 8-bit register, the operand `imm8` of a command word (R39, R90). -/
abbrev Byte := BitVec 8

/-- The 16-bit command word `cw` (spec/30_encoding.md R90), which is also the width of the host port. -/
abbrev CmdWord := BitVec 16

end Sys2Proof
end

