-- ==== Sys2Proof/Syntax.lean ====
section
/-! DEFINITION. The closed set of 21 operations (spec/30_encoding.md R92), one constructor per row of
spec/opcode_table.json, in the table's order. -/

namespace Sys2Proof

/-- The two logical lines of the bus (spec/00_scope.md R8). -/
inductive Line where
  | clock
  | data
  deriving DecidableEq, Repr

/-- An operation of TWBB. A line operand is format `L`, a byte operand is format `I`, the others are format `N` (R91). -/
inductive Instr where
  /-- FLOAT `l` (R120). -/
  | float (l : Line)
  /-- DRIVELOW `l` (R121). -/
  | driveLow (l : Line)
  /-- SAMPLE `l` (R122). -/
  | sample (l : Line)
  /-- CLOCKHIGH (R130). -/
  | clockHigh
  /-- CLOCKLOW (R131). -/
  | clockLow
  /-- CLOCKCYCLE (R132). -/
  | clockCycle
  /-- CLOCKCYCLES `n` (R133). -/
  | clockCycles (n : Byte)
  /-- DATAHIGH (R134). -/
  | dataHigh
  /-- DATALOW (R135). -/
  | dataLow
  /-- READDATABIT (R136). -/
  | readDataBit
  /-- WRITEBYTE `value` (R150). -/
  | writeByte (value : Byte)
  /-- READBYTE (R155). -/
  | readByte
  /-- SENDACK (R170). -/
  | sendAck
  /-- SENDNAK (R171). -/
  | sendNak
  /-- START (R180). -/
  | start
  /-- STOP (R182). -/
  | stop
  /-- POWERON (R184). -/
  | powerOn
  /-- SENDCOMMAND `len` (R191). -/
  | sendCommand (len : Byte)
  /-- SENDDATA `len` (R195). -/
  | sendData (len : Byte)
  /-- RECEIVEDATA `len` (R197). -/
  | receiveData (len : Byte)
  /-- WAITCLOCK `loopCount` (R200). -/
  | waitClock (loopCount : Byte)
  deriving DecidableEq, Repr

end Sys2Proof
end

