-- ==== Sys2Proof/Config.lean ====
section
/-! DEFINITION. What an implementation fixes (spec/00_scope.md R6) and the free values. A constant marked `opaque` has
no body: nothing in Lean can evaluate it, so what is proved of it holds whatever the hardware's value is. -/

namespace Sys2Proof.Config

/-- `ACK_POLL_MAX` less one. OPEN in 1..255 (R6). Log entry 4. -/
opaque ackPollExtra : Fin 255

/-- `START_TRIES_MAX` less one. OPEN in 1..255 (R6). Log entry 4. -/
opaque startTriesExtra : Fin 255

/-- `POWER_ON_CLOCKS`. OPEN in 0..255 (R6). Log entry 4. -/
opaque powerOnClocks : Byte

/-- `ACK_POLL_MAX`, the most acknowledge poll attempts per byte, 1 to 255 (R6, decision D10). -/
def ackPollMax : Byte := BitVec.ofNat 8 (ackPollExtra.val + 1)

/-- `START_TRIES_MAX`, the most start and first-byte attempts per command, 1 to 255 (R6, decision D10). -/
def startTriesMax : Byte := BitVec.ofNat 8 (startTriesExtra.val + 1)

/-- `WAIT_CLOCKS`, the bare clock cycles of one WAITCLOCK iteration. FIXED 15 (R6, R200). Log entry 13. -/
def waitClocks : Byte := 15

/-- `BUF_BYTES`, the size of the byte buffer. FIXED 256 (R6, R61). -/
def bufBytes : Nat := 256

/-- `EXPOSE_INTERNAL`: FIXED false, may be set true for test (R6, R97). Log entry 6. -/
def exposeInternal : Bool := false

/-- FREE VALUE: ENVLOW[l] at an instant nothing scripts, true when something outside TWBB pulls `l` low
(spec/10_state.md R40, U11). Log entry 7. -/
opaque envLow : Line → Nat → Bool

/-- FREE VALUE: what a Sample of a line TWBB itself drives returns at an instant nothing scripts
(spec/10_state.md R42, U1). Log entry 7. -/
opaque drivenSample : Line → Nat → Bit

/-- FREE VALUE: what a byte of BUF holds that nothing has written since the reset numbered by the first argument
(spec/10_state.md R46, U10). Log entry 5. -/
opaque unwrittenByte : Nat → Nat → Byte

end Sys2Proof.Config
end

