-- ==== Sys2Proof/WellFormed.lean ====
section
/-! DEFINITION. The one check on an operation that its type does not already make: SENDCOMMAND has at least one byte
(spec/45_frame_operations.md R194, spec/30_encoding.md R98 item e). -/

namespace Sys2Proof

/-- An operation the spec gives a legal command word to (R98, items a, b, c and e). -/
def Instr.wellFormed : Instr → Bool
  | .float _ => true
  | .driveLow _ => true
  | .sample _ => true
  | .clockHigh => true
  | .clockLow => true
  | .clockCycle => true
  | .clockCycles _ => true
  | .dataHigh => true
  | .dataLow => true
  | .readDataBit => true
  | .writeByte _ => true
  | .readByte => true
  | .sendAck => true
  | .sendNak => true
  | .start => true
  | .stop => true
  | .powerOn => true
  | .sendCommand len => len != 0
  | .sendData _ => true
  | .receiveData _ => true
  | .waitClock _ => true

end Sys2Proof
end

