-- ==== Sys2Proof/Decode.lean ====
section
/-! DEFINITION. Command words to operations and back (spec/30_encoding.md R90 to R95, R98, R99). The decoder is total
and rejects by name. Legality that depends on the host port (R98 items d and e) is decided there, in
Machine/HostPort.lean. -/

namespace Sys2Proof

/-- Why a command word is no operation's (R98). -/
inductive DecodeError where
  /-- Item (a): `op` is not one of the 21 opcodes (R99). -/
  | reservedOpcode (op : Byte)
  /-- Item (b): format `N` and `imm8` is not zero. -/
  | operandNotZero (op imm : Byte)
  /-- Item (c): format `L` and `imm8[7:1]` is not zero. -/
  | lineBitsNotZero (op imm : Byte)
  deriving DecidableEq, Repr

/-- The three formats (R91). -/
inductive Format where
  | n
  | l
  | i
  deriving DecidableEq, Repr

/-- A row of the opcode table: `cw` selects it when `cw & mask = pattern` (R91). -/
structure OpcodeRow where
  mnemonic : String
  format : Format
  pattern : CmdWord
  mask : CmdWord
  deriving DecidableEq, Repr

/-- `cw[15:8]`, the opcode (R90). -/
def opField (cw : CmdWord) : Byte := cw.extractLsb' 8 8

/-- `cw[7:0]`, the operand `imm8` (R90). -/
def immField (cw : CmdWord) : Byte := cw.extractLsb' 0 8

/-- The command word `op ++ imm8`, the opcode in the high bits (R90). -/
def packWord (op imm : Byte) : CmdWord := (op.setWidth 16 <<< 8) ||| imm.setWidth 16

/-- `imm8[0]` selects the line: 0 clock, 1 data (R94). -/
def lineOfImm (imm : Byte) : Line := if imm.getLsbD 0 then .data else .clock

/-- The operand a line is written as (R94). -/
def immOfLine : Line → Byte
  | .clock => 0
  | .data => 1

/-- Format `N`: `imm8` must be 0x00 (R91). -/
def decodeNone (i : Instr) (op imm : Byte) : Except DecodeError Instr :=
  if imm = 0 then .ok i else .error (.operandNotZero op imm)

/-- Format `L`: `imm8[7:1]` must be 0 (R91). -/
def decodeLine (f : Line → Instr) (op imm : Byte) : Except DecodeError Instr :=
  if imm.extractLsb' 1 7 = 0 then .ok (f (lineOfImm imm)) else .error (.lineBitsNotZero op imm)

/-- The operation of an opcode and an operand (R92); every opcode not listed is reserved (R99). -/
def decodeFields (op imm : Byte) : Except DecodeError Instr :=
  match op.toNat with
  | 0x01 => decodeLine .float op imm
  | 0x02 => decodeLine .driveLow op imm
  | 0x03 => decodeLine .sample op imm
  | 0x10 => decodeNone .clockHigh op imm
  | 0x11 => decodeNone .clockLow op imm
  | 0x12 => decodeNone .clockCycle op imm
  | 0x13 => .ok (.clockCycles imm)
  | 0x14 => decodeNone .dataHigh op imm
  | 0x15 => decodeNone .dataLow op imm
  | 0x16 => decodeNone .readDataBit op imm
  | 0x20 => .ok (.writeByte imm)
  | 0x21 => decodeNone .readByte op imm
  | 0x30 => decodeNone .sendAck op imm
  | 0x31 => decodeNone .sendNak op imm
  | 0x40 => decodeNone .start op imm
  | 0x41 => decodeNone .stop op imm
  | 0x42 => decodeNone .powerOn op imm
  | 0x50 => .ok (.sendCommand imm)
  | 0x51 => .ok (.sendData imm)
  | 0x52 => .ok (.receiveData imm)
  | 0x53 => .ok (.waitClock imm)
  | _ => .error (.reservedOpcode op)

/-- The decoder. SENDCOMMAND 0 decodes to its row's operation (R91), which `Instr.wellFormed` refuses (R194). -/
def decode (cw : CmdWord) : Except DecodeError Instr := decodeFields (opField cw) (immField cw)

/-- The opcode of an operation (R92). -/
def opcodeOf : Instr → Byte
  | .float _ => 0x01
  | .driveLow _ => 0x02
  | .sample _ => 0x03
  | .clockHigh => 0x10
  | .clockLow => 0x11
  | .clockCycle => 0x12
  | .clockCycles _ => 0x13
  | .dataHigh => 0x14
  | .dataLow => 0x15
  | .readDataBit => 0x16
  | .writeByte _ => 0x20
  | .readByte => 0x21
  | .sendAck => 0x30
  | .sendNak => 0x31
  | .start => 0x40
  | .stop => 0x41
  | .powerOn => 0x42
  | .sendCommand _ => 0x50
  | .sendData _ => 0x51
  | .receiveData _ => 0x52
  | .waitClock _ => 0x53

/-- The operand `imm8` of an operation (R91, R93, R94). -/
def operandOf : Instr → Byte
  | .float l => immOfLine l
  | .driveLow l => immOfLine l
  | .sample l => immOfLine l
  | .clockHigh => 0
  | .clockLow => 0
  | .clockCycle => 0
  | .clockCycles n => n
  | .dataHigh => 0
  | .dataLow => 0
  | .readDataBit => 0
  | .writeByte value => value
  | .readByte => 0
  | .sendAck => 0
  | .sendNak => 0
  | .start => 0
  | .stop => 0
  | .powerOn => 0
  | .sendCommand len => len
  | .sendData len => len
  | .receiveData len => len
  | .waitClock loopCount => loopCount

/-- The encoder: the command word of an operation (R90). -/
def encode (i : Instr) : CmdWord := packWord (opcodeOf i) (operandOf i)

/-- The row of the opcode table an operation belongs to (spec/opcode_table.json). -/
def rowOf : Instr → OpcodeRow
  | .float _ => ⟨"FLOAT", .l, 0x0100, 0xFFFE⟩
  | .driveLow _ => ⟨"DRIVELOW", .l, 0x0200, 0xFFFE⟩
  | .sample _ => ⟨"SAMPLE", .l, 0x0300, 0xFFFE⟩
  | .clockHigh => ⟨"CLOCKHIGH", .n, 0x1000, 0xFFFF⟩
  | .clockLow => ⟨"CLOCKLOW", .n, 0x1100, 0xFFFF⟩
  | .clockCycle => ⟨"CLOCKCYCLE", .n, 0x1200, 0xFFFF⟩
  | .clockCycles _ => ⟨"CLOCKCYCLES", .i, 0x1300, 0xFF00⟩
  | .dataHigh => ⟨"DATAHIGH", .n, 0x1400, 0xFFFF⟩
  | .dataLow => ⟨"DATALOW", .n, 0x1500, 0xFFFF⟩
  | .readDataBit => ⟨"READDATABIT", .n, 0x1600, 0xFFFF⟩
  | .writeByte _ => ⟨"WRITEBYTE", .i, 0x2000, 0xFF00⟩
  | .readByte => ⟨"READBYTE", .n, 0x2100, 0xFFFF⟩
  | .sendAck => ⟨"SENDACK", .n, 0x3000, 0xFFFF⟩
  | .sendNak => ⟨"SENDNAK", .n, 0x3100, 0xFFFF⟩
  | .start => ⟨"START", .n, 0x4000, 0xFFFF⟩
  | .stop => ⟨"STOP", .n, 0x4100, 0xFFFF⟩
  | .powerOn => ⟨"POWERON", .n, 0x4200, 0xFFFF⟩
  | .sendCommand _ => ⟨"SENDCOMMAND", .i, 0x5000, 0xFF00⟩
  | .sendData _ => ⟨"SENDDATA", .i, 0x5100, 0xFF00⟩
  | .receiveData _ => ⟨"RECEIVEDATA", .i, 0x5200, 0xFF00⟩
  | .waitClock _ => ⟨"WAITCLOCK", .i, 0x5300, 0xFF00⟩

/-- One operation per row of the opcode table, in its order. -/
def rowSamples : List Instr :=
  [.float .clock, .driveLow .clock, .sample .clock, .clockHigh, .clockLow, .clockCycle, .clockCycles 0,
   .dataHigh, .dataLow, .readDataBit, .writeByte 0, .readByte, .sendAck, .sendNak,
   .start, .stop, .powerOn, .sendCommand 0, .sendData 0, .receiveData 0, .waitClock 0]

/-- The opcode table (R92). -/
def opcodeTable : List OpcodeRow := rowSamples.map rowOf

/-- A word selects a row (R91). -/
def OpcodeRow.selects (r : OpcodeRow) (cw : CmdWord) : Bool := cw &&& r.mask == r.pattern

/-- The caller-facing class: the five operations D00 offers a caller; the other 16 are internal (R95). -/
def isPublic : Instr → Bool
  | .float _ => false
  | .driveLow _ => false
  | .sample _ => false
  | .clockHigh => false
  | .clockLow => false
  | .clockCycle => false
  | .clockCycles _ => false
  | .dataHigh => false
  | .dataLow => false
  | .readDataBit => false
  | .writeByte _ => false
  | .readByte => false
  | .sendAck => false
  | .sendNak => false
  | .start => false
  | .stop => false
  | .powerOn => true
  | .sendCommand _ => true
  | .sendData _ => true
  | .receiveData _ => true
  | .waitClock _ => true

/-- The command word of an instruction whose bits are `w`, every bit from `nbits` up zero. The word is written to CMD
as one indivisible 16-bit write (spec/20_memory.md R66), so no byte order enters. -/
def tableWord (nbits w : Nat) : CmdWord := BitVec.ofNat 16 (w % 2 ^ nbits)

/-- What the decoder reads from the instruction whose bits are `w`. -/
def decodeTableWord (nbits w : Nat) : Option Instr :=
  match decode (tableWord nbits w) with
  | .ok i => some i
  | .error _ => none

end Sys2Proof
end

