-- ==== Sys2Proof/Machine/State.lean ====
section
/-! DEFINITION. The machine's state as plain data (spec/10_state.md R20 to R46), what can stop a step (nothing, in this
machine: spec/60_exceptions.md R220), and the state right after reset (R46). -/

namespace Sys2Proof.Machine

/-- A direction bit `DIR[l]` (R21): IN (0), the line floats; OUT (1), it is driven low. -/
inductive Dir where
  | input
  | output
  deriving DecidableEq, Repr

/-- The transaction result (R30): a closed set of four kinds, none with a payload. -/
inductive Result where
  | success
  | startFailure
  | cmdByteFailure
  | dataWriteFailure
  deriving DecidableEq, Repr

/-- The 13 duration names (spec/70_reset_and_hazards.md R262). No rule reads a duration (R263). -/
inductive Duration where
  | chPre | chPost
  | clA | clB
  | dh | dl | rd
  | st1 | st2 | st3 | st4
  | sp1 | sp2
  deriving DecidableEq, Repr

/-- A micro-action (spec/00_scope.md R10). -/
inductive Act where
  | float (l : Line)
  | driveLow (l : Line)
  | sample (l : Line)
  | delay (d : Duration)
  deriving DecidableEq, Repr

/-- A trace token (R10): CF, CL, DF, DL, CS=v, DS=v, W:T. The last two are no tokens of R10, and no operation makes
one: `reset` marks where a reset floated both lines at once (R250), `environment` where the environment moved (R40). -/
inductive Token where
  | float (l : Line)
  | driveLow (l : Line)
  | sample (l : Line) (v : Bit)
  | delay (d : Duration)
  | reset
  | environment
  deriving DecidableEq, Repr

/-- The level of each line (R41). -/
structure Levels where
  clock : Bit
  data : Bit
  deriving DecidableEq, Repr

/-- One entry of the trace: what happened, and the levels of the two lines just before and just after it. -/
structure Event where
  token : Token
  before : Levels
  after : Levels
  deriving DecidableEq, Repr

/-- A scripted stretch of the environment (R40), which lasts up to and including the next Sample, unless the environment
moves before it: which lines it pulls
low (ENVLOW), and what a Sample of a line TWBB drives itself would return (U1). -/
structure EnvPhase where
  clockLow : Bool
  dataLow : Bool
  draw : Bit
  deriving DecidableEq, Repr

/-- What the agents outside the engine do (spec/00_scope.md R13): the host at its port (spec/10_state.md R36, R37, R39;
spec/30_encoding.md R96; R250), and the environment, between any two micro-actions (R40). -/
inductive HostAct where
  /-- D00's blocking call: write the word to CMD, wait until BUSY is 0 (R96). -/
  | call (cw : CmdWord)
  /-- Write a host register (R36); register 0x0 is CMD. -/
  | writeReg (r : BitVec 4) (v : CmdWord)
  /-- Read a host register (R36, R37). -/
  | readReg (r : BitVec 4)
  /-- Write a byte of BUF (R39). -/
  | writeBuf (i v : Byte)
  /-- Read a byte of BUF (R39, R256). -/
  | readBuf (i : Byte)
  /-- Wait until BUSY is 0 (R37). -/
  | waitIdle
  /-- Leave the engine one step. -/
  | tick
  /-- Reset TWBB (R250). -/
  | reset
  /-- The environment moves: from now on it does as this stretch says (R40). -/
  | environment (p : EnvPhase)
  deriving DecidableEq, Repr

/-- A statement the sequencer has still to run: a position of `upc` (R34). `act` is the next micro-action, `op` a
`call OP(args)`; the others are the loop heads, tests and register writes of the operations' pseudocode, each named
where Machine/Engine.lean gives it its meaning. -/
inductive Stmt where
  | act (a : Act)
  | op (i : Instr)
  | cycLoop | cycNext
  | bitLoop | bitSend | bitNext
  | pollInit | pollLoop | pollTest
  | readInit | readLoop (v : Byte) | readTake (v : Byte) | readNext (v : Byte)
  | tryLoop | tryByte | tryTest
  | cmdLoop | cmdTest
  | dataLoop | dataTest
  | recvLoop | recvStore | recvNext
  | waitLoop | waitNext
  | finish (r : Result)
  deriving DecidableEq, Repr

/-- The buffer memory (R39): the bytes written so far, by rising index. An index not listed has no value here. -/
abbrev Memory := List Host.Cell

/-- The canonical form of the buffer: indices strictly rising and all inside BUF (spec/20_memory.md R61). An unlisted
byte reads as no byte at all, so no entry can equal it. -/
abbrev Memory.wf (m : Memory) : Prop :=
  m.Pairwise (fun c d => c.1 < d.1) ∧ ∀ c ∈ m, c.1 < Config.bufBytes

/-- The state (R20). -/
structure State where
  /-- DIR[clock] (R21). -/
  dirClock : Dir
  /-- DIR[data] (R21). -/
  dirData : Dir
  /-- SR, the byte being shifted out (R25). -/
  sr : Byte
  /-- BITCNT, bits done in the current byte (R25). -/
  bitcnt : BitVec 4
  /-- POLLCNT, acknowledge poll attempts made (R25). -/
  pollcnt : Byte
  /-- TRYCNT, failed start and first-byte attempts (R25). -/
  trycnt : Byte
  /-- IDX, index of the buffer byte being moved (R25). -/
  idx : Byte
  /-- LEN, the length operand of the running frame-level operation (R25). -/
  len : Byte
  /-- CYC, clock cycles still to run (R25). -/
  cyc : Byte
  /-- LOOPC, WAITCLOCK iterations still to run (R25). -/
  loopc : Byte
  /-- BITV, what the latest Sample returned (R27). -/
  bitv : Bit
  /-- ACKCNT, what the latest WRITEBYTE returned (R28). -/
  ackcnt : Byte
  /-- RXDATA, what the latest READBYTE returned (R29). -/
  rxdata : Byte
  /-- RESULT, the latest transaction result (R30). -/
  result : Result
  /-- CMD, the word the host wrote last while idle (R32, R73). -/
  cmd : CmdWord
  /-- STATUS.ILL (R33). -/
  ill : Bool
  /-- STATUS.OVR (R33). -/
  ovr : Bool
  /-- CFG_ACKMAX (R35). -/
  cfgAckMax : Byte
  /-- CFG_STARTMAX (R35). -/
  cfgStartMax : Byte
  /-- CFG_PWRCLKS (R35). -/
  cfgPwrClks : Byte
  /-- EXPOSE_INTERNAL, a launch parameter (spec/30_encoding.md R97). -/
  exposeInternal : Bool
  /-- upc, the sequencer position: the statements still to run, the next one first; IDLE is the empty list (R34). -/
  upc : List Stmt
  /-- BUF (R39). -/
  buf : Memory
  /-- The model's own: what the environment is scripted to do at the coming Samples. Log entry 7. -/
  env : List EnvPhase
  /-- The model's own: the instant, an argument of the free values. Log entry 7. -/
  now : Nat
  /-- The model's own: what has happened on the pins, newest first. Log entry 8. -/
  trace : List Event
  /-- The model's own: what the host, or the environment on its own, does next. Log entries 7 and 9. -/
  host : List HostAct
  /-- The model's own: what the host's reads returned, newest first. Log entry 9. -/
  replies : List CmdWord
  /-- The model's own: how many resets there have been, an argument of a free value. Log entry 5. -/
  epoch : Nat
  deriving DecidableEq, Repr

/-- TWBB has no fault: no exception, no trap, no access outside BUF (spec/60_exceptions.md R220, spec/20_memory.md
R61). Nothing raises one, which is neither safe nor unsafe: the type is empty. -/
inductive Fault where
  deriving DecidableEq, Repr

/-- Why a step has no meaning. -/
inductive Refusal where
  /-- An operation not modelled yet. Only an arm of exec could raise it, and none does; it would be safe. -/
  | notModelled (mnemonic : String)
  deriving DecidableEq, Repr

/-- What a step answers. -/
abbrev Answer := Host.Outcome State Fault Refusal

/-- Right after reset (R46): both lines float, STATUS is 0, upc is IDLE, the CFG registers hold the parameters. R46
leaves the return and working registers unspecified; their values here are log entries 1, 2 and 3. -/
def State.reset : State where
  dirClock := .input
  dirData := .input
  sr := 0
  bitcnt := 0
  pollcnt := 0
  trycnt := 0
  idx := 0
  len := 0
  cyc := 0
  loopc := 0
  bitv := 0
  ackcnt := 0
  rxdata := 0
  result := .success
  cmd := 0
  ill := false
  ovr := false
  cfgAckMax := Config.ackPollMax
  cfgStartMax := Config.startTriesMax
  cfgPwrClks := Config.powerOnClocks
  exposeInternal := Config.exposeInternal
  upc := []
  buf := []
  env := []
  now := 0
  trace := []
  host := []
  replies := []
  epoch := 0

end Sys2Proof.Machine
end

