-- ==== Sys2Proof/Machine/Ops.lean ====
section
/-! DEFINITION. The named operations over registers, the lines and the buffer: the one place each is read or written.
The four micro-actions of spec/00_scope.md R10 stand here, with the environment that answers a Sample
(spec/10_state.md R40 to R42). -/

namespace Sys2Proof.Machine

/-! Register writes, one per field. -/

def State.setDir (s : State) (l : Line) (d : Dir) : State :=
  match l with
  | .clock => { s with dirClock := d }
  | .data => { s with dirData := d }

def State.setSr (s : State) (v : Byte) : State := { s with sr := v }
def State.setBitcnt (s : State) (v : BitVec 4) : State := { s with bitcnt := v }
def State.setPollcnt (s : State) (v : Byte) : State := { s with pollcnt := v }
def State.setTrycnt (s : State) (v : Byte) : State := { s with trycnt := v }
def State.setIdx (s : State) (v : Byte) : State := { s with idx := v }
def State.setLen (s : State) (v : Byte) : State := { s with len := v }
def State.setCyc (s : State) (v : Byte) : State := { s with cyc := v }
def State.setLoopc (s : State) (v : Byte) : State := { s with loopc := v }
def State.setBitv (s : State) (v : Bit) : State := { s with bitv := v }
def State.setAckcnt (s : State) (v : Byte) : State := { s with ackcnt := v }
def State.setRxdata (s : State) (v : Byte) : State := { s with rxdata := v }
def State.setResult (s : State) (r : Result) : State := { s with result := r }
def State.setCmd (s : State) (v : CmdWord) : State := { s with cmd := v }
def State.setCfgAckMax (s : State) (v : Byte) : State := { s with cfgAckMax := v }
def State.setCfgStartMax (s : State) (v : Byte) : State := { s with cfgStartMax := v }
def State.setCfgPwrClks (s : State) (v : Byte) : State := { s with cfgPwrClks := v }
def State.setExposeInternal (s : State) (v : Bool) : State := { s with exposeInternal := v }
def State.setUpc (s : State) (v : List Stmt) : State := { s with upc := v }
def State.setBuf (s : State) (v : Memory) : State := { s with buf := v }
def State.setHost (s : State) (v : List HostAct) : State := { s with host := v }

/-- STATUS.ILL is set, and stays set until reset (R33). -/
def State.markIllegal (s : State) : State := { s with ill := true }

/-- STATUS.OVR is set, and stays set until reset (R33). -/
def State.markOverrun (s : State) : State := { s with ovr := true }

/-- A host read returns a value. -/
def State.reply (s : State) (v : CmdWord) : State := { s with replies := v :: s.replies }

/-! The lines (R21, R22, R40 to R42). -/

/-- `DIR[l]` (R21). -/
def State.dir (s : State) : Line → Dir
  | .clock => s.dirClock
  | .data => s.dirData

/-- The output latch `OUTL[l]`, hardwired to 0 (R22). -/
def State.outl (_s : State) : Line → Bit
  | .clock => 0
  | .data => 0

/-- What TWBB puts on a pin: nothing (high impedance) while it floats, the latch while it drives (R22). -/
def State.pin (s : State) (l : Line) : Option Bit :=
  match s.dir l with
  | .input => none
  | .output => some (s.outl l)

/-- `ENVLOW` of a scripted stretch. -/
def EnvPhase.low (p : EnvPhase) : Line → Bool
  | .clock => p.clockLow
  | .data => p.dataLow

/-- `ENVLOW[l]` at this instant: the script's, or a free value where nothing is scripted (R40, U11). -/
def State.envLow (s : State) (l : Line) : Bool :=
  match s.env with
  | [] => Config.envLow l s.now
  | p :: _ => p.low l

/-- What a Sample of a line TWBB drives returns: any value (R42, U1). -/
def State.draw (s : State) (l : Line) : Bit :=
  match s.env with
  | [] => Config.drivenSample l s.now
  | p :: _ => p.draw

/-- The level a floated line shows: `1 - ENVLOW[l]` (R41, R42). -/
def State.floatLevel (s : State) (l : Line) : Bit := if s.envLow l then 0 else 1

/-- `level(l)` (R41). -/
def State.level (s : State) (l : Line) : Bit :=
  match s.dir l with
  | .output => 0
  | .input => s.floatLevel l

/-- The levels of both lines. -/
def State.levels (s : State) : Levels := ⟨s.level .clock, s.level .data⟩

/-- What `Sample(l)` returns (R42, R122). -/
def State.sampleValue (s : State) (l : Line) : Bit :=
  match s.dir l with
  | .input => s.floatLevel l
  | .output => s.draw l

/-- An event enters the trace, with the levels before it, and the instant passes. -/
def State.record (s : State) (t : Token) (before : Levels) : State :=
  { s with trace := ⟨t, before, s.levels⟩ :: s.trace, now := s.now + 1 }

/-- The scripted stretch of the environment ends with the Sample just taken. -/
def State.nextPhase (s : State) : State := { s with env := s.env.tail }

/-- The environment moves, with no micro-action: the coming Sample, and every level until then, is as `p` says (R40). -/
def moveEnvironment (p : EnvPhase) (s : State) : State :=
  ({ s with env := p :: s.env.tail }).record .environment s.levels

/-! The micro-actions (R10). -/

/-- `Float(l)` (spec/40_gpio.md R120). -/
def floatLine (l : Line) (s : State) : State := (s.setDir l .input).record (.float l) s.levels

/-- `DriveLow(l)` (R121). -/
def driveLine (l : Line) (s : State) : State := (s.setDir l .output).record (.driveLow l) s.levels

/-- `Sample(l)` (R122): BITV takes the value, no pin changes. -/
def sampleLine (l : Line) (s : State) : State :=
  ((s.setBitv (s.sampleValue l)).record (.sample l (s.sampleValue l)) s.levels).nextPhase

/-- `Delay(T)` (R44): changes nothing but the time. -/
def delay (d : Duration) (s : State) : State := s.record (.delay d) s.levels

/-- Perform a micro-action. -/
def perform (a : Act) (s : State) : State :=
  match a with
  | .float l => floatLine l s
  | .driveLow l => driveLine l s
  | .sample l => sampleLine l s
  | .delay d => delay d s

/-! The buffer (spec/20_memory.md R60 to R63). -/

/-- The byte written last at an index, if any was. -/
def Memory.lookup : Memory → Nat → Option Byte
  | [], _ => none
  | c :: m, a => if c.1 = a then some c.2 else Memory.lookup m a

/-- Write one byte, keeping the canonical form. -/
def Memory.write : Memory → Nat → Byte → Memory
  | [], a, v => [(a, v)]
  | c :: m, a, v =>
    if a < c.1 then (a, v) :: c :: m
    else if a = c.1 then (a, v) :: m
    else c :: Memory.write m a v

/-- `MemRead(i, 1)`, written `BUF[i]` (R62): the byte written last, or the unspecified byte an unwritten index holds,
the same one at every read until the next reset (U10). -/
def State.bufRead (s : State) (i : Byte) : Byte :=
  (Memory.lookup s.buf i.toNat).getD (Config.unwrittenByte s.epoch i.toNat)

/-- `MemWrite(i, 1, v)`, written `BUF[i] <- v` (R63). -/
def State.bufWrite (s : State) (i v : Byte) : State := s.setBuf (Memory.write s.buf i.toNat v)

/-! The end of a public operation, and reset. -/

/-- The one way a public operation ends, and all there is in place of taking an exception: the kind is written to
RESULT; nothing is saved and control goes nowhere (spec/60_exceptions.md R220, R227). -/
def finish (r : Result) (s : State) : State := s.setResult r

/-- Reset at any moment (spec/70_reset_and_hazards.md R250): every piece of TWBB's state takes its value of
`State.reset`; the environment, the host, the launch parameter and the record of the past are not TWBB's and stay. -/
def resetState (s : State) : State :=
  { State.reset with
    exposeInternal := s.exposeInternal, env := s.env, now := s.now, trace := s.trace, host := s.host,
    replies := s.replies, epoch := s.epoch + 1 }

/-- Reset, with both lines floated at once and the change of level recorded (R250). -/
def hardReset (s : State) : State := (resetState s).record .reset s.levels

/-! What the trace says (spec/00_scope.md R10, R11). -/

/-- A token of R10: a micro-action's. The marks of a reset and of a move of the environment are none. -/
def Token.isMicroAction : Token → Bool
  | .float _ => true
  | .driveLow _ => true
  | .sample _ _ => true
  | .delay _ => true
  | .reset => false
  | .environment => false

/-- The full trace in order, oldest first: the micro-actions (R10). -/
def State.tokens (s : State) : List Token := ((s.trace.map Event.token).filter Token.isMicroAction).reverse

/-- A token that stays in the pin trace: a micro-action's, but for the delays (R10). -/
def Token.isPin : Token → Bool
  | .float _ => true
  | .driveLow _ => true
  | .sample _ _ => true
  | .delay _ => false
  | .reset => false
  | .environment => false

/-- The pin trace in order, oldest first (R10). -/
def State.pinTrace (s : State) : List Token := s.tokens.filter Token.isPin

/-- A rising clock edge: a micro-action that takes the clock level from 0 to 1 (R11). -/
def Event.isRise (e : Event) : Bool := e.token.isMicroAction && e.before.clock == 0 && e.after.clock == 1

/-- A falling clock edge: a micro-action that takes the clock level from 1 to 0 (R11). -/
def Event.isFall (e : Event) : Bool := e.token.isMicroAction && e.before.clock == 1 && e.after.clock == 0

/-- A start signature: data falls while the clock is high before and after (R11). -/
def Levels.startTo (a b : Levels) : Bool := a.data == 1 && b.data == 0 && a.clock == 1 && b.clock == 1

/-- A stop signature: data rises while the clock is high before and after (R11). -/
def Levels.stopTo (a b : Levels) : Bool := a.data == 0 && b.data == 1 && a.clock == 1 && b.clock == 1

/-- A start signature that the event itself makes (R11). -/
def Event.isStart (e : Event) : Bool := e.before.startTo e.after

/-- A stop signature that the event itself makes (R11). -/
def Event.isStop (e : Event) : Bool := e.before.stopTo e.after

/-- The levels of the bus around events given newest first, newest first: after and before each event. A change that the
environment makes between two events stands between the one's after and the other's before (R11, R40). -/
def levelsOf (es : List Event) : List Levels := es.flatMap (fun e => [e.after, e.before])

/-- How many neighbours of a list of levels given newest first, the older and the newer, are as `p` says. -/
def countChanges (p : Levels → Levels → Bool) : List Levels → Nat
  | newer :: older :: rest => (if p older newer then 1 else 0) + countChanges p (older :: rest)
  | _ => 0

/-- `wire(trace)`: the data level at each rising clock edge of a list of events given newest first, oldest first
(spec/42_byte_serializer.md R157). -/
def wire (es : List Event) : List Bit := (es.reverse.filter Event.isRise).map (fun e => e.after.data)

end Sys2Proof.Machine
end

