-- ==== Sys2Proof/Machine/Operands.lean ====
section
/-! DEFINITION. How an operation finds what it works on (spec/30_encoding.md R93, spec/45_frame_operations.md R205):
the buffer byte at IDX, the first buffer byte, the loop bounds the CFG registers give. -/

namespace Sys2Proof.Machine

/-- `BUF[IDX]`, the only addressing mode (R205). -/
def State.byteAtIdx (s : State) : Byte := s.bufRead s.idx

/-- `BUF[0]`, the first byte of a command (R205). -/
def State.firstByte (s : State) : Byte := s.bufRead 0

/-- `BUF[IDX] <- v` (R205). -/
def State.storeAtIdx (s : State) (v : Byte) : State := s.bufWrite s.idx v

/-- `IDX <- IDX + 1` (R205). -/
def State.nextIdx (s : State) : State := s.setIdx (s.idx + 1)

/-- How many poll attempts `while POLLCNT < ACK_POLL_MAX` allows (R152). -/
def State.pollBound (s : State) : Nat := s.cfgAckMax.toNat

/-- How many times TRYCNT can be raised from 0 before it equals START_TRIES_MAX (R191): START_TRIES_MAX, or a whole turn
of the counter for the value 0, which the CFG register refuses (R35). -/
def State.tryBound (s : State) : Nat := (s.cfgStartMax - 1).toNat + 1

end Sys2Proof.Machine
end

