-- ==== Sys2Proof/Machine/Flags.lean ====
section
/-! DEFINITION. The conditions the sequencer branches on (spec/10_state.md R31: there are no condition codes), the byte
computations of spec/45_frame_operations.md R203, and the STATUS bits (R33). -/

namespace Sys2Proof.Machine

/-- `SR[7]`, the bit to send (R31 a). -/
def State.sendsOne (s : State) : Bool := s.sr.getLsbD 7

/-- The latest Sample read 0: an acknowledgment in the poll, a 0 bit in a read (R31 b). -/
def State.readLow (s : State) : Bool := s.bitv == 0

/-- The latest WRITEBYTE returned 0 (R31 c). -/
def State.acked (s : State) : Bool := s.ackcnt == 0

/-- `(SR << 1)[7:0]` (spec/42_byte_serializer.md R151). -/
def shiftLeft (v : Byte) : Byte := v <<< 1

/-- `if b = 1 then v[7 - BITCNT] <- 1` (R155): the place of the bit goes from 7 down. -/
def placeBit (v : Byte) (bitcnt : BitVec 4) (b : Bit) : Byte :=
  if b = 1 then v ||| (0x80#8 >>> bitcnt.toNat) else v

/-- STATUS.BUSY: an operation has been accepted and has not returned; the same as `upc` not being IDLE (R33, R34). -/
def State.busy (s : State) : Bool := !s.upc.isEmpty

/-- A status bit as a number. -/
def flagAt (b : Bool) (place : Nat) : Byte := if b then 1#8 <<< place else 0

/-- STATUS (R33): BUSY, ILL, OVR in bits 0, 1, 2; the others read 0. -/
def State.statusReg (s : State) : Byte := flagAt s.busy 0 ||| flagAt s.ill 1 ||| flagAt s.ovr 2

/-- The two-bit code of a result kind (R30). -/
def Result.code : Result → Byte
  | .success => 0
  | .startFailure => 1
  | .cmdByteFailure => 2
  | .dataWriteFailure => 3

/-- PINDIR (R23): DIR[clock], DIR[data] in bits 0, 1. -/
def State.pindirReg (s : State) : Byte :=
  flagAt (s.dirClock == .output) 0 ||| flagAt (s.dirData == .output) 1

/-- PINOUT (R24): OUTL[clock], OUTL[data] in bits 0, 1, always 0. -/
def State.pinoutReg (s : State) : Byte :=
  flagAt (s.outl .clock == 1) 0 ||| flagAt (s.outl .data == 1) 1

end Sys2Proof.Machine
end

