-- ==== Sys2Proof/Machine/Gpio.lean ====
section
/-! DEFINITION. The GPIO line operations (spec/40_gpio.md): each is its one micro-action. -/

namespace Sys2Proof.Machine

/-- FLOAT `l` (R120). -/
def execFloat (l : Line) (s : State) : Answer := .next (floatLine l s)

/-- DRIVELOW `l` (R121). -/
def execDriveLow (l : Line) (s : State) : Answer := .next (driveLine l s)

/-- SAMPLE `l` (R122). -/
def execSample (l : Line) (s : State) : Answer := .next (sampleLine l s)

end Sys2Proof.Machine
end

