-- ==== Sys2Proof/Machine/BitPrimitives.lean ====
section
/-! DEFINITION. The timed bit primitives (spec/41_bit_primitives.md): a micro-action wrapped in delays. -/

namespace Sys2Proof.Machine

/-- CLOCKHIGH's sequence (R130). -/
def clockHigh (s : State) : State := s |> delay .chPre |> floatLine .clock |> delay .chPost

/-- CLOCKLOW's sequence (R131). -/
def clockLow (s : State) : State := s |> driveLine .clock |> delay .clA |> delay .clB

/-- CLOCKCYCLE's sequence (R132). -/
def clockCycle (s : State) : State := s |> clockLow |> clockHigh

/-- `while CYC != 0`, for a count of iterations (R133). -/
def cycleLoop : Nat → State → State
  | 0, s => s
  | k + 1, s => cycleLoop k ((clockCycle s).setCyc ((clockCycle s).cyc - 1))

/-- CLOCKCYCLES's sequence (R133). -/
def clockCycles (n : Byte) (s : State) : State := cycleLoop n.toNat (s.setCyc n)

/-- DATAHIGH's sequence (R134). -/
def dataHigh (s : State) : State := s |> floatLine .data |> delay .dh

/-- DATALOW's sequence (R135). -/
def dataLow (s : State) : State := s |> driveLine .data |> delay .dl

/-- READDATABIT's sequence (R136); what it returns is in BITV. -/
def readDataBit (s : State) : State := s |> floatLine .data |> delay .rd |> sampleLine .data

/-- CLOCKHIGH (R130). -/
def execClockHigh (s : State) : Answer := .next (clockHigh s)

/-- CLOCKLOW (R131). -/
def execClockLow (s : State) : Answer := .next (clockLow s)

/-- CLOCKCYCLE (R132). -/
def execClockCycle (s : State) : Answer := .next (clockCycle s)

/-- CLOCKCYCLES `n` (R133). -/
def execClockCycles (n : Byte) (s : State) : Answer := .next (clockCycles n s)

/-- DATAHIGH (R134). -/
def execDataHigh (s : State) : Answer := .next (dataHigh s)

/-- DATALOW (R135). -/
def execDataLow (s : State) : Answer := .next (dataLow s)

/-- READDATABIT (R136). -/
def execReadDataBit (s : State) : Answer := .next (readDataBit s)

end Sys2Proof.Machine
end

