-- ==== Sys2Proof/Machine/ByteSerializer.lean ====
section
/-! DEFINITION. The byte serializer and the acknowledgment detector (spec/42_byte_serializer.md). -/

namespace Sys2Proof.Machine

/-- Set the data line to `SR[7]`: high by floating, low by driving (R150, R151). -/
def sendBit (s : State) : State := if s.sendsOne then dataHigh s else dataLow s

/-- `SR <- (SR << 1)[7:0]; BITCNT <- BITCNT + 1` (R150, R151). -/
def shiftBit (s : State) : State := (s.setSr (shiftLeft s.sr)).setBitcnt (s.bitcnt + 1)

/-- `while BITCNT != 8`, phase 1 of WRITEBYTE, for a count of bits (R150). -/
def writeLoop : Nat → State → State
  | 0, s => s
  | k + 1, s => writeLoop k (s |> clockLow |> sendBit |> clockHigh |> shiftBit)

/-- The poll loop of the acknowledgment detector, for a count of attempts left; what it returns is left in ACKCNT
(R152). -/
def pollLoop : Nat → State → State
  | 0, s => s.setAckcnt s.pollcnt
  | k + 1, s =>
    if (readDataBit s).readLow then (readDataBit s).setAckcnt 0
    else pollLoop k ((readDataBit s).setPollcnt ((readDataBit s).pollcnt + 1))

/-- `AckPoll` (R152). -/
def ackPoll (s : State) : State := pollLoop s.pollBound (s.setPollcnt 0)

/-- WRITEBYTE's sequence (R150): eight bits, the acknowledge window, the poll; what it returns is in ACKCNT. -/
def writeByte (value : Byte) (s : State) : State :=
  (s.setSr value).setBitcnt 0 |> writeLoop 8 |> clockLow |> dataHigh |> clockHigh |> ackPoll

/-- `while BITCNT != 8` of READBYTE, for a count of bits, with the byte assembled so far (R155). -/
def readLoop : Nat → Byte → State → State
  | 0, v, s => s.setRxdata v
  | k + 1, v, s =>
    let t := readDataBit (clockCycle s)
    readLoop k (placeBit v t.bitcnt t.bitv) ((clockLow t).setBitcnt ((clockLow t).bitcnt + 1))

/-- READBYTE's sequence (R155); what it returns is in RXDATA. -/
def readByte (s : State) : State := readLoop 8 0 ((dataHigh s).setBitcnt 0)

/-- WRITEBYTE `value` (R150). -/
def execWriteByte (value : Byte) (s : State) : Answer := .next (writeByte value s)

/-- READBYTE (R155). -/
def execReadByte (s : State) : Answer := .next (readByte s)

end Sys2Proof.Machine
end

