-- ==== Sys2Proof/Machine/Acknowledge.lean ====
section
/-! DEFINITION. The acknowledgment driver (spec/43_acknowledge.md). -/

namespace Sys2Proof.Machine

/-- SENDACK's sequence (R170). -/
def sendAck (s : State) : State := s |> dataLow |> clockCycle |> clockLow

/-- SENDNAK's sequence (R171). -/
def sendNak (s : State) : State := s |> dataHigh |> clockCycle |> clockLow

/-- SENDACK (R170). -/
def execSendAck (s : State) : Answer := .next (sendAck s)

/-- SENDNAK (R171). -/
def execSendNak (s : State) : Answer := .next (sendNak s)

end Sys2Proof.Machine
end

