-- ==== Sys2Proof/Machine/Framing.lean ====
section
/-! DEFINITION. Transaction framing (spec/44_framing.md). -/

namespace Sys2Proof.Machine

/-- START's sequence (R180). -/
def start (s : State) : State :=
  s |> clockLow |> dataHigh |> delay .st1 |> clockHigh |> delay .st2 |> dataLow |> delay .st3
    |> clockLow |> delay .st4

/-- STOP's sequence (R182). -/
def stop (s : State) : State :=
  s |> clockLow |> dataLow |> clockHigh |> delay .sp1 |> dataHigh |> delay .sp2

/-- POWERON's sequence (R184). -/
def powerOn (s : State) : State :=
  let t := s |> dataHigh |> clockLow
  t |> clockCycles t.cfgPwrClks |> finish .success

/-- START (R180). -/
def execStart (s : State) : Answer := .next (start s)

/-- STOP (R182). -/
def execStop (s : State) : Answer := .next (stop s)

/-- POWERON (R184). -/
def execPowerOn (s : State) : Answer := .next (powerOn s)

end Sys2Proof.Machine
end

