-- ==== Sys2Proof/Machine/Frames.lean ====
section
/-! DEFINITION. The frame-level operations (spec/45_frame_operations.md). -/

namespace Sys2Proof.Machine

/-- One attempt: START, then WRITEBYTE of `BUF[0]` (R191). -/
def tryFirst (s : State) : State := writeByte (start s).firstByte (start s)

/-- The retry loop of SENDCOMMAND, for a count of attempts left (R191, R192): it ends at the first acknowledged attempt,
or when TRYCNT has reached START_TRIES_MAX. -/
def tryLoop : Nat → State → State
  | 0, s => s
  | k + 1, s =>
    let t := tryFirst s
    if t.acked then t
    else
      let u := t.setTrycnt (t.trycnt + 1)
      if u.trycnt = u.cfgStartMax then u else tryLoop k u

/-- `while IDX != LEN` of SENDCOMMAND and SENDDATA, for a count of bytes left: each `BUF[IDX]` is written in order, up to
the first that is not acknowledged (R191, R195). Answers whether all were. -/
def sendLoop : Nat → State → Bool × State
  | 0, s => (true, s)
  | k + 1, s =>
    let t := writeByte s.byteAtIdx s
    if t.acked then sendLoop k t.nextIdx else (false, t)

/-- SENDCOMMAND's sequence for `len` of at least 1 (R191). -/
def sendCommand (len : Byte) (s : State) : State :=
  let s1 := (s.setLen len).setTrycnt 0
  let s2 := tryLoop s1.tryBound s1
  if s2.acked then
    match sendLoop (len.toNat - 1) (s2.setIdx 1) with
    | (true, t) => finish .success t
    | (false, t) => finish .cmdByteFailure t
  else finish .startFailure s2

/-- SENDDATA's sequence (R195): STOP on every path. -/
def sendData (len : Byte) (s : State) : State :=
  match sendLoop len.toNat ((s.setLen len).setIdx 0) with
  | (true, t) => t |> stop |> finish .success
  | (false, t) => t |> stop |> finish .dataWriteFailure

/-- The acknowledge policy of RECEIVEDATA (R172, R197): ACK after every byte but the last, NAK after the last. -/
def answerByte (s : State) : State := if s.idx + 1 ≠ s.len then sendAck s else sendNak s

/-- `while IDX != LEN` of RECEIVEDATA, for a count of bytes left (R197). -/
def receiveLoop : Nat → State → State
  | 0, s => s
  | k + 1, s =>
    let t := readByte s
    receiveLoop k (t.storeAtIdx t.rxdata |> answerByte).nextIdx

/-- RECEIVEDATA's sequence (R197). -/
def receiveData (len : Byte) (s : State) : State :=
  (s.setLen len).setIdx 0 |> receiveLoop len.toNat |> stop |> finish .success

/-- `while LOOPC != 0` of WAITCLOCK, for a count of iterations (R200). -/
def waitLoop : Nat → State → State
  | 0, s => s
  | k + 1, s =>
    let t := s |> start |> clockCycles Config.waitClocks |> stop
    waitLoop k (t.setLoopc (t.loopc - 1))

/-- WAITCLOCK's sequence (R200). -/
def waitClock (loopCount : Byte) (s : State) : State :=
  s.setLoopc loopCount |> dataLow |> waitLoop loopCount.toNat |> finish .success

/-- SENDCOMMAND `len` (R191). For `len` = 0 the word is illegal: nothing runs and STATUS.ILL is set (R194). -/
def execSendCommand (len : Byte) (s : State) : Answer :=
  if len = 0 then .next s.markIllegal else .next (sendCommand len s)

/-- SENDDATA `len` (R195). -/
def execSendData (len : Byte) (s : State) : Answer := .next (sendData len s)

/-- RECEIVEDATA `len` (R197). -/
def execReceiveData (len : Byte) (s : State) : Answer := .next (receiveData len s)

/-- WAITCLOCK `loopCount` (R200). -/
def execWaitClock (loopCount : Byte) (s : State) : Answer := .next (waitClock loopCount s)

end Sys2Proof.Machine
end

