-- ==== Sys2Proof/Machine/Dispatch.lean ====
section
/-! DEFINITION. One arm per operation (spec/30_encoding.md R92). -/

namespace Sys2Proof.Machine

def exec (i : Instr) (s : State) : Host.Outcome State Fault Refusal :=
  match i with
  | .float l => Sys2Proof.Machine.execFloat l s
  | .driveLow l => Sys2Proof.Machine.execDriveLow l s
  | .sample l => Sys2Proof.Machine.execSample l s
  | .clockHigh => Sys2Proof.Machine.execClockHigh s
  | .clockLow => Sys2Proof.Machine.execClockLow s
  | .clockCycle => Sys2Proof.Machine.execClockCycle s
  | .clockCycles n => Sys2Proof.Machine.execClockCycles n s
  | .dataHigh => Sys2Proof.Machine.execDataHigh s
  | .dataLow => Sys2Proof.Machine.execDataLow s
  | .readDataBit => Sys2Proof.Machine.execReadDataBit s
  | .writeByte value => Sys2Proof.Machine.execWriteByte value s
  | .readByte => Sys2Proof.Machine.execReadByte s
  | .sendAck => Sys2Proof.Machine.execSendAck s
  | .sendNak => Sys2Proof.Machine.execSendNak s
  | .start => Sys2Proof.Machine.execStart s
  | .stop => Sys2Proof.Machine.execStop s
  | .powerOn => Sys2Proof.Machine.execPowerOn s
  | .sendCommand len => Sys2Proof.Machine.execSendCommand len s
  | .sendData len => Sys2Proof.Machine.execSendData len s
  | .receiveData len => Sys2Proof.Machine.execReceiveData len s
  | .waitClock loopCount => Sys2Proof.Machine.execWaitClock loopCount s

end Sys2Proof.Machine
end

