-- ==== Sys2Proof/Machine/Engine.lean ====
section
/-! DEFINITION. The sequencer, one micro-action at a time (spec/10_state.md R34). `upc` is the stack of statements still
to run. `unfold` says what each statement that is no micro-action does and which statements it stands for: it is the
operations' pseudocode (spec/41 to 45) cut at its calls, loop heads and tests. -/

namespace Sys2Proof.Machine

/-- Run one silent statement: the register writes it makes, and the statements that stand in its place. -/
def unfold (st : Stmt) (s : State) : State × List Stmt :=
  match st with
  | .act a => (s, [.act a])
  -- spec/40_gpio.md
  | .op (.float l) => (s, [.act (.float l)])
  | .op (.driveLow l) => (s, [.act (.driveLow l)])
  | .op (.sample l) => (s, [.act (.sample l)])
  -- spec/41_bit_primitives.md
  | .op .clockHigh => (s, [.act (.delay .chPre), .act (.float .clock), .act (.delay .chPost)])
  | .op .clockLow => (s, [.act (.driveLow .clock), .act (.delay .clA), .act (.delay .clB)])
  | .op .clockCycle => (s, [.op .clockLow, .op .clockHigh])
  | .op (.clockCycles n) => (s.setCyc n, [.cycLoop])
  | .cycLoop => if s.cyc = 0 then (s, []) else (s, [.op .clockCycle, .cycNext])
  | .cycNext => (s.setCyc (s.cyc - 1), [.cycLoop])
  | .op .dataHigh => (s, [.act (.float .data), .act (.delay .dh)])
  | .op .dataLow => (s, [.act (.driveLow .data), .act (.delay .dl)])
  | .op .readDataBit => (s, [.act (.float .data), .act (.delay .rd), .act (.sample .data)])
  -- spec/42_byte_serializer.md, R150 and R152
  | .op (.writeByte value) => ((s.setSr value).setBitcnt 0, [.bitLoop])
  | .bitLoop =>
    if s.bitcnt = 8 then (s, [.op .clockLow, .op .dataHigh, .op .clockHigh, .pollInit])
    else (s, [.op .clockLow, .bitSend, .op .clockHigh, .bitNext])
  | .bitSend => (s, [if s.sendsOne then .op .dataHigh else .op .dataLow])
  | .bitNext => ((s.setSr (shiftLeft s.sr)).setBitcnt (s.bitcnt + 1), [.bitLoop])
  | .pollInit => (s.setPollcnt 0, [.pollLoop])
  | .pollLoop =>
    if s.pollcnt < s.cfgAckMax then (s, [.op .readDataBit, .pollTest]) else (s.setAckcnt s.pollcnt, [])
  | .pollTest => if s.readLow then (s.setAckcnt 0, []) else (s.setPollcnt (s.pollcnt + 1), [.pollLoop])
  -- spec/42_byte_serializer.md, R155
  | .op .readByte => (s, [.op .dataHigh, .readInit])
  | .readInit => (s.setBitcnt 0, [.readLoop 0])
  | .readLoop v =>
    if s.bitcnt = 8 then (s.setRxdata v, []) else (s, [.op .clockCycle, .op .readDataBit, .readTake v])
  | .readTake v => (s, [.op .clockLow, .readNext (placeBit v s.bitcnt s.bitv)])
  | .readNext v => (s.setBitcnt (s.bitcnt + 1), [.readLoop v])
  -- spec/43_acknowledge.md
  | .op .sendAck => (s, [.op .dataLow, .op .clockCycle, .op .clockLow])
  | .op .sendNak => (s, [.op .dataHigh, .op .clockCycle, .op .clockLow])
  -- spec/44_framing.md
  | .op .start =>
    (s, [.op .clockLow, .op .dataHigh, .act (.delay .st1), .op .clockHigh, .act (.delay .st2), .op .dataLow,
     .act (.delay .st3), .op .clockLow, .act (.delay .st4)])
  | .op .stop =>
    (s, [.op .clockLow, .op .dataLow, .op .clockHigh, .act (.delay .sp1), .op .dataHigh, .act (.delay .sp2)])
  | .op .powerOn => (s, [.op .dataHigh, .op .clockLow, .op (.clockCycles s.cfgPwrClks), .finish .success])
  | .finish r => (s.setResult r, [])
  -- spec/45_frame_operations.md, R191 and R194
  | .op (.sendCommand len) =>
    if len = 0 then (s.markIllegal, []) else ((s.setLen len).setTrycnt 0, [.tryLoop])
  | .tryLoop => (s, [.op .start, .tryByte])
  | .tryByte => (s, [.op (.writeByte s.firstByte), .tryTest])
  | .tryTest =>
    if s.acked then (s.setIdx 1, [.cmdLoop])
    else if s.trycnt + 1 = s.cfgStartMax then (s.setTrycnt (s.trycnt + 1), [.finish .startFailure])
    else (s.setTrycnt (s.trycnt + 1), [.tryLoop])
  | .cmdLoop => if s.idx = s.len then (s, [.finish .success]) else (s, [.op (.writeByte s.byteAtIdx), .cmdTest])
  | .cmdTest => if s.acked then (s.setIdx (s.idx + 1), [.cmdLoop]) else (s, [.finish .cmdByteFailure])
  -- spec/45_frame_operations.md, R195
  | .op (.sendData len) => ((s.setLen len).setIdx 0, [.dataLoop])
  | .dataLoop =>
    if s.idx = s.len then (s, [.op .stop, .finish .success]) else (s, [.op (.writeByte s.byteAtIdx), .dataTest])
  | .dataTest =>
    if s.acked then (s.setIdx (s.idx + 1), [.dataLoop]) else (s, [.op .stop, .finish .dataWriteFailure])
  -- spec/45_frame_operations.md, R197
  | .op (.receiveData len) => ((s.setLen len).setIdx 0, [.recvLoop])
  | .recvLoop => if s.idx = s.len then (s, [.op .stop, .finish .success]) else (s, [.op .readByte, .recvStore])
  | .recvStore =>
    (s.storeAtIdx s.rxdata, [if s.idx + 1 ≠ s.len then .op .sendAck else .op .sendNak, .recvNext])
  | .recvNext => (s.setIdx (s.idx + 1), [.recvLoop])
  -- spec/45_frame_operations.md, R200
  | .op (.waitClock loopCount) => (s.setLoopc loopCount, [.op .dataLow, .waitLoop])
  | .waitLoop =>
    if s.loopc = 0 then (s, [.finish .success])
    else (s, [.op .start, .op (.clockCycles Config.waitClocks), .op .stop, .waitNext])
  | .waitNext => (s.setLoopc (s.loopc - 1), [.waitLoop])

/-- Run silent statements until a micro-action is next or nothing is left, for at most a count of them. -/
def settleFor : Nat → State → State
  | 0, s => s
  | k + 1, s =>
    match s.upc with
    | [] => s
    | .act _ :: _ => s
    | st :: rest =>
      let (t, new) := unfold st (s.setUpc rest)
      settleFor k (t.setUpc (new ++ rest))

/-- Run silent statements until a micro-action is next or upc is IDLE. No statement stands for a chain of more than
eight silent ones, so the count is enough for every stack. -/
def settle (s : State) : State := settleFor (8 * s.upc.length) s

/-- One engine step (R34): one micro-action, and the silent statements up to the next. Idle, it does nothing (R235). -/
def engineStep (s : State) : State :=
  match s.upc with
  | [] => s
  | .act a :: rest => settle (perform a (s.setUpc rest))
  | _ :: _ => settle s

/-- `k` engine steps. -/
def engineRun : Nat → State → State
  | 0, s => s
  | k + 1, s => engineRun k (engineStep s)

/-- An operation is accepted: `upc` moves to its first micro-action (R96). An operation without one is over at once. -/
def accept (i : Instr) (s : State) : State := settle (s.setUpc [.op i])

end Sys2Proof.Machine
end

