-- ==== Sys2Proof/Machine/HostPort.lean ====
section
/-! DEFINITION. The host port (spec/10_state.md R32 to R37, spec/30_encoding.md R95 to R98,
spec/70_reset_and_hazards.md R250, R256). -/

namespace Sys2Proof.Machine

/-- The host may issue this operation (R98, items d and e). -/
def legal (s : State) (i : Instr) : Bool := i.wellFormed && (isPublic i || s.exposeInternal)

/-- The operation the word in CMD issues: none for an illegal word (R96, R98). -/
def issued (s : State) : Option Instr :=
  match decode s.cmd with
  | .ok i => if legal s i then some i else none
  | .error _ => none

/-- A write to CMD without waiting (R32, R96): a legal word starts its operation; an illegal one sets ILL (R98); while
busy the write is dropped and sets OVR (R256), and OVR alone for an illegal word too (DESIGN CHOICE, log entry 16). -/
def writeCmd (cw : CmdWord) (s : State) : State :=
  if s.busy then s.markOverrun
  else
    let t := s.setCmd cw
    match issued t with
    | some i => accept i t
    | none => t.markIllegal

/-- D00's blocking call (R96): write CMD, then wait for BUSY = 0, as one step. An illegal word starts nothing and sets
ILL (R98). While busy the write is dropped and sets OVR alone (R256, log entry 16), and the wait remains. -/
def callCmd (cw : CmdWord) (s : State) : Answer :=
  if s.busy then .next (s.markOverrun.setHost (.waitIdle :: s.host))
  else
    match issued (s.setCmd cw) with
    | some i => exec i (s.setCmd cw)
    | none => .next (s.setCmd cw).markIllegal

/-- The eight bits a CFG register takes from the 16-bit port. Log entry 12. -/
def portByte (v : CmdWord) : Byte := v.setWidth 8

/-- A write to a CFG register (R35): dropped with OVR while busy, dropped with ILL where 0 is out of range. A write of 0
while busy falls under both; that it sets OVR alone is the model's choice (DESIGN CHOICE, log entry 16). -/
def writeCfg (zeroAllowed : Bool) (set : Byte → State → State) (v : Byte) (s : State) : State :=
  if s.busy then s.markOverrun
  else if v = 0 ∧ zeroAllowed = false then s.markIllegal
  else set v s

/-- A write to a host register (R36). The read-only and the reserved ones ignore it. -/
def writeReg (r : BitVec 4) (v : CmdWord) (s : State) : State :=
  match r.toNat with
  | 0x0 => writeCmd v s
  | 0x8 => writeCfg false (fun b t => t.setCfgAckMax b) (portByte v) s
  | 0x9 => writeCfg false (fun b t => t.setCfgStartMax b) (portByte v) s
  | 0xA => writeCfg true (fun b t => t.setCfgPwrClks b) (portByte v) s
  | _ => s

/-- What a host register reads as (R36, R37): its own width, zero-extended to the port (spec/20_memory.md R67). CMD and
the reserved registers read 0. -/
def readReg (r : BitVec 4) (s : State) : CmdWord :=
  match r.toNat with
  | 0x1 => s.statusReg.setWidth 16
  | 0x2 => s.result.code.setWidth 16
  | 0x3 => s.ackcnt.setWidth 16
  | 0x4 => s.rxdata.setWidth 16
  | 0x5 => s.bitv.setWidth 16
  | 0x6 => s.pindirReg.setWidth 16
  | 0x7 => s.pinoutReg.setWidth 16
  | 0x8 => s.cfgAckMax.setWidth 16
  | 0x9 => s.cfgStartMax.setWidth 16
  | 0xA => s.cfgPwrClks.setWidth 16
  | _ => 0

/-- A host write to BUF (R39): dropped with OVR while busy (R256). -/
def hostWriteBuf (i v : Byte) (s : State) : State :=
  if s.busy then s.markOverrun else s.bufWrite i v

/-- The host does one thing at its port, or the environment moves. `s` no longer lists it. -/
def hostStep (h : HostAct) (s : State) : Answer :=
  match h with
  | .call cw => callCmd cw s
  | .writeReg r v => .next (writeReg r v s)
  | .readReg r => .next (s.reply (readReg r s))
  | .writeBuf i v => .next (hostWriteBuf i v s)
  | .readBuf i => .next (s.reply ((s.bufRead i).setWidth 16))
  | .waitIdle => .next (if s.busy then engineStep (s.setHost (.waitIdle :: s.host)) else s)
  | .tick => .next (engineStep s)
  | .reset => .next (hardReset s)
  | .environment p => .next (moveEnvironment p s)

/-- One step: the host's next action, or, when it has none, an engine step. -/
def machineStep (s : State) : Answer :=
  match s.host with
  | [] => .next (engineStep s)
  | h :: rest => hostStep h (s.setHost rest)

/-- The word is the host's next blocking call, on an idle engine, and the port accepts its class. -/
def placeCall (cw : CmdWord) (s : State) : State :=
  let t := (s.setUpc []).setHost (.call cw :: s.host)
  match decode cw with
  | .ok i => if isPublic i then t else t.setExposeInternal true
  | .error _ => t

end Sys2Proof.Machine
end

