-- ==== Sys2Proof/Machine/Step.lean ====
section
/-! DEFINITION. One step of the machine. TWBB fetches no program: an operation runs because the host writes its command
word to CMD (spec/30_encoding.md R96, spec/20_memory.md R73). Log entry 9. -/

namespace Sys2Proof.Machine

/-- One step. -/
def step (s : State) : Host.Outcome State Fault Refusal := machineStep s

/-- `s` with the word as the host's next blocking call, so that the very next step runs it. -/
def State.withFetchWord (s : State) (nbits w : Nat) : State := placeCall (tableWord nbits w) s

end Sys2Proof.Machine
end

