-- ==== Sys2Proof/Safety.lean ====
section
/-! DEFINITION. The terms claims are made in: the invariant every step keeps, what an operation may change, and the
traces the rules of spec/41 to spec/45 print, written here from those rules and not from the machine. -/

namespace Sys2Proof.Machine

/-! The invariant. -/

/-- A micro-action is next, or nothing is (spec/10_state.md R34). -/
def settledUpc : List Stmt → Bool
  | [] => true
  | .act _ :: _ => true
  | _ :: _ => false

/-- What every step keeps: the buffer is in its canonical form inside BUF (spec/20_memory.md R61), the two bounds are in
their range 1..255 (R6, R35), and the sequencer stands before a micro-action or is IDLE (R34). -/
def Inv (s : State) : Prop :=
  Memory.wf s.buf ∧ s.cfgAckMax ≠ 0 ∧ s.cfgStartMax ≠ 0 ∧ settledUpc s.upc = true

/-! What an operation may change: `t` is `s` with other values of the named fields and of no other. -/

/-- Only the lines (and the record of what happened) differ. -/
def linesOnly (s t : State) : Prop :=
  ∃ (dc dd : Dir) (n : Nat) (es : List Event),
    t = { s with dirClock := dc, dirData := dd, now := n, trace := es }

/-- Only the lines and CYC differ (CLOCKCYCLES, R133). -/
def cyclesOnly (s t : State) : Prop :=
  ∃ (dc dd : Dir) (n : Nat) (es : List Event) (cy : Byte),
    t = { s with dirClock := dc, dirData := dd, now := n, trace := es, cyc := cy }

/-- Only the lines and BITV differ, and Samples were taken (READDATABIT, R136). -/
def bitsOnly (s t : State) : Prop :=
  ∃ (dc dd : Dir) (n : Nat) (es : List Event) (b : Bit) (ps : List EnvPhase),
    t = { s with dirClock := dc, dirData := dd, now := n, trace := es, bitv := b, env := ps }

/-- What WRITEBYTE writes (R150). -/
def writeOnly (s t : State) : Prop :=
  ∃ (dc dd : Dir) (n : Nat) (es : List Event) (b : Bit) (ps : List EnvPhase) (sr : Byte)
      (bc : BitVec 4) (pc ac : Byte),
    t = { s with
      dirClock := dc, dirData := dd, now := n, trace := es, bitv := b, env := ps, sr := sr, bitcnt := bc,
      pollcnt := pc, ackcnt := ac }

/-- What READBYTE writes (R155). -/
def readOnly (s t : State) : Prop :=
  ∃ (dc dd : Dir) (n : Nat) (es : List Event) (b : Bit) (ps : List EnvPhase) (bc : BitVec 4) (rx : Byte),
    t = { s with
      dirClock := dc, dirData := dd, now := n, trace := es, bitv := b, env := ps, bitcnt := bc, rxdata := rx }

/-- What POWERON writes (R184). -/
def powerOnly (s t : State) : Prop :=
  ∃ (dc dd : Dir) (n : Nat) (es : List Event) (cy : Byte) (r : Result),
    t = { s with
      dirClock := dc, dirData := dd, now := n, trace := es, cyc := cy, result := r }

/-- What SENDCOMMAND writes (R191). -/
def commandOnly (s t : State) : Prop :=
  ∃ (dc dd : Dir) (n : Nat) (es : List Event) (b : Bit) (ps : List EnvPhase) (sr : Byte)
      (bc : BitVec 4) (pc ac le tr ix : Byte) (r : Result),
    t = { s with
      dirClock := dc, dirData := dd, now := n, trace := es, bitv := b, env := ps, sr := sr, bitcnt := bc,
      pollcnt := pc, ackcnt := ac, len := le, trycnt := tr, idx := ix, result := r }

/-- What SENDDATA writes (R195). -/
def dataOnly (s t : State) : Prop :=
  ∃ (dc dd : Dir) (n : Nat) (es : List Event) (b : Bit) (ps : List EnvPhase) (sr : Byte)
      (bc : BitVec 4) (pc ac le ix : Byte) (r : Result),
    t = { s with
      dirClock := dc, dirData := dd, now := n, trace := es, bitv := b, env := ps, sr := sr, bitcnt := bc,
      pollcnt := pc, ackcnt := ac, len := le, idx := ix, result := r }

/-- What RECEIVEDATA writes (R197). -/
def receiveOnly (s t : State) : Prop :=
  ∃ (dc dd : Dir) (n : Nat) (es : List Event) (b : Bit) (ps : List EnvPhase) (bc : BitVec 4)
      (rx le ix : Byte) (m : Memory) (r : Result),
    t = { s with
      dirClock := dc, dirData := dd, now := n, trace := es, bitv := b, env := ps, bitcnt := bc, rxdata := rx,
      len := le, idx := ix, buf := m, result := r }

/-- What WAITCLOCK writes (R200). -/
def waitOnly (s t : State) : Prop :=
  ∃ (dc dd : Dir) (n : Nat) (es : List Event) (cy lc : Byte) (r : Result),
    t = { s with
      dirClock := dc, dirData := dd, now := n, trace := es, cyc := cy, loopc := lc, result := r }

/-! Traces, as the rules print them. -/

/-- CLOCKHIGH (R130). -/
def traceClockHigh : List Token := [.delay .chPre, .float .clock, .delay .chPost]

/-- CLOCKLOW (R131). -/
def traceClockLow : List Token := [.driveLow .clock, .delay .clA, .delay .clB]

/-- CLOCKCYCLE (R132). -/
def traceClockCycle : List Token :=
  [.driveLow .clock, .delay .clA, .delay .clB, .delay .chPre, .float .clock, .delay .chPost]

/-- CLOCKCYCLES `n` (R133). -/
def traceCycles (n : Nat) : List Token := (List.replicate n traceClockCycle).flatten

/-- DATAHIGH (R134). -/
def traceDataHigh : List Token := [.float .data, .delay .dh]

/-- DATALOW (R135). -/
def traceDataLow : List Token := [.driveLow .data, .delay .dl]

/-- READDATABIT that samples `b` (R136). -/
def traceReadBit (b : Bit) : List Token := [.float .data, .delay .rd, .sample .data b]

/-- One data bit of WRITEBYTE (R150). -/
def traceSendBit (one : Bool) : List Token :=
  traceClockLow ++ (if one then traceDataHigh else traceDataLow) ++ traceClockHigh

/-- Phase 1 of WRITEBYTE: eight bits, bit 7 first (R150, R64). -/
def traceSendBits (v : Byte) : List Token := [7, 6, 5, 4, 3, 2, 1, 0].flatMap (fun i => traceSendBit (v.getLsbD i))

/-- WRITEBYTE with the answers of its polls (R150, R152): the bits, the acknowledge window, the polls. -/
def traceWriteByte (v : Byte) (polls : List Bit) : List Token :=
  traceSendBits v ++ (traceClockLow ++ traceDataHigh ++ traceClockHigh) ++ polls.flatMap traceReadBit

/-- READBYTE with the samples it takes (R155). -/
def traceReadByte (bits : List Bit) : List Token :=
  traceDataHigh ++ bits.flatMap (fun b => traceClockCycle ++ traceReadBit b ++ traceClockLow)

/-- SENDACK (R170). -/
def traceSendAck : List Token :=
  [.driveLow .data, .delay .dl, .driveLow .clock, .delay .clA, .delay .clB, .delay .chPre,
   .float .clock, .delay .chPost, .driveLow .clock, .delay .clA, .delay .clB]

/-- SENDNAK (R171). -/
def traceSendNak : List Token :=
  [.float .data, .delay .dh, .driveLow .clock, .delay .clA, .delay .clB, .delay .chPre,
   .float .clock, .delay .chPost, .driveLow .clock, .delay .clA, .delay .clB]

/-- START (R180). -/
def traceStart : List Token :=
  [.driveLow .clock, .delay .clA, .delay .clB, .float .data, .delay .dh, .delay .st1, .delay .chPre,
   .float .clock, .delay .chPost, .delay .st2, .driveLow .data, .delay .dl, .delay .st3,
   .driveLow .clock, .delay .clA, .delay .clB, .delay .st4]

/-- STOP (R182). -/
def traceStop : List Token :=
  [.driveLow .clock, .delay .clA, .delay .clB, .driveLow .data, .delay .dl, .delay .chPre,
   .float .clock, .delay .chPost, .delay .sp1, .float .data, .delay .dh, .delay .sp2]

/-- POWERON with `n` priming cycles (R184). -/
def tracePowerOn (n : Nat) : List Token := traceDataHigh ++ traceClockLow ++ traceCycles n

/-- WAITCLOCK with `k` iterations of 15 bare cycles (R200). -/
def traceWaitClock (k : Nat) : List Token :=
  traceDataLow ++ (List.replicate k (traceStart ++ traceCycles 15 ++ traceStop)).flatten

/-- The answers of an acknowledged poll (R152): it stops at the first 0, at most `max` attempts in. -/
def AckedPolls (max : Byte) (polls : List Bit) : Prop := ∃ k < max.toNat, polls = List.replicate k 1 ++ [0]

/-- The answers of a poll that is not acknowledged (R152): `max` attempts, all 1. -/
def FailedPolls (max : Byte) (polls : List Bit) : Prop := polls = List.replicate max.toNat 1

/-- WRITEBYTEs of consecutive buffer bytes from index `i`, one per list of poll answers. -/
def traceBytes (s : State) : Nat → List (List Bit) → List Token
  | _, [] => []
  | i, p :: ps => traceWriteByte (s.bufRead (BitVec.ofNat 8 i)) p ++ traceBytes s (i + 1) ps

/-- `n` failed attempts of SENDCOMMAND (R192): START and the first byte, polled to the end. -/
def traceFailedTries (s : State) (n : Nat) : List Token :=
  (List.replicate n (traceStart ++ traceWriteByte (s.bufRead 0) (List.replicate s.cfgAckMax.toNat 1))).flatten

/-- The reads of RECEIVEDATA (R197, R198): an ACK after every byte but the last, a NAK after the last. -/
def traceReads : List (List Bit) → List Token
  | [] => []
  | [b] => traceReadByte b ++ traceSendNak
  | b :: c :: bs => traceReadByte b ++ traceSendAck ++ traceReads (c :: bs)

/-- Eight samples as a byte, the first sample bit 7 (R155). -/
def byteOfBits (bits : List Bit) : Byte := BitVec.ofNat 8 (bits.foldl (fun n b => 2 * n + b.toNat) 0)

/-- The bits of a byte, bit 7 first. -/
def bitsOfByte (v : Byte) : List Bit := [7, 6, 5, 4, 3, 2, 1, 0].map (fun i => if v.getLsbD i then 1 else 0)

/-! The environment, as scripted. -/

/-- A device that answers the next Sample of data with `b` and leaves the clock alone. -/
def answering (b : Bit) : EnvPhase := ⟨false, b == 0, 0⟩

/-- The events `t` has more than `s`, newest first. -/
def newEvents (s t : State) : List Event := t.trace.take (t.trace.length - s.trace.length)

/-- The tokens `t` has more than `s`, oldest first. -/
def newTokens (s t : State) : List Token := t.tokens.drop s.tokens.length

/-- The levels of the bus from `s` to `t`, newest first: `t`'s own, and those around each event between. -/
def levelsBetween (s t : State) : List Levels := t.levels :: levelsOf (newEvents s t)

/-- The start signatures on the bus from `s` to `t`, those of the environment's own changes among them (R11). -/
def startCount (s t : State) : Nat := countChanges Levels.startTo (levelsBetween s t)

/-- The stop signatures on the bus from `s` to `t`, those of the environment's own changes among them (R11). -/
def stopCount (s t : State) : Nat := countChanges Levels.stopTo (levelsBetween s t)

/-- The tokens of the events between that themselves make a signature `p` tells, oldest first. -/
def signatureTokens (p : Event → Bool) (s t : State) : List Token := ((newEvents s t).filter p).reverse.map Event.token

/-- The rising clock edges among events. -/
def riseCount (es : List Event) : Nat := es.countP Event.isRise

/-- The falling clock edges among events. -/
def fallCount (es : List Event) : Nat := es.countP Event.isFall

end Sys2Proof.Machine
end

