-- ==== Sys2Proof/Certificates/Slice0/Obligations.lean ====
section
/-! DEFINITION. What the model claims of TWBB, rule by rule of the spec. A free value (Config's opaque constants, the
fields env and now of the state) is never fixed here: each statement holds for every value of it. -/

open Sys2Proof Sys2Proof.Machine

/-! ## Encoding -/

/-- Decoding an operation's command word gives the operation back, with every operand at every value (R90 to R94). -/
def Obligations.DecodeOfEncodeIsTheOperation : Prop := ∀ i : Instr, decode (encode i) = .ok i

/-- A word that decodes is the command word of what it decodes to: no two words mean the same, and no bit is dropped
(R90, R91, R100). -/
def Obligations.EncodeOfDecodeIsTheWord : Prop := ∀ (cw : CmdWord) (i : Instr), decode cw = .ok i → encode i = cw

/-- A word decodes to an operation of a row exactly when it selects the row, `cw & mask = match`, and no word selects
two rows (R91). -/
def Obligations.WordSelectsItsOnlyRow : Prop :=
  (∀ (cw : CmdWord) (r : OpcodeRow), r ∈ opcodeTable →
    (r.selects cw = true ↔ ∃ i, decode cw = .ok i ∧ rowOf i = r)) ∧
  opcodeTable.Pairwise (fun a b => ∀ cw : CmdWord, ¬(a.selects cw = true ∧ b.selects cw = true))

/-- Command words the spec writes out decode to the operations they stand for, and some illegal ones do not (R120 to
R200, vectors V1 to V85). -/
def Obligations.PrintedWordsDecode : Prop :=
  decode 0x0101 = .ok (.float .data) ∧ decode 0x0200 = .ok (.driveLow .clock) ∧
  decode 0x0301 = .ok (.sample .data) ∧ decode 0x1302 = .ok (.clockCycles 2) ∧ decode 0x20A5 = .ok (.writeByte 0xA5) ∧
  decode 0x2100 = .ok .readByte ∧ decode 0x3100 = .ok .sendNak ∧ decode 0x4200 = .ok .powerOn ∧
  decode 0x5003 = .ok (.sendCommand 3) ∧ decode 0x5301 = .ok (.waitClock 1) ∧
  decode 0x4201 = .error (.operandNotZero 0x42 0x01) ∧ decode 0x0102 = .error (.lineBitsNotZero 0x01 0x02) ∧
  decode 0x6000 = .error (.reservedOpcode 0x60)

/-! ## The step and the host port -/

/-- A step runs the decoded operation. When the engine is idle and the host's next action is the blocking call of a
word that decodes to an operation the port accepts, the step is `exec` of that operation, on the state whose CMD holds
the word and whose host list has lost the call (R96). The blocking call as one step, and the host's list, are the
model's (log entry 9). -/
def Obligations.StepRunsTheDecodedOperation : Prop :=
  ∀ (s : State) (cw : CmdWord) (i : Instr) (rest : List HostAct),
    s.host = .call cw :: rest → s.upc = [] → decode cw = .ok i → i.wellFormed = true →
    (isPublic i = true ∨ s.exposeInternal = true) →
    step s = exec i ((s.setHost rest).setCmd cw)

/-- Where the fetch word is placed, the very next step runs exactly that operation. The states differ from `s` only in
what the placing needs: an idle engine, the word in CMD, and, for an internal operation, EXPOSE_INTERNAL. That a word
is placed as the host's next call is the model's (log entry 9). -/
def Obligations.PlacedWordRunsNext : Prop :=
  ∀ (s : State) (w : Nat) (i : Instr),
    decodeTableWord 16 w = some i → i.wellFormed = true →
    step (s.withFetchWord 16 w) =
      exec i { s with
        upc := [], cmd := BitVec.ofNat 16 w, exposeInternal := if isPublic i then s.exposeInternal else true }

/-- An illegal command word written while BUSY = 0 starts nothing: BUSY stays 0, ILL is set, and no pin, buffer byte
or return register changes (R98). Both forms of the write, and every reason a word is illegal. That CMD takes the word
is the model's (log entry 3). -/
def Obligations.IllegalWordOnlySetsIll : Prop :=
  ∀ (s : State) (cw : CmdWord) (h : HostAct) (rest : List HostAct),
    (h = .call cw ∨ h = .writeReg 0 cw) → s.host = h :: rest → s.upc = [] →
    ((∃ e, decode cw = .error e) ∨
      (∃ i, decode cw = .ok i ∧ isPublic i = false ∧ s.exposeInternal = false) ∨ cw = 0x5000) →
    step s = .next { s with host := rest, cmd := cw, ill := true }

/-- A legal word written to CMD without waiting is accepted while BUSY = 0 (R96): the sequencer stands before the
first micro-action of the operation, or, for the one operation that can be without any (CLOCKCYCLES 0), is IDLE again;
no micro-action has been performed, so neither a line nor the trace has changed. The non-blocking write as a step of
its own is the model's (log entry 9). -/
def Obligations.LegalWordIsAccepted : Prop :=
  ∀ (s : State) (cw : CmdWord) (i : Instr) (rest : List HostAct),
    s.host = .writeReg 0 cw :: rest → s.upc = [] → decode cw = .ok i → i.wellFormed = true →
    (isPublic i = true ∨ s.exposeInternal = true) →
    ∃ t, step s = .next t ∧ t = accept i ((s.setHost rest).setCmd cw) ∧ settledUpc t.upc = true ∧
      (t.busy = true ↔ i ≠ .clockCycles 0) ∧ t.trace = s.trace ∧ t.now = s.now ∧ t.dirClock = s.dirClock ∧
      t.dirData = s.dirData ∧ t.buf = s.buf ∧ t.result = s.result ∧ t.host = rest

/-- While BUSY = 1 a host write to CMD, to a CFG register or to BUF is dropped and sets OVR; the target keeps its
value, no operation starts and the running one is not disturbed (R256); of a blocking call the wait remains (log
entry 9). The spec lets a model refuse such a write; this one gives the hardware's effect (log entry 14). A write
of 0 to CFG_ACKMAX or CFG_STARTMAX, or of an illegal word, falls under the rules for ILL too; that it sets OVR
alone is the model's choice (log entry 16). -/
def Obligations.BusyWritesAreDropped : Prop :=
  (∀ (s : State) (h : HostAct) (rest : List HostAct),
    ((∃ v, h = .writeReg 0x0 v ∨ h = .writeReg 0x8 v ∨ h = .writeReg 0x9 v ∨ h = .writeReg 0xA v) ∨
      ∃ i v, h = .writeBuf i v) →
    s.host = h :: rest → s.upc ≠ [] → step s = .next { s with host := rest, ovr := true }) ∧
  ∀ (s : State) (cw : CmdWord) (rest : List HostAct),
    s.host = .call cw :: rest → s.upc ≠ [] → step s = .next { s with host := .waitIdle :: rest, ovr := true }

/-- While BUSY = 0 a write to a CFG register sets it, but 0 to CFG_ACKMAX or CFG_STARTMAX is dropped and sets ILL (R35).
A register takes the low eight bits of the port, and a write to a read-only register is ignored as R36 says of the
reserved ones (the model's choices, log entry 12). -/
def Obligations.CfgWritesWhileIdle : Prop :=
  (∀ (s : State) (v : Byte) (rest : List HostAct), s.upc = [] →
    (s.host = .writeReg 0x8 (v.setWidth 16) :: rest →
      step s = .next (if v = 0 then { s with host := rest, ill := true }
        else { s with host := rest, cfgAckMax := v })) ∧
    (s.host = .writeReg 0x9 (v.setWidth 16) :: rest →
      step s = .next (if v = 0 then { s with host := rest, ill := true }
        else { s with host := rest, cfgStartMax := v })) ∧
    (s.host = .writeReg 0xA (v.setWidth 16) :: rest → step s = .next { s with host := rest, cfgPwrClks := v })) ∧
  ∀ (s : State) (r : BitVec 4) (v : CmdWord) (rest : List HostAct),
    r ≠ 0x0 → r ≠ 0x8 → r ≠ 0x9 → r ≠ 0xA → s.host = .writeReg r v :: rest →
    step s = .next { s with host := rest }

/-- A host read returns the register's value, or the byte of BUF, idle or busy, and changes nothing but the list
of replies (R23, R24, R30, R33, R36, R37). That a reserved register ignores writes and reads 0 is R36's; the list
of replies is the model's (log entry 9). That a return register has a value, and does not fault, before any
operation has written it is the model's choice (log entry 2), as it is that an unwritten byte of BUF reads as a
free value (log entry 5). -/
def Obligations.HostReadsReturnTheRegisters : Prop :=
  (∀ (s : State) (i : Byte) (rest : List HostAct), s.host = .readBuf i :: rest →
    step s = .next { s with host := rest, replies := (s.bufRead i).setWidth 16 :: s.replies }) ∧
  ∀ (s : State) (r : BitVec 4) (rest : List HostAct), s.host = .readReg r :: rest →
    ∃ v : CmdWord, step s = .next { s with host := rest, replies := v :: s.replies } ∧
      (r = 0x0 → v = 0) ∧
      (r = 0x1 → v.getLsbD 0 = s.busy ∧ v.getLsbD 1 = s.ill ∧ v.getLsbD 2 = s.ovr ∧ v >>> 3 = 0) ∧
      (r = 0x2 → v = (match s.result with
        | .success => 0 | .startFailure => 1 | .cmdByteFailure => 2 | .dataWriteFailure => 3)) ∧
      (r = 0x3 → v = s.ackcnt.setWidth 16) ∧ (r = 0x4 → v = s.rxdata.setWidth 16) ∧
      (r = 0x5 → v = s.bitv.setWidth 16) ∧
      (r = 0x6 → v.getLsbD 0 = (s.dirClock == .output) ∧ v.getLsbD 1 = (s.dirData == .output) ∧ v >>> 2 = 0) ∧
      (r = 0x7 → v = 0) ∧ (r = 0x8 → v = s.cfgAckMax.setWidth 16) ∧ (r = 0x9 → v = s.cfgStartMax.setWidth 16) ∧
      (r = 0xA → v = s.cfgPwrClks.setWidth 16) ∧ (0xB ≤ r → v = 0)

/-- While BUSY = 0 the host writes any byte of BUF and reads it back; the write changes that byte alone (R39, R75). -/
def Obligations.HostOwnsTheIdleBuffer : Prop :=
  ∀ (s : State) (i v : Byte) (rest : List HostAct), s.host = .writeBuf i v :: .readBuf i :: rest → s.upc = [] →
    ∃ t, step s = .next t ∧ (∀ j, t.bufRead j = if j = i then v else s.bufRead j) ∧
      t = { s with host := .readBuf i :: rest, buf := t.buf } ∧
      step t = .next { t with host := rest, replies := v.setWidth 16 :: t.replies }

/-- A step always answers a next state: TWBB raises no exception and takes no trap, and no host action is without
an effect of its own (R220). That the model goes on where the spec lets it refuse or fault is its own choice: at
an illegal word and a write while busy (log entry 14), at a read before the first write (log entry 2), at an
unwritten byte of BUF (log entry 5). -/
def Obligations.EveryStepAnswersANextState : Prop := ∀ s : State, ∃ t, step s = .next t

/-- STATUS.ILL and STATUS.OVR are sticky: no step but a reset clears them (R33, R228). -/
def Obligations.IllAndOvrAreSticky : Prop :=
  ∀ s t : State, step s = .next t → s.host.head? ≠ some .reset →
    (s.ill = true → t.ill = true) ∧ (s.ovr = true → t.ovr = true)

/-- No step changes the launch parameter EXPOSE_INTERNAL, and none but a host write to a CFG register or a reset changes
the bounds (R35, R97). -/
def Obligations.OnlyTheHostChangesTheBounds : Prop :=
  ∀ s t : State, step s = .next t →
    t.exposeInternal = s.exposeInternal ∧
    ((∀ v, s.host.head? ≠ some (.writeReg 0x8 v) ∧ s.host.head? ≠ some (.writeReg 0x9 v) ∧
        s.host.head? ≠ some (.writeReg 0xA v)) → s.host.head? ≠ some .reset →
      t.cfgAckMax = s.cfgAckMax ∧ t.cfgStartMax = s.cfgStartMax ∧ t.cfgPwrClks = s.cfgPwrClks)

/-! ## Reset and the invariant -/

/-- Reset leaves both lines floated, the latches 0, STATUS 0, upc IDLE and the CFG registers at the parameters (R46).
The registers R46 leaves unspecified are not spoken of. -/
def Obligations.ResetLeavesTheSpecifiedState : Prop :=
  State.reset.dirClock = .input ∧ State.reset.dirData = .input ∧ State.reset.outl .clock = 0 ∧
  State.reset.outl .data = 0 ∧ State.reset.ill = false ∧ State.reset.ovr = false ∧ State.reset.busy = false ∧
  State.reset.upc = [] ∧ State.reset.cfgAckMax = Config.ackPollMax ∧
  State.reset.cfgStartMax = Config.startTriesMax ∧ State.reset.cfgPwrClks = Config.powerOnClocks ∧
  readReg 0x1 State.reset = 0 ∧ readReg 0x6 State.reset = 0 ∧ readReg 0x7 State.reset = 0

/-- A reset at any moment, in the middle of an operation too, floats both lines at once with no STOP, abandons the
operation (no later engine step does anything) and gives every field that R46 specifies its value (R250). It is no
micro-action, so it adds no token to the full trace and makes no clock edge (R10, R11). Its own mark among the events
is the model's (log entry 8). -/
def Obligations.ResetAbandonsTheOperation : Prop :=
  ∀ (s : State) (rest : List HostAct), s.host = .reset :: rest →
    ∃ t, step s = .next t ∧ t.dirClock = .input ∧ t.dirData = .input ∧ t.ill = false ∧ t.ovr = false ∧
      t.upc = [] ∧ t.busy = false ∧ t.cfgAckMax = Config.ackPollMax ∧ t.cfgStartMax = Config.startTriesMax ∧
      t.cfgPwrClks = Config.powerOnClocks ∧ t.exposeInternal = s.exposeInternal ∧ t.host = rest ∧
      t.trace = ⟨.reset, s.levels, ⟨s.floatLevel .clock, s.floatLevel .data⟩⟩ :: s.trace ∧ t.tokens = s.tokens ∧
      riseCount (newEvents s t) = 0 ∧ fallCount (newEvents s t) = 0 ∧ ∀ n, engineRun n t = t

/-- The invariant holds right after reset. -/
def Obligations.ResetSatisfiesTheInvariant : Prop := Inv State.reset

/-- Every step keeps the invariant: the buffer stays in its canonical form inside BUF, the bounds stay in 1..255 (R6,
R35), and the sequencer stands before a micro-action or is IDLE (R34). -/
def Obligations.EveryStepKeepsTheInvariant : Prop := ∀ s t : State, Inv s → step s = .next t → Inv t

/-- The lines are open-drain: a pin is high-impedance or pulled to 0, never driven to 1, in every state (R22), and
the level of a line is 0 when TWBB drives it or something outside pulls it low, and 1 otherwise (R41). The
environment may move at any moment (R40): that changes no state of TWBB, only the levels, and where data changes
while the clock is high before and after it is a signature; a clock level it changes is no clock edge, for it is no
micro-action (R11). That such a move is an action of the model's list is log entry 7. -/
def Obligations.LinesAreOpenDrain : Prop :=
  (∀ (s : State) (l : Line),
    (s.dir l = .input → s.pin l = none) ∧ (s.dir l = .output → s.pin l = some 0) ∧ s.pin l ≠ some 1 ∧ s.outl l = 0 ∧
    (s.level l = 0 ↔ s.dir l = .output ∨ s.envLow l = true) ∧
    (s.level l = 1 ↔ s.dir l = .input ∧ s.envLow l = false)) ∧
  ∀ (s : State) (p : EnvPhase) (rest : List HostAct), s.host = .environment p :: rest →
    ∃ t, step s = .next t ∧ (∀ l, t.envLow l = p.low l) ∧
      t = { s with host := rest, env := p :: s.env.tail, now := t.now, trace := t.trace } ∧
      startCount s t = (if s.levels.startTo t.levels then 1 else 0) ∧
      stopCount s t = (if s.levels.stopTo t.levels then 1 else 0) ∧ t.tokens = s.tokens ∧
      (newEvents s t).length = 1 ∧ riseCount (newEvents s t) = 0 ∧ fallCount (newEvents s t) = 0

/-! ## The sequencer -/

/-- Each engine step of a busy engine performs exactly one micro-action, the next one, and stands before the one after
it, or is IDLE; an idle engine does nothing (R34, R235). A step of the machine is such a step when the host has no
action, lets the engine go on, or waits for BUSY = 0 (log entry 9). -/
def Obligations.EngineStepIsOneMicroAction : Prop :=
  (∀ (s : State) (a : Act) (rest : List Stmt), s.upc = .act a :: rest →
    (engineStep s).now = s.now + 1 ∧ (engineStep s).trace = (perform a s).trace ∧
      (engineStep s).dirClock = (perform a s).dirClock ∧ (engineStep s).dirData = (perform a s).dirData ∧
      settledUpc (engineStep s).upc = true) ∧
  (∀ s : State, s.upc = [] → engineStep s = s) ∧
  (∀ s : State, s.host = [] → step s = .next (engineStep s)) ∧
  ∀ (s : State) (rest : List HostAct),
    (s.host = .tick :: rest → step s = .next (engineStep { s with host := rest })) ∧
    (s.host = .waitIdle :: rest →
      step s = .next (if s.upc = [] then { s with host := rest } else engineStep s))

/-- The sequencer refines the operation: from an idle engine, as many engine steps as the operation has micro-actions
take an accepted operation exactly to the state `exec` answers, with BUSY fallen; before that BUSY is 1 (R34, R96,
R264). Running an operation as one step is the model's, as R34 allows (log entry 9). -/
def Obligations.EngineRunsToWhatExecAnswers : Prop :=
  ∀ (i : Instr) (s : State), s.upc = [] →
    ∃ t, exec i s = .next t ∧ s.now ≤ t.now ∧ engineRun (t.now - s.now) (accept i s) = t ∧ t.upc = [] ∧
      ∀ k, k < t.now - s.now → (engineRun k (accept i s)).busy = true

/-! ## GPIO operations -/

/-- FLOAT (R120). A second one in a row leaves the pins as the first did and still appears in the trace (R123). -/
def Obligations.FloatReleasesTheLine : Prop :=
  ∀ (l : Line) (s : State),
    encode (.float l) = 0x0100 + (if l = .data then 1 else 0) ∧
    ∃ t u, exec (.float l) s = .next t ∧ t.dir l = .input ∧ (∀ k, k ≠ l → t.dir k = s.dir k) ∧
      t.level l = (if t.envLow l then 0 else 1) ∧ t.tokens = s.tokens ++ [Token.float l] ∧ linesOnly s t ∧
      (∀ j, t.bufRead j = s.bufRead j) ∧ exec (.float l) t = .next u ∧
      u = { t with now := u.now, trace := u.trace } ∧ u.tokens = t.tokens ++ [Token.float l]

/-- DRIVELOW (R121). A second one in a row leaves the pins as the first did and still appears in the trace (R123). -/
def Obligations.DriveLowPullsTheLine : Prop :=
  ∀ (l : Line) (s : State),
    encode (.driveLow l) = 0x0200 + (if l = .data then 1 else 0) ∧
    ∃ t u, exec (.driveLow l) s = .next t ∧ t.dir l = .output ∧ (∀ k, k ≠ l → t.dir k = s.dir k) ∧
      t.level l = 0 ∧ t.outl l = 0 ∧ t.tokens = s.tokens ++ [Token.driveLow l] ∧ linesOnly s t ∧
      (∀ j, t.bufRead j = s.bufRead j) ∧ exec (.driveLow l) t = .next u ∧
      u = { t with now := u.now, trace := u.trace } ∧ u.tokens = t.tokens ++ [Token.driveLow l]

/-- SAMPLE (R122, R42): the level of a floated line, any value for a driven one (a free value, log entry 7); no pin
changes. The script of the environment is the model's (log entry 7). -/
def Obligations.SampleReadsTheLine : Prop :=
  ∀ (l : Line) (s : State),
    encode (.sample l) = 0x0300 + (if l = .data then 1 else 0) ∧
    ∃ t, exec (.sample l) s = .next t ∧
      (s.dir l = .input → t.bitv = s.level l ∧ t.bitv = (if s.envLow l then 0 else 1)) ∧
      (s.dir l = .output → t.bitv = s.draw l) ∧ t.dirClock = s.dirClock ∧ t.dirData = s.dirData ∧
      t.tokens = s.tokens ++ [Token.sample l t.bitv] ∧ bitsOnly s t ∧ ∀ j, t.bufRead j = s.bufRead j

/-! ## Timed bit primitives -/

/-- CLOCKHIGH (R130). -/
def Obligations.ClockHighFloatsTheClock : Prop :=
  encode .clockHigh = 0x1000 ∧
  ∀ s : State, ∃ t, exec .clockHigh s = .next t ∧ t.dirClock = .input ∧ t.dirData = s.dirData ∧
    t.level .clock = (if t.envLow .clock then 0 else 1) ∧
    t.tokens = s.tokens ++ traceClockHigh ∧ linesOnly s t ∧
    ∀ j, t.bufRead j = s.bufRead j

/-- CLOCKLOW (R131). -/
def Obligations.ClockLowDrivesTheClock : Prop :=
  encode .clockLow = 0x1100 ∧
  ∀ s : State, ∃ t, exec .clockLow s = .next t ∧ t.dirClock = .output ∧ t.dirData = s.dirData ∧
    t.level .clock = 0 ∧ t.tokens = s.tokens ++ traceClockLow ∧ linesOnly s t ∧
    ∀ j, t.bufRead j = s.bufRead j

/-- CLOCKCYCLE (R132): CLOCKLOW, then CLOCKHIGH. On a clock nobody else pulls low it has one rising edge, and one
falling edge before it if the clock was high. The script of the environment is the model's (log entry 7). -/
def Obligations.ClockCycleIsLowThenHigh : Prop :=
  encode .clockCycle = 0x1200 ∧
  ∀ s : State, ∃ t u, exec .clockLow s = .next u ∧ exec .clockHigh u = .next t ∧ exec .clockCycle s = .next t ∧
    t.dirClock = .input ∧ t.dirData = s.dirData ∧
    t.tokens = s.tokens ++ traceClockCycle ∧ linesOnly s t ∧ (∀ j, t.bufRead j = s.bufRead j) ∧
    ∀ p ps, s.env = p :: ps → p.clockLow = false →
      riseCount (newEvents s t) = 1 ∧ fallCount (newEvents s t) = if s.dirClock = .input then 1 else 0

/-- CLOCKCYCLES `n` (R133): `clockCycle` n times, 2n pin actions, 6n micro-actions; for n = 0 nothing at all. -/
def Obligations.ClockCyclesRepeatsTheCycle : Prop :=
  ∀ (n : Byte) (s : State),
    encode (.clockCycles n) = 0x1300 + n.setWidth 16 ∧
    ∃ t, exec (.clockCycles n) s = .next t ∧
      t.tokens = s.tokens ++ traceCycles n.toNat ∧
      t.now = s.now + 6 * n.toNat ∧ t.pinTrace.length = s.pinTrace.length + 2 * n.toNat ∧ t.cyc = 0 ∧
      t.dirClock = (if n = 0 then s.dirClock else .input) ∧ t.dirData = s.dirData ∧ cyclesOnly s t ∧
      ∀ j, t.bufRead j = s.bufRead j

/-- DATAHIGH (R134). -/
def Obligations.DataHighFloatsTheData : Prop :=
  encode .dataHigh = 0x1400 ∧
  ∀ s : State, ∃ t, exec .dataHigh s = .next t ∧ t.dirData = .input ∧ t.dirClock = s.dirClock ∧
    t.level .data = (if t.envLow .data then 0 else 1) ∧
    t.tokens = s.tokens ++ traceDataHigh ∧ linesOnly s t ∧ ∀ j, t.bufRead j = s.bufRead j

/-- DATALOW (R135). -/
def Obligations.DataLowDrivesTheData : Prop :=
  encode .dataLow = 0x1500 ∧
  ∀ s : State, ∃ t, exec .dataLow s = .next t ∧ t.dirData = .output ∧ t.dirClock = s.dirClock ∧
    t.level .data = 0 ∧ t.tokens = s.tokens ++ traceDataLow ∧ linesOnly s t ∧
    ∀ j, t.bufRead j = s.bufRead j

/-- READDATABIT (R136): its sample is always of a floated line, so it is the level the environment gives at that
instant, two micro-actions after the start. -/
def Obligations.ReadDataBitSamplesTheFloatedData : Prop :=
  encode .readDataBit = 0x1600 ∧
  ∀ s : State, ∃ t, exec .readDataBit s = .next t ∧ t.dirData = .input ∧ t.dirClock = s.dirClock ∧
    t.bitv = (if { s with now := s.now + 2 }.envLow .data then 0 else 1) ∧
    t.tokens = s.tokens ++ traceReadBit t.bitv ∧ bitsOnly s t ∧
    ∀ j, t.bufRead j = s.bufRead j

/-! ## Byte serializer and acknowledgment detector -/

/-- WRITEBYTE (R150, R152, R153): eight data bits, bit 7 first, the acknowledge window, and polls that stop at the
first 0 or after ACK_POLL_MAX attempts; 0 is returned exactly when an attempt read 0, otherwise ACK_POLL_MAX; both
lines are left floating, SR is 0 and BITCNT 8. With CFG_ACKMAX 0, which nothing reaches, no poll is made (log
entry 15). -/
def Obligations.WriteByteSendsAndPolls : Prop :=
  ∀ (value : Byte) (s : State),
    encode (.writeByte value) = 0x2000 + value.setWidth 16 ∧
    ∃ t polls, exec (.writeByte value) s = .next t ∧ t.tokens = s.tokens ++ traceWriteByte value polls ∧
      ((AckedPolls s.cfgAckMax polls ∧ t.ackcnt = 0 ∧ t.pollcnt.toNat + 1 = polls.length) ∨
        (FailedPolls s.cfgAckMax polls ∧ t.ackcnt = s.cfgAckMax ∧ t.pollcnt = s.cfgAckMax)) ∧
      (s.cfgAckMax ≠ 0 → 1 ≤ polls.length ∧ (t.ackcnt = 0 ↔ 0 ∈ polls) ∧ polls.getLast? = some t.bitv) ∧
      t.dirClock = .input ∧ t.dirData = .input ∧ t.sr = 0 ∧ t.bitcnt = 8 ∧ writeOnly s t ∧
      ∀ j, t.bufRead j = s.bufRead j

/-- A scripted device that answers 1 to `k` polls and 0 to the next is acknowledged if `k` is below ACK_POLL_MAX, and
an acknowledgment at a late attempt is as good as one at the first (R152); a device that never answers 0 is not. The
script of the environment is the model's (log entry 7). -/
def Obligations.WriteByteSeesTheScriptedAcknowledge : Prop :=
  ∀ (value : Byte) (s : State) (k : Nat) (rest : List EnvPhase),
    (k < s.cfgAckMax.toNat → s.env = List.replicate k (answering 1) ++ answering 0 :: rest →
      ∃ t, exec (.writeByte value) s = .next t ∧ t.ackcnt = 0 ∧ t.pollcnt.toNat = k ∧ t.env = rest) ∧
    (s.env = List.replicate s.cfgAckMax.toNat (answering 1) ++ rest →
      ∃ t, exec (.writeByte value) s = .next t ∧ t.ackcnt = s.cfgAckMax ∧ t.env = rest)

/-- The shift of SR (R151): after `k` of the eight bits the bit sent next is bit `7 - k` of the byte; after all eight SR
is 0. -/
def Obligations.ShiftSendsMostSignificantFirst : Prop :=
  ∀ (value : Byte) (s : State) (k : Nat), s.sr = value →
    (k < 8 → (writeLoop k s).sendsOne = value.getLsbD (7 - k)) ∧ (writeLoop 8 s).sr = 0

/-- The size of WRITEBYTE (R154): with `p` polls, `27 + 2p` pin entries and `72 + 3p` micro-actions, and nine rising
clock edges on a clock nobody else pulls low. The script of the environment is the model's (log entry 7). -/
def Obligations.WriteByteHasNineRisingEdges : Prop :=
  ∀ (value : Byte) (s : State), s.cfgAckMax ≠ 0 → s.cfgAckMax.toNat ≤ s.env.length →
    (∀ p ∈ s.env, p.clockLow = false) →
    ∃ t p, exec (.writeByte value) s = .next t ∧ 1 ≤ p ∧ p ≤ s.cfgAckMax.toNat ∧
      t.pinTrace.length = s.pinTrace.length + 27 + 2 * p ∧ t.now = s.now + 72 + 3 * p ∧
      riseCount (newEvents s t) = 9

/-- READBYTE (R155, R156): eight samples, the first one bit 7; the clock is left driven low and the data floating,
after 41 pin entries and 98 micro-actions. -/
def Obligations.ReadByteAssemblesEightSamples : Prop :=
  encode .readByte = 0x2100 ∧
  ∀ s : State, ∃ t bits, exec .readByte s = .next t ∧ bits.length = 8 ∧
    t.tokens = s.tokens ++ traceReadByte bits ∧ t.rxdata = byteOfBits bits ∧ bits.getLast? = some t.bitv ∧
    t.dirClock = .output ∧ t.dirData = .input ∧ t.bitcnt = 8 ∧
    t.pinTrace.length = s.pinTrace.length + 41 ∧ t.now = s.now + 98 ∧ readOnly s t ∧
    ∀ j, t.bufRead j = s.bufRead j

/-- READBYTE returns the byte a device presents bit by bit (R155, R64), with eight rising edges of the clock (R156).
The script of the environment is the model's (log entry 7). -/
def Obligations.ReadByteReturnsThePresentedByte : Prop :=
  ∀ (value : Byte) (s : State) (rest : List EnvPhase),
    s.env = (bitsOfByte value).map answering ++ rest →
    ∃ t, exec .readByte s = .next t ∧ t.rxdata = value ∧ t.env = rest ∧ riseCount (newEvents s t) = 8

/-- Write and read round trip (R157, S1): the levels a WRITEBYTE of any value puts on the wire at its first eight
rising edges, on a bus nobody else pulls low, presented to any later READBYTE one per Sample, give the value back. The
script of the environment is the model's (log entry 7). -/
def Obligations.WrittenByteReadsBack : Prop :=
  ∀ (value : Byte) (s : State) (p : EnvPhase) (ps : List EnvPhase),
    s.env = p :: ps → p.clockLow = false → p.dataLow = false →
    ∃ t, exec (.writeByte value) s = .next t ∧ (wire (newEvents s t)).take 8 = bitsOfByte value ∧
      ∀ (u : State) (rest : List EnvPhase), u.env = ((wire (newEvents s t)).take 8).map answering ++ rest →
        ∃ v, exec .readByte u = .next v ∧ v.rxdata = value

/-! ## Acknowledgment driver -/

/-- SENDACK (R170): data low, one clock cycle, clock low; data is left driven low, and the rising edge carries 0. The
script of the environment is the model's (log entry 7). -/
def Obligations.SendAckDrivesTheAcknowledge : Prop :=
  encode .sendAck = 0x3000 ∧
  ∀ s : State, ∃ t, exec .sendAck s = .next t ∧ t.dirClock = .output ∧ t.dirData = .output ∧
    t.tokens = s.tokens ++ traceSendAck ∧
    t.now = s.now + 11 ∧ linesOnly s t ∧ (∀ j, t.bufRead j = s.bufRead j) ∧
    ∀ p ps, s.env = p :: ps → p.clockLow = false → wire (newEvents s t) = [0]

/-- SENDNAK (R171): data floated, one clock cycle, clock low; the rising edge carries 1 unless something else pulls
the data line low. The script of the environment is the model's (log entry 7). -/
def Obligations.SendNakReleasesTheData : Prop :=
  encode .sendNak = 0x3100 ∧
  ∀ s : State, ∃ t, exec .sendNak s = .next t ∧ t.dirClock = .output ∧ t.dirData = .input ∧
    t.tokens = s.tokens ++ traceSendNak ∧
    t.now = s.now + 11 ∧ linesOnly s t ∧ (∀ j, t.bufRead j = s.bufRead j) ∧
    ∀ p ps, s.env = p :: ps → p.clockLow = false →
      wire (newEvents s t) = [if p.dataLow then 0 else 1]

/-! ## Transaction framing -/

/-- START (R180). -/
def Obligations.StartRunsItsSequence : Prop :=
  encode .start = 0x4000 ∧
  ∀ s : State, ∃ t, exec .start s = .next t ∧ t.dirClock = .output ∧ t.dirData = .output ∧
    t.tokens = s.tokens ++ traceStart ∧
    linesOnly s t ∧ ∀ j, t.bufRead j = s.bufRead j

/-- START puts exactly one start signature on the bus, at its DL, and no stop signature, from any pin state, while
the environment pulls neither line low; on a data line held low it puts none (R181). The script of the environment
is the model's (log entry 7). -/
def Obligations.StartHasOneStartSignature : Prop :=
  ∀ (s : State) (p : EnvPhase) (ps : List EnvPhase), s.env = p :: ps → p.clockLow = false →
    ∃ t, exec .start s = .next t ∧ stopCount s t = 0 ∧
      startCount s t = (if p.dataLow then 0 else 1) ∧
      signatureTokens Event.isStart s t = (if p.dataLow then [] else [.driveLow .data])

/-- STOP (R182): the bus is idle after it. -/
def Obligations.StopRunsItsSequence : Prop :=
  encode .stop = 0x4100 ∧
  ∀ s : State, ∃ t, exec .stop s = .next t ∧ t.dirClock = .input ∧ t.dirData = .input ∧
    t.tokens = s.tokens ++ traceStop ∧
    linesOnly s t ∧ ∀ j, t.bufRead j = s.bufRead j

/-- STOP puts exactly one stop signature on the bus, at its DF, and no start signature, from any pin state, while
the environment pulls neither line low; on a data line held low it puts none, and TWBB's pins are idle all the
same (R183). The script of the environment is the model's (log entry 7). -/
def Obligations.StopHasOneStopSignature : Prop :=
  ∀ (s : State) (p : EnvPhase) (ps : List EnvPhase), s.env = p :: ps → p.clockLow = false →
    ∃ t, exec .stop s = .next t ∧ startCount s t = 0 ∧
      stopCount s t = (if p.dataLow then 0 else 1) ∧
      signatureTokens Event.isStop s t = (if p.dataLow then [] else [.float .data]) ∧
      t.dirClock = .input ∧ t.dirData = .input

/-- POWERON (R184, R185): data floated, clock low, POWER_ON_CLOCKS cycles, RESULT SUCCESS; idle afterwards, or the
clock driven low if there are no cycles; from a bus whose data line floats no signature, and every rising edge with
data high. The script of the environment is the model's (log entry 7). -/
def Obligations.PowerOnPrimesTheDevice : Prop :=
  encode .powerOn = 0x4200 ∧
  ∀ s : State, ∃ t, exec .powerOn s = .next t ∧
    t.tokens = s.tokens ++ tracePowerOn s.cfgPwrClks.toNat ∧ t.result = .success ∧ t.cyc = 0 ∧
    t.dirClock = (if s.cfgPwrClks = 0 then .output else .input) ∧ t.dirData = .input ∧
    t.pinTrace.length = s.pinTrace.length + 2 + 2 * s.cfgPwrClks.toNat ∧
    t.now = s.now + 5 + 6 * s.cfgPwrClks.toNat ∧ powerOnly s t ∧ (∀ j, t.bufRead j = s.bufRead j) ∧
    ∀ p ps, s.env = p :: ps → p.clockLow = false → p.dataLow = false → s.dirData = .input →
      startCount s t = 0 ∧ stopCount s t = 0 ∧
      wire (newEvents s t) = List.replicate s.cfgPwrClks.toNat 1

/-! ## Frame-level operations -/

/-- SENDCOMMAND of at least one byte (R191, R192, R193), the bounds in their range: `f` failed attempts, fewer than
START_TRIES_MAX, then an acknowledged one and the remaining bytes in order up to the first that is not acknowledged; or
START_TRIES_MAX failed attempts and nothing else. RESULT names which; no STOP; both lines are left floating; BUF is not
written. -/
def Obligations.SendCommandFollowsTheRetryLaw : Prop :=
  ∀ (len : Byte) (s : State), len ≠ 0 → s.cfgAckMax ≠ 0 → s.cfgStartMax ≠ 0 →
    encode (.sendCommand len) = 0x5000 + len.setWidth 16 ∧
    ∃ t, exec (.sendCommand len) s = .next t ∧ t.dirClock = .input ∧ t.dirData = .input ∧ t.len = len ∧
      commandOnly s t ∧ (∀ j, t.bufRead j = s.bufRead j) ∧
      ((t.result = .success ∧ t.ackcnt = 0 ∧ t.idx = len ∧
          ∃ f polls, f < s.cfgStartMax.toNat ∧ t.trycnt.toNat = f ∧ polls.length = len.toNat ∧
            (∀ p ∈ polls, AckedPolls s.cfgAckMax p) ∧
            t.tokens = s.tokens ++ traceFailedTries s f ++ traceStart ++ traceBytes s 0 polls) ∨
        (t.result = .startFailure ∧ t.ackcnt = s.cfgAckMax ∧ t.trycnt = s.cfgStartMax ∧
          t.tokens = s.tokens ++ traceFailedTries s s.cfgStartMax.toNat) ∨
        (t.result = .cmdByteFailure ∧ t.ackcnt = s.cfgAckMax ∧ 1 ≤ t.idx.toNat ∧ t.idx < len ∧
          ∃ f polls bad, f < s.cfgStartMax.toNat ∧ t.trycnt.toNat = f ∧ polls.length = t.idx.toNat ∧
            (∀ p ∈ polls, AckedPolls s.cfgAckMax p) ∧ FailedPolls s.cfgAckMax bad ∧
            t.tokens = s.tokens ++ traceFailedTries s f ++ traceStart ++ traceBytes s 0 (polls ++ [bad])))

/-- SENDCOMMAND 0 is illegal: nothing is sent, STATUS.ILL is set (R194). The spec lets a model refuse the word; this
one gives the hardware's effect (log entry 14). -/
def Obligations.EmptyCommandIsIllegal : Prop :=
  ∀ s : State, exec (.sendCommand 0) s = .next { s with ill := true } ∧ encode (.sendCommand 0) = 0x5000 ∧
    (Instr.sendCommand 0).wellFormed = false

/-- A device that never acknowledges (every Sample reads 1) gives START_FAILURE after exactly START_TRIES_MAX attempts
of ACK_POLL_MAX polls (R192, S8). The script of the environment is the model's (log entry 7). -/
def Obligations.AbsentDeviceFailsTheStart : Prop :=
  ∀ (len : Byte) (s : State), len ≠ 0 → s.cfgAckMax ≠ 0 → s.cfgStartMax ≠ 0 →
    s.cfgStartMax.toNat * s.cfgAckMax.toNat ≤ s.env.length → (∀ p ∈ s.env, p.dataLow = false) →
    ∃ t, exec (.sendCommand len) s = .next t ∧ t.result = .startFailure ∧
      t.tokens = s.tokens ++ traceFailedTries s s.cfgStartMax.toNat ∧
      t.env = s.env.drop (s.cfgStartMax.toNat * s.cfgAckMax.toNat)

/-- A device that acknowledges every byte at once gives SUCCESS with each byte sent once and no retry (R191, S7). The
script of the environment is the model's (log entry 7). -/
def Obligations.WillingDeviceTakesTheCommand : Prop :=
  ∀ (len : Byte) (s : State), len ≠ 0 → s.cfgAckMax ≠ 0 → len.toNat ≤ s.env.length →
    (∀ p ∈ s.env, p.dataLow = true) →
    ∃ t, exec (.sendCommand len) s = .next t ∧ t.result = .success ∧ t.trycnt = 0 ∧
      t.tokens = s.tokens ++ traceStart ++ traceBytes s 0 (List.replicate len.toNat [0])

/-- SENDDATA (R195, R196): the bytes in order up to the first that is not acknowledged, then always STOP; BUF is not
written. -/
def Obligations.SendDataAlwaysStops : Prop :=
  ∀ (len : Byte) (s : State), s.cfgAckMax ≠ 0 →
    encode (.sendData len) = 0x5100 + len.setWidth 16 ∧
    ∃ t, exec (.sendData len) s = .next t ∧ t.dirClock = .input ∧ t.dirData = .input ∧ t.len = len ∧
      dataOnly s t ∧ (∀ j, t.bufRead j = s.bufRead j) ∧
      ((t.result = .success ∧ t.idx = len ∧
          ∃ polls, polls.length = len.toNat ∧ (∀ p ∈ polls, AckedPolls s.cfgAckMax p) ∧
            t.tokens = s.tokens ++ traceBytes s 0 polls ++ traceStop) ∨
        (t.result = .dataWriteFailure ∧ t.idx < len ∧ t.ackcnt = s.cfgAckMax ∧
          ∃ polls bad, polls.length = t.idx.toNat ∧ (∀ p ∈ polls, AckedPolls s.cfgAckMax p) ∧
            FailedPolls s.cfgAckMax bad ∧
            t.tokens = s.tokens ++ traceBytes s 0 (polls ++ [bad]) ++ traceStop))

/-- RECEIVEDATA (R197, R198): `len` reads, each stored at its index and answered with ACK, the last with NAK, then STOP;
always SUCCESS; the bytes from `len` up are as before. -/
def Obligations.ReceiveDataFillsTheBuffer : Prop :=
  ∀ (len : Byte) (s : State),
    encode (.receiveData len) = 0x5200 + len.setWidth 16 ∧
    ∃ t bits, exec (.receiveData len) s = .next t ∧ t.result = .success ∧ t.dirClock = .input ∧
      t.dirData = .input ∧ t.len = len ∧ t.idx = len ∧ bits.length = len.toNat ∧
      (∀ b ∈ bits, b.length = 8) ∧ t.tokens = s.tokens ++ traceReads bits ++ traceStop ∧
      (∀ (j : Byte) (b : List Bit), bits[j.toNat]? = some b → t.bufRead j = byteOfBits b) ∧
      (∀ j : Byte, len ≤ j → t.bufRead j = s.bufRead j) ∧
      t.pinTrace.length = s.pinTrace.length + 45 * len.toNat + 4 ∧ receiveOnly s t

/-- A device that presents the bytes of a list fills BUF with them in order (R65, R197, S9). The script of the
environment is the model's (log entry 7). -/
def Obligations.ReceiveDataStoresThePresentedBytes : Prop :=
  ∀ (len : Byte) (s : State) (bytes : List Byte) (rest : List EnvPhase), bytes.length = len.toNat →
    s.env = (bytes.flatMap bitsOfByte).map answering ++ rest →
    ∃ t, exec (.receiveData len) s = .next t ∧ t.env = rest ∧
      ∀ (j v : Byte), bytes[j.toNat]? = some v → t.bufRead j = v

/-- WAITCLOCK (R200, R201): DATALOW once, then `k` times START, 15 bare cycles, STOP; for `k` = 0 the data line is left
driven low; RESULT SUCCESS; nothing is sampled and BUF is not touched. -/
def Obligations.WaitClockRunsItsIterations : Prop :=
  ∀ (k : Byte) (s : State),
    encode (.waitClock k) = 0x5300 + k.setWidth 16 ∧
    ∃ t, exec (.waitClock k) s = .next t ∧ t.tokens = s.tokens ++ traceWaitClock k.toNat ∧ t.result = .success ∧
      t.loopc = 0 ∧ t.dirClock = (if k = 0 then s.dirClock else .input) ∧
      t.dirData = (if k = 0 then .output else .input) ∧
      t.pinTrace.length = s.pinTrace.length + 1 + 39 * k.toNat ∧ waitOnly s t ∧ ∀ j, t.bufRead j = s.bufRead j

/-- The signatures and edges of WAITCLOCK on a bus nobody else pulls low (R201): `k` stop signatures, `k` start
signatures and one more if the bus was idle, 17 rising edges an iteration. The script of the environment is the
model's (log entry 7). -/
def Obligations.WaitClockSignatures : Prop :=
  ∀ (k : Byte) (s : State) (p : EnvPhase) (ps : List EnvPhase),
    s.env = p :: ps → p.clockLow = false → p.dataLow = false →
    ∃ t, exec (.waitClock k) s = .next t ∧ stopCount s t = k.toNat ∧
      riseCount (newEvents s t) = 17 * k.toNat ∧
      (s.dirClock = .input → s.dirData = .input → startCount s t = k.toNat + 1) ∧
      (s.dirClock = .output → startCount s t = k.toNat)

/-- Every operation ends after a bounded number of pin entries (R202), with A, S, P the three bounds. -/
def Obligations.EveryOperationIsBounded : Prop :=
  ∀ (i : Instr) (s : State), s.cfgStartMax ≠ 0 →
    ∃ t, exec i s = .next t ∧ t.pinTrace.length ≤ s.pinTrace.length +
      (match i with
        | .float _ | .driveLow _ | .sample _ | .clockHigh | .clockLow | .dataHigh | .dataLow => 1
        | .clockCycle | .readDataBit => 2
        | .clockCycles n => 2 * n.toNat
        | .writeByte _ => 27 + 2 * s.cfgAckMax.toNat
        | .readByte => 41
        | .sendAck | .sendNak | .stop => 4
        | .start => 5
        | .powerOn => 2 + 2 * s.cfgPwrClks.toNat
        | .sendCommand len => s.cfgStartMax.toNat * (5 + 27 + 2 * s.cfgAckMax.toNat) +
            (len.toNat - 1) * (27 + 2 * s.cfgAckMax.toNat)
        | .sendData len => len.toNat * (27 + 2 * s.cfgAckMax.toNat) + 4
        | .receiveData len => 45 * len.toNat + 4
        | .waitClock k => 1 + 39 * k.toNat)

/-! ## Laws over all operations -/

/-- No operation touches what belongs to the host port, or runs inside another: CMD, OVR, the bounds, EXPOSE_INTERNAL,
upc, the host's list and its replies stay, and ILL changes for SENDCOMMAND 0 alone (R206, R35, R97); and only
RECEIVEDATA writes the buffer (R63). -/
def Obligations.NoOperationTouchesTheHostPort : Prop :=
  ∀ (i : Instr) (s t : State), exec i s = .next t →
    t.cmd = s.cmd ∧ t.ovr = s.ovr ∧ t.cfgAckMax = s.cfgAckMax ∧ t.cfgStartMax = s.cfgStartMax ∧
    t.cfgPwrClks = s.cfgPwrClks ∧ t.exposeInternal = s.exposeInternal ∧ t.upc = s.upc ∧ t.host = s.host ∧
    t.replies = s.replies ∧ t.epoch = s.epoch ∧ (i ≠ .sendCommand 0 → t.ill = s.ill) ∧
    ((∀ len, i ≠ .receiveData len) → t.buf = s.buf ∧ ∀ j, t.bufRead j = s.bufRead j)

/-- The 16 internal operations never write RESULT (R30, R97), and each public one writes only kinds of its own
(R221). -/
def Obligations.ResultKindsByOperation : Prop :=
  ∀ (i : Instr) (s t : State), exec i s = .next t → i.wellFormed = true →
    (isPublic i = false → t.result = s.result) ∧
    (i = .powerOn → t.result = .success) ∧
    (∀ len, i = .sendCommand len → t.result ≠ .dataWriteFailure) ∧
    (∀ len, i = .sendData len → t.result = .success ∨ t.result = .dataWriteFailure) ∧
    (∀ len, i = .receiveData len → t.result = .success) ∧ (∀ k, i = .waitClock k → t.result = .success)

/-- No operation but SAMPLE clock samples the clock line, so a device that holds the clock low is not noticed (R125). -/
def Obligations.NoCompositeOperationSamplesTheClock : Prop :=
  ∀ (i : Instr) (s t : State) (v : Bit), exec i s = .next t → i ≠ .sample .clock →
    s.tokens <+: t.tokens ∧ Token.sample .clock v ∉ newTokens s t

/-- No operation but SAMPLE depends on what a Sample of a driven line would return (R124): changing the scripted draws
changes nothing but those draws in what is left of the script. The script of the environment is the model's (log entry
7). -/
def Obligations.DrivenDrawsReachNoCompositeOperation : Prop :=
  ∀ (i : Instr) (s t : State) (draws : EnvPhase → Bit), exec i s = .next t → (∀ l, i ≠ .sample l) →
    exec i { s with env := s.env.map (fun p => { p with draw := draws p }) } =
      .next { t with env := t.env.map (fun p => { p with draw := draws p }) }
end

