-- ==== Sys2Proof/Laws/Encoding.lean ====
section
/-! SUPPORT. The two fields of a command word, and packing them again. -/

namespace Sys2Proof

@[simp] theorem opField_packWord (op imm : Byte) : opField (packWord op imm) = op := by
  apply BitVec.eq_of_getLsbD_eq
  intro i hi
  have h : 8 + i < 16 := by omega
  simp [opField, packWord, hi, h]

@[simp] theorem immField_packWord (op imm : Byte) : immField (packWord op imm) = imm := by
  apply BitVec.eq_of_getLsbD_eq
  intro i hi
  simp [immField, packWord, hi]
  intros
  omega

@[simp] theorem packWord_fields (cw : CmdWord) : packWord (opField cw) (immField cw) = cw := by
  apply BitVec.eq_of_getLsbD_eq
  intro i hi
  by_cases h : i < 8
  · simp [packWord, opField, immField, h, hi]
  · have h1 : i - 8 < 8 := by omega
    have h2 : 8 + (i - 8) = i := by omega
    simp [packWord, opField, immField, h, hi, h1, h2]

/-- A format `L` operand with its upper bits zero is the one its line is written as (R91, R94). -/
theorem immOfLine_lineOfImm (imm : Byte) (h : imm.extractLsb' 1 7 = 0) : immOfLine (lineOfImm imm) = imm := by
  revert imm
  decide

end Sys2Proof
end

