-- ==== Sys2Proof/Laws/State.lean ====
section
/-! SUPPORT. One lemma per field per register write of Machine/Ops.lean, each true by rfl, so that no later proof unfolds
a record update. -/

namespace Sys2Proof.Machine

variable (s : State)

@[simp] theorem State.setSr_dirClock (v : Byte) : (s.setSr v).dirClock = s.dirClock := rfl
@[simp] theorem State.setSr_dirData (v : Byte) : (s.setSr v).dirData = s.dirData := rfl
@[simp] theorem State.setSr_sr (v : Byte) : (s.setSr v).sr = v := rfl
@[simp] theorem State.setSr_bitcnt (v : Byte) : (s.setSr v).bitcnt = s.bitcnt := rfl
@[simp] theorem State.setSr_pollcnt (v : Byte) : (s.setSr v).pollcnt = s.pollcnt := rfl
@[simp] theorem State.setSr_trycnt (v : Byte) : (s.setSr v).trycnt = s.trycnt := rfl
@[simp] theorem State.setSr_idx (v : Byte) : (s.setSr v).idx = s.idx := rfl
@[simp] theorem State.setSr_len (v : Byte) : (s.setSr v).len = s.len := rfl
@[simp] theorem State.setSr_cyc (v : Byte) : (s.setSr v).cyc = s.cyc := rfl
@[simp] theorem State.setSr_loopc (v : Byte) : (s.setSr v).loopc = s.loopc := rfl
@[simp] theorem State.setSr_bitv (v : Byte) : (s.setSr v).bitv = s.bitv := rfl
@[simp] theorem State.setSr_ackcnt (v : Byte) : (s.setSr v).ackcnt = s.ackcnt := rfl
@[simp] theorem State.setSr_rxdata (v : Byte) : (s.setSr v).rxdata = s.rxdata := rfl
@[simp] theorem State.setSr_result (v : Byte) : (s.setSr v).result = s.result := rfl
@[simp] theorem State.setSr_cmd (v : Byte) : (s.setSr v).cmd = s.cmd := rfl
@[simp] theorem State.setSr_ill (v : Byte) : (s.setSr v).ill = s.ill := rfl
@[simp] theorem State.setSr_ovr (v : Byte) : (s.setSr v).ovr = s.ovr := rfl
@[simp] theorem State.setSr_cfgAckMax (v : Byte) : (s.setSr v).cfgAckMax = s.cfgAckMax := rfl
@[simp] theorem State.setSr_cfgStartMax (v : Byte) : (s.setSr v).cfgStartMax = s.cfgStartMax := rfl
@[simp] theorem State.setSr_cfgPwrClks (v : Byte) : (s.setSr v).cfgPwrClks = s.cfgPwrClks := rfl
@[simp] theorem State.setSr_exposeInternal (v : Byte) : (s.setSr v).exposeInternal = s.exposeInternal := rfl
@[simp] theorem State.setSr_upc (v : Byte) : (s.setSr v).upc = s.upc := rfl
@[simp] theorem State.setSr_buf (v : Byte) : (s.setSr v).buf = s.buf := rfl
@[simp] theorem State.setSr_env (v : Byte) : (s.setSr v).env = s.env := rfl
@[simp] theorem State.setSr_now (v : Byte) : (s.setSr v).now = s.now := rfl
@[simp] theorem State.setSr_trace (v : Byte) : (s.setSr v).trace = s.trace := rfl
@[simp] theorem State.setSr_host (v : Byte) : (s.setSr v).host = s.host := rfl
@[simp] theorem State.setSr_replies (v : Byte) : (s.setSr v).replies = s.replies := rfl
@[simp] theorem State.setSr_epoch (v : Byte) : (s.setSr v).epoch = s.epoch := rfl

@[simp] theorem State.setBitcnt_dirClock (v : BitVec 4) : (s.setBitcnt v).dirClock = s.dirClock := rfl
@[simp] theorem State.setBitcnt_dirData (v : BitVec 4) : (s.setBitcnt v).dirData = s.dirData := rfl
@[simp] theorem State.setBitcnt_sr (v : BitVec 4) : (s.setBitcnt v).sr = s.sr := rfl
@[simp] theorem State.setBitcnt_bitcnt (v : BitVec 4) : (s.setBitcnt v).bitcnt = v := rfl
@[simp] theorem State.setBitcnt_pollcnt (v : BitVec 4) : (s.setBitcnt v).pollcnt = s.pollcnt := rfl
@[simp] theorem State.setBitcnt_trycnt (v : BitVec 4) : (s.setBitcnt v).trycnt = s.trycnt := rfl
@[simp] theorem State.setBitcnt_idx (v : BitVec 4) : (s.setBitcnt v).idx = s.idx := rfl
@[simp] theorem State.setBitcnt_len (v : BitVec 4) : (s.setBitcnt v).len = s.len := rfl
@[simp] theorem State.setBitcnt_cyc (v : BitVec 4) : (s.setBitcnt v).cyc = s.cyc := rfl
@[simp] theorem State.setBitcnt_loopc (v : BitVec 4) : (s.setBitcnt v).loopc = s.loopc := rfl
@[simp] theorem State.setBitcnt_bitv (v : BitVec 4) : (s.setBitcnt v).bitv = s.bitv := rfl
@[simp] theorem State.setBitcnt_ackcnt (v : BitVec 4) : (s.setBitcnt v).ackcnt = s.ackcnt := rfl
@[simp] theorem State.setBitcnt_rxdata (v : BitVec 4) : (s.setBitcnt v).rxdata = s.rxdata := rfl
@[simp] theorem State.setBitcnt_result (v : BitVec 4) : (s.setBitcnt v).result = s.result := rfl
@[simp] theorem State.setBitcnt_cmd (v : BitVec 4) : (s.setBitcnt v).cmd = s.cmd := rfl
@[simp] theorem State.setBitcnt_ill (v : BitVec 4) : (s.setBitcnt v).ill = s.ill := rfl
@[simp] theorem State.setBitcnt_ovr (v : BitVec 4) : (s.setBitcnt v).ovr = s.ovr := rfl
@[simp] theorem State.setBitcnt_cfgAckMax (v : BitVec 4) : (s.setBitcnt v).cfgAckMax = s.cfgAckMax := rfl
@[simp] theorem State.setBitcnt_cfgStartMax (v : BitVec 4) : (s.setBitcnt v).cfgStartMax = s.cfgStartMax := rfl
@[simp] theorem State.setBitcnt_cfgPwrClks (v : BitVec 4) : (s.setBitcnt v).cfgPwrClks = s.cfgPwrClks := rfl
@[simp] theorem State.setBitcnt_exposeInternal (v : BitVec 4) : (s.setBitcnt v).exposeInternal = s.exposeInternal := rfl
@[simp] theorem State.setBitcnt_upc (v : BitVec 4) : (s.setBitcnt v).upc = s.upc := rfl
@[simp] theorem State.setBitcnt_buf (v : BitVec 4) : (s.setBitcnt v).buf = s.buf := rfl
@[simp] theorem State.setBitcnt_env (v : BitVec 4) : (s.setBitcnt v).env = s.env := rfl
@[simp] theorem State.setBitcnt_now (v : BitVec 4) : (s.setBitcnt v).now = s.now := rfl
@[simp] theorem State.setBitcnt_trace (v : BitVec 4) : (s.setBitcnt v).trace = s.trace := rfl
@[simp] theorem State.setBitcnt_host (v : BitVec 4) : (s.setBitcnt v).host = s.host := rfl
@[simp] theorem State.setBitcnt_replies (v : BitVec 4) : (s.setBitcnt v).replies = s.replies := rfl
@[simp] theorem State.setBitcnt_epoch (v : BitVec 4) : (s.setBitcnt v).epoch = s.epoch := rfl

@[simp] theorem State.setPollcnt_dirClock (v : Byte) : (s.setPollcnt v).dirClock = s.dirClock := rfl
@[simp] theorem State.setPollcnt_dirData (v : Byte) : (s.setPollcnt v).dirData = s.dirData := rfl
@[simp] theorem State.setPollcnt_sr (v : Byte) : (s.setPollcnt v).sr = s.sr := rfl
@[simp] theorem State.setPollcnt_bitcnt (v : Byte) : (s.setPollcnt v).bitcnt = s.bitcnt := rfl
@[simp] theorem State.setPollcnt_pollcnt (v : Byte) : (s.setPollcnt v).pollcnt = v := rfl
@[simp] theorem State.setPollcnt_trycnt (v : Byte) : (s.setPollcnt v).trycnt = s.trycnt := rfl
@[simp] theorem State.setPollcnt_idx (v : Byte) : (s.setPollcnt v).idx = s.idx := rfl
@[simp] theorem State.setPollcnt_len (v : Byte) : (s.setPollcnt v).len = s.len := rfl
@[simp] theorem State.setPollcnt_cyc (v : Byte) : (s.setPollcnt v).cyc = s.cyc := rfl
@[simp] theorem State.setPollcnt_loopc (v : Byte) : (s.setPollcnt v).loopc = s.loopc := rfl
@[simp] theorem State.setPollcnt_bitv (v : Byte) : (s.setPollcnt v).bitv = s.bitv := rfl
@[simp] theorem State.setPollcnt_ackcnt (v : Byte) : (s.setPollcnt v).ackcnt = s.ackcnt := rfl
@[simp] theorem State.setPollcnt_rxdata (v : Byte) : (s.setPollcnt v).rxdata = s.rxdata := rfl
@[simp] theorem State.setPollcnt_result (v : Byte) : (s.setPollcnt v).result = s.result := rfl
@[simp] theorem State.setPollcnt_cmd (v : Byte) : (s.setPollcnt v).cmd = s.cmd := rfl
@[simp] theorem State.setPollcnt_ill (v : Byte) : (s.setPollcnt v).ill = s.ill := rfl
@[simp] theorem State.setPollcnt_ovr (v : Byte) : (s.setPollcnt v).ovr = s.ovr := rfl
@[simp] theorem State.setPollcnt_cfgAckMax (v : Byte) : (s.setPollcnt v).cfgAckMax = s.cfgAckMax := rfl
@[simp] theorem State.setPollcnt_cfgStartMax (v : Byte) : (s.setPollcnt v).cfgStartMax = s.cfgStartMax := rfl
@[simp] theorem State.setPollcnt_cfgPwrClks (v : Byte) : (s.setPollcnt v).cfgPwrClks = s.cfgPwrClks := rfl
@[simp] theorem State.setPollcnt_exposeInternal (v : Byte) : (s.setPollcnt v).exposeInternal = s.exposeInternal := rfl
@[simp] theorem State.setPollcnt_upc (v : Byte) : (s.setPollcnt v).upc = s.upc := rfl
@[simp] theorem State.setPollcnt_buf (v : Byte) : (s.setPollcnt v).buf = s.buf := rfl
@[simp] theorem State.setPollcnt_env (v : Byte) : (s.setPollcnt v).env = s.env := rfl
@[simp] theorem State.setPollcnt_now (v : Byte) : (s.setPollcnt v).now = s.now := rfl
@[simp] theorem State.setPollcnt_trace (v : Byte) : (s.setPollcnt v).trace = s.trace := rfl
@[simp] theorem State.setPollcnt_host (v : Byte) : (s.setPollcnt v).host = s.host := rfl
@[simp] theorem State.setPollcnt_replies (v : Byte) : (s.setPollcnt v).replies = s.replies := rfl
@[simp] theorem State.setPollcnt_epoch (v : Byte) : (s.setPollcnt v).epoch = s.epoch := rfl

@[simp] theorem State.setTrycnt_dirClock (v : Byte) : (s.setTrycnt v).dirClock = s.dirClock := rfl
@[simp] theorem State.setTrycnt_dirData (v : Byte) : (s.setTrycnt v).dirData = s.dirData := rfl
@[simp] theorem State.setTrycnt_sr (v : Byte) : (s.setTrycnt v).sr = s.sr := rfl
@[simp] theorem State.setTrycnt_bitcnt (v : Byte) : (s.setTrycnt v).bitcnt = s.bitcnt := rfl
@[simp] theorem State.setTrycnt_pollcnt (v : Byte) : (s.setTrycnt v).pollcnt = s.pollcnt := rfl
@[simp] theorem State.setTrycnt_trycnt (v : Byte) : (s.setTrycnt v).trycnt = v := rfl
@[simp] theorem State.setTrycnt_idx (v : Byte) : (s.setTrycnt v).idx = s.idx := rfl
@[simp] theorem State.setTrycnt_len (v : Byte) : (s.setTrycnt v).len = s.len := rfl
@[simp] theorem State.setTrycnt_cyc (v : Byte) : (s.setTrycnt v).cyc = s.cyc := rfl
@[simp] theorem State.setTrycnt_loopc (v : Byte) : (s.setTrycnt v).loopc = s.loopc := rfl
@[simp] theorem State.setTrycnt_bitv (v : Byte) : (s.setTrycnt v).bitv = s.bitv := rfl
@[simp] theorem State.setTrycnt_ackcnt (v : Byte) : (s.setTrycnt v).ackcnt = s.ackcnt := rfl
@[simp] theorem State.setTrycnt_rxdata (v : Byte) : (s.setTrycnt v).rxdata = s.rxdata := rfl
@[simp] theorem State.setTrycnt_result (v : Byte) : (s.setTrycnt v).result = s.result := rfl
@[simp] theorem State.setTrycnt_cmd (v : Byte) : (s.setTrycnt v).cmd = s.cmd := rfl
@[simp] theorem State.setTrycnt_ill (v : Byte) : (s.setTrycnt v).ill = s.ill := rfl
@[simp] theorem State.setTrycnt_ovr (v : Byte) : (s.setTrycnt v).ovr = s.ovr := rfl
@[simp] theorem State.setTrycnt_cfgAckMax (v : Byte) : (s.setTrycnt v).cfgAckMax = s.cfgAckMax := rfl
@[simp] theorem State.setTrycnt_cfgStartMax (v : Byte) : (s.setTrycnt v).cfgStartMax = s.cfgStartMax := rfl
@[simp] theorem State.setTrycnt_cfgPwrClks (v : Byte) : (s.setTrycnt v).cfgPwrClks = s.cfgPwrClks := rfl
@[simp] theorem State.setTrycnt_exposeInternal (v : Byte) : (s.setTrycnt v).exposeInternal = s.exposeInternal := rfl
@[simp] theorem State.setTrycnt_upc (v : Byte) : (s.setTrycnt v).upc = s.upc := rfl
@[simp] theorem State.setTrycnt_buf (v : Byte) : (s.setTrycnt v).buf = s.buf := rfl
@[simp] theorem State.setTrycnt_env (v : Byte) : (s.setTrycnt v).env = s.env := rfl
@[simp] theorem State.setTrycnt_now (v : Byte) : (s.setTrycnt v).now = s.now := rfl
@[simp] theorem State.setTrycnt_trace (v : Byte) : (s.setTrycnt v).trace = s.trace := rfl
@[simp] theorem State.setTrycnt_host (v : Byte) : (s.setTrycnt v).host = s.host := rfl
@[simp] theorem State.setTrycnt_replies (v : Byte) : (s.setTrycnt v).replies = s.replies := rfl
@[simp] theorem State.setTrycnt_epoch (v : Byte) : (s.setTrycnt v).epoch = s.epoch := rfl

@[simp] theorem State.setIdx_dirClock (v : Byte) : (s.setIdx v).dirClock = s.dirClock := rfl
@[simp] theorem State.setIdx_dirData (v : Byte) : (s.setIdx v).dirData = s.dirData := rfl
@[simp] theorem State.setIdx_sr (v : Byte) : (s.setIdx v).sr = s.sr := rfl
@[simp] theorem State.setIdx_bitcnt (v : Byte) : (s.setIdx v).bitcnt = s.bitcnt := rfl
@[simp] theorem State.setIdx_pollcnt (v : Byte) : (s.setIdx v).pollcnt = s.pollcnt := rfl
@[simp] theorem State.setIdx_trycnt (v : Byte) : (s.setIdx v).trycnt = s.trycnt := rfl
@[simp] theorem State.setIdx_idx (v : Byte) : (s.setIdx v).idx = v := rfl
@[simp] theorem State.setIdx_len (v : Byte) : (s.setIdx v).len = s.len := rfl
@[simp] theorem State.setIdx_cyc (v : Byte) : (s.setIdx v).cyc = s.cyc := rfl
@[simp] theorem State.setIdx_loopc (v : Byte) : (s.setIdx v).loopc = s.loopc := rfl
@[simp] theorem State.setIdx_bitv (v : Byte) : (s.setIdx v).bitv = s.bitv := rfl
@[simp] theorem State.setIdx_ackcnt (v : Byte) : (s.setIdx v).ackcnt = s.ackcnt := rfl
@[simp] theorem State.setIdx_rxdata (v : Byte) : (s.setIdx v).rxdata = s.rxdata := rfl
@[simp] theorem State.setIdx_result (v : Byte) : (s.setIdx v).result = s.result := rfl
@[simp] theorem State.setIdx_cmd (v : Byte) : (s.setIdx v).cmd = s.cmd := rfl
@[simp] theorem State.setIdx_ill (v : Byte) : (s.setIdx v).ill = s.ill := rfl
@[simp] theorem State.setIdx_ovr (v : Byte) : (s.setIdx v).ovr = s.ovr := rfl
@[simp] theorem State.setIdx_cfgAckMax (v : Byte) : (s.setIdx v).cfgAckMax = s.cfgAckMax := rfl
@[simp] theorem State.setIdx_cfgStartMax (v : Byte) : (s.setIdx v).cfgStartMax = s.cfgStartMax := rfl
@[simp] theorem State.setIdx_cfgPwrClks (v : Byte) : (s.setIdx v).cfgPwrClks = s.cfgPwrClks := rfl
@[simp] theorem State.setIdx_exposeInternal (v : Byte) : (s.setIdx v).exposeInternal = s.exposeInternal := rfl
@[simp] theorem State.setIdx_upc (v : Byte) : (s.setIdx v).upc = s.upc := rfl
@[simp] theorem State.setIdx_buf (v : Byte) : (s.setIdx v).buf = s.buf := rfl
@[simp] theorem State.setIdx_env (v : Byte) : (s.setIdx v).env = s.env := rfl
@[simp] theorem State.setIdx_now (v : Byte) : (s.setIdx v).now = s.now := rfl
@[simp] theorem State.setIdx_trace (v : Byte) : (s.setIdx v).trace = s.trace := rfl
@[simp] theorem State.setIdx_host (v : Byte) : (s.setIdx v).host = s.host := rfl
@[simp] theorem State.setIdx_replies (v : Byte) : (s.setIdx v).replies = s.replies := rfl
@[simp] theorem State.setIdx_epoch (v : Byte) : (s.setIdx v).epoch = s.epoch := rfl

@[simp] theorem State.setLen_dirClock (v : Byte) : (s.setLen v).dirClock = s.dirClock := rfl
@[simp] theorem State.setLen_dirData (v : Byte) : (s.setLen v).dirData = s.dirData := rfl
@[simp] theorem State.setLen_sr (v : Byte) : (s.setLen v).sr = s.sr := rfl
@[simp] theorem State.setLen_bitcnt (v : Byte) : (s.setLen v).bitcnt = s.bitcnt := rfl
@[simp] theorem State.setLen_pollcnt (v : Byte) : (s.setLen v).pollcnt = s.pollcnt := rfl
@[simp] theorem State.setLen_trycnt (v : Byte) : (s.setLen v).trycnt = s.trycnt := rfl
@[simp] theorem State.setLen_idx (v : Byte) : (s.setLen v).idx = s.idx := rfl
@[simp] theorem State.setLen_len (v : Byte) : (s.setLen v).len = v := rfl
@[simp] theorem State.setLen_cyc (v : Byte) : (s.setLen v).cyc = s.cyc := rfl
@[simp] theorem State.setLen_loopc (v : Byte) : (s.setLen v).loopc = s.loopc := rfl
@[simp] theorem State.setLen_bitv (v : Byte) : (s.setLen v).bitv = s.bitv := rfl
@[simp] theorem State.setLen_ackcnt (v : Byte) : (s.setLen v).ackcnt = s.ackcnt := rfl
@[simp] theorem State.setLen_rxdata (v : Byte) : (s.setLen v).rxdata = s.rxdata := rfl
@[simp] theorem State.setLen_result (v : Byte) : (s.setLen v).result = s.result := rfl
@[simp] theorem State.setLen_cmd (v : Byte) : (s.setLen v).cmd = s.cmd := rfl
@[simp] theorem State.setLen_ill (v : Byte) : (s.setLen v).ill = s.ill := rfl
@[simp] theorem State.setLen_ovr (v : Byte) : (s.setLen v).ovr = s.ovr := rfl
@[simp] theorem State.setLen_cfgAckMax (v : Byte) : (s.setLen v).cfgAckMax = s.cfgAckMax := rfl
@[simp] theorem State.setLen_cfgStartMax (v : Byte) : (s.setLen v).cfgStartMax = s.cfgStartMax := rfl
@[simp] theorem State.setLen_cfgPwrClks (v : Byte) : (s.setLen v).cfgPwrClks = s.cfgPwrClks := rfl
@[simp] theorem State.setLen_exposeInternal (v : Byte) : (s.setLen v).exposeInternal = s.exposeInternal := rfl
@[simp] theorem State.setLen_upc (v : Byte) : (s.setLen v).upc = s.upc := rfl
@[simp] theorem State.setLen_buf (v : Byte) : (s.setLen v).buf = s.buf := rfl
@[simp] theorem State.setLen_env (v : Byte) : (s.setLen v).env = s.env := rfl
@[simp] theorem State.setLen_now (v : Byte) : (s.setLen v).now = s.now := rfl
@[simp] theorem State.setLen_trace (v : Byte) : (s.setLen v).trace = s.trace := rfl
@[simp] theorem State.setLen_host (v : Byte) : (s.setLen v).host = s.host := rfl
@[simp] theorem State.setLen_replies (v : Byte) : (s.setLen v).replies = s.replies := rfl
@[simp] theorem State.setLen_epoch (v : Byte) : (s.setLen v).epoch = s.epoch := rfl

@[simp] theorem State.setCyc_dirClock (v : Byte) : (s.setCyc v).dirClock = s.dirClock := rfl
@[simp] theorem State.setCyc_dirData (v : Byte) : (s.setCyc v).dirData = s.dirData := rfl
@[simp] theorem State.setCyc_sr (v : Byte) : (s.setCyc v).sr = s.sr := rfl
@[simp] theorem State.setCyc_bitcnt (v : Byte) : (s.setCyc v).bitcnt = s.bitcnt := rfl
@[simp] theorem State.setCyc_pollcnt (v : Byte) : (s.setCyc v).pollcnt = s.pollcnt := rfl
@[simp] theorem State.setCyc_trycnt (v : Byte) : (s.setCyc v).trycnt = s.trycnt := rfl
@[simp] theorem State.setCyc_idx (v : Byte) : (s.setCyc v).idx = s.idx := rfl
@[simp] theorem State.setCyc_len (v : Byte) : (s.setCyc v).len = s.len := rfl
@[simp] theorem State.setCyc_cyc (v : Byte) : (s.setCyc v).cyc = v := rfl
@[simp] theorem State.setCyc_loopc (v : Byte) : (s.setCyc v).loopc = s.loopc := rfl
@[simp] theorem State.setCyc_bitv (v : Byte) : (s.setCyc v).bitv = s.bitv := rfl
@[simp] theorem State.setCyc_ackcnt (v : Byte) : (s.setCyc v).ackcnt = s.ackcnt := rfl
@[simp] theorem State.setCyc_rxdata (v : Byte) : (s.setCyc v).rxdata = s.rxdata := rfl
@[simp] theorem State.setCyc_result (v : Byte) : (s.setCyc v).result = s.result := rfl
@[simp] theorem State.setCyc_cmd (v : Byte) : (s.setCyc v).cmd = s.cmd := rfl
@[simp] theorem State.setCyc_ill (v : Byte) : (s.setCyc v).ill = s.ill := rfl
@[simp] theorem State.setCyc_ovr (v : Byte) : (s.setCyc v).ovr = s.ovr := rfl
@[simp] theorem State.setCyc_cfgAckMax (v : Byte) : (s.setCyc v).cfgAckMax = s.cfgAckMax := rfl
@[simp] theorem State.setCyc_cfgStartMax (v : Byte) : (s.setCyc v).cfgStartMax = s.cfgStartMax := rfl
@[simp] theorem State.setCyc_cfgPwrClks (v : Byte) : (s.setCyc v).cfgPwrClks = s.cfgPwrClks := rfl
@[simp] theorem State.setCyc_exposeInternal (v : Byte) : (s.setCyc v).exposeInternal = s.exposeInternal := rfl
@[simp] theorem State.setCyc_upc (v : Byte) : (s.setCyc v).upc = s.upc := rfl
@[simp] theorem State.setCyc_buf (v : Byte) : (s.setCyc v).buf = s.buf := rfl
@[simp] theorem State.setCyc_env (v : Byte) : (s.setCyc v).env = s.env := rfl
@[simp] theorem State.setCyc_now (v : Byte) : (s.setCyc v).now = s.now := rfl
@[simp] theorem State.setCyc_trace (v : Byte) : (s.setCyc v).trace = s.trace := rfl
@[simp] theorem State.setCyc_host (v : Byte) : (s.setCyc v).host = s.host := rfl
@[simp] theorem State.setCyc_replies (v : Byte) : (s.setCyc v).replies = s.replies := rfl
@[simp] theorem State.setCyc_epoch (v : Byte) : (s.setCyc v).epoch = s.epoch := rfl

@[simp] theorem State.setLoopc_dirClock (v : Byte) : (s.setLoopc v).dirClock = s.dirClock := rfl
@[simp] theorem State.setLoopc_dirData (v : Byte) : (s.setLoopc v).dirData = s.dirData := rfl
@[simp] theorem State.setLoopc_sr (v : Byte) : (s.setLoopc v).sr = s.sr := rfl
@[simp] theorem State.setLoopc_bitcnt (v : Byte) : (s.setLoopc v).bitcnt = s.bitcnt := rfl
@[simp] theorem State.setLoopc_pollcnt (v : Byte) : (s.setLoopc v).pollcnt = s.pollcnt := rfl
@[simp] theorem State.setLoopc_trycnt (v : Byte) : (s.setLoopc v).trycnt = s.trycnt := rfl
@[simp] theorem State.setLoopc_idx (v : Byte) : (s.setLoopc v).idx = s.idx := rfl
@[simp] theorem State.setLoopc_len (v : Byte) : (s.setLoopc v).len = s.len := rfl
@[simp] theorem State.setLoopc_cyc (v : Byte) : (s.setLoopc v).cyc = s.cyc := rfl
@[simp] theorem State.setLoopc_loopc (v : Byte) : (s.setLoopc v).loopc = v := rfl
@[simp] theorem State.setLoopc_bitv (v : Byte) : (s.setLoopc v).bitv = s.bitv := rfl
@[simp] theorem State.setLoopc_ackcnt (v : Byte) : (s.setLoopc v).ackcnt = s.ackcnt := rfl
@[simp] theorem State.setLoopc_rxdata (v : Byte) : (s.setLoopc v).rxdata = s.rxdata := rfl
@[simp] theorem State.setLoopc_result (v : Byte) : (s.setLoopc v).result = s.result := rfl
@[simp] theorem State.setLoopc_cmd (v : Byte) : (s.setLoopc v).cmd = s.cmd := rfl
@[simp] theorem State.setLoopc_ill (v : Byte) : (s.setLoopc v).ill = s.ill := rfl
@[simp] theorem State.setLoopc_ovr (v : Byte) : (s.setLoopc v).ovr = s.ovr := rfl
@[simp] theorem State.setLoopc_cfgAckMax (v : Byte) : (s.setLoopc v).cfgAckMax = s.cfgAckMax := rfl
@[simp] theorem State.setLoopc_cfgStartMax (v : Byte) : (s.setLoopc v).cfgStartMax = s.cfgStartMax := rfl
@[simp] theorem State.setLoopc_cfgPwrClks (v : Byte) : (s.setLoopc v).cfgPwrClks = s.cfgPwrClks := rfl
@[simp] theorem State.setLoopc_exposeInternal (v : Byte) : (s.setLoopc v).exposeInternal = s.exposeInternal := rfl
@[simp] theorem State.setLoopc_upc (v : Byte) : (s.setLoopc v).upc = s.upc := rfl
@[simp] theorem State.setLoopc_buf (v : Byte) : (s.setLoopc v).buf = s.buf := rfl
@[simp] theorem State.setLoopc_env (v : Byte) : (s.setLoopc v).env = s.env := rfl
@[simp] theorem State.setLoopc_now (v : Byte) : (s.setLoopc v).now = s.now := rfl
@[simp] theorem State.setLoopc_trace (v : Byte) : (s.setLoopc v).trace = s.trace := rfl
@[simp] theorem State.setLoopc_host (v : Byte) : (s.setLoopc v).host = s.host := rfl
@[simp] theorem State.setLoopc_replies (v : Byte) : (s.setLoopc v).replies = s.replies := rfl
@[simp] theorem State.setLoopc_epoch (v : Byte) : (s.setLoopc v).epoch = s.epoch := rfl

@[simp] theorem State.setBitv_dirClock (v : Bit) : (s.setBitv v).dirClock = s.dirClock := rfl
@[simp] theorem State.setBitv_dirData (v : Bit) : (s.setBitv v).dirData = s.dirData := rfl
@[simp] theorem State.setBitv_sr (v : Bit) : (s.setBitv v).sr = s.sr := rfl
@[simp] theorem State.setBitv_bitcnt (v : Bit) : (s.setBitv v).bitcnt = s.bitcnt := rfl
@[simp] theorem State.setBitv_pollcnt (v : Bit) : (s.setBitv v).pollcnt = s.pollcnt := rfl
@[simp] theorem State.setBitv_trycnt (v : Bit) : (s.setBitv v).trycnt = s.trycnt := rfl
@[simp] theorem State.setBitv_idx (v : Bit) : (s.setBitv v).idx = s.idx := rfl
@[simp] theorem State.setBitv_len (v : Bit) : (s.setBitv v).len = s.len := rfl
@[simp] theorem State.setBitv_cyc (v : Bit) : (s.setBitv v).cyc = s.cyc := rfl
@[simp] theorem State.setBitv_loopc (v : Bit) : (s.setBitv v).loopc = s.loopc := rfl
@[simp] theorem State.setBitv_bitv (v : Bit) : (s.setBitv v).bitv = v := rfl
@[simp] theorem State.setBitv_ackcnt (v : Bit) : (s.setBitv v).ackcnt = s.ackcnt := rfl
@[simp] theorem State.setBitv_rxdata (v : Bit) : (s.setBitv v).rxdata = s.rxdata := rfl
@[simp] theorem State.setBitv_result (v : Bit) : (s.setBitv v).result = s.result := rfl
@[simp] theorem State.setBitv_cmd (v : Bit) : (s.setBitv v).cmd = s.cmd := rfl
@[simp] theorem State.setBitv_ill (v : Bit) : (s.setBitv v).ill = s.ill := rfl
@[simp] theorem State.setBitv_ovr (v : Bit) : (s.setBitv v).ovr = s.ovr := rfl
@[simp] theorem State.setBitv_cfgAckMax (v : Bit) : (s.setBitv v).cfgAckMax = s.cfgAckMax := rfl
@[simp] theorem State.setBitv_cfgStartMax (v : Bit) : (s.setBitv v).cfgStartMax = s.cfgStartMax := rfl
@[simp] theorem State.setBitv_cfgPwrClks (v : Bit) : (s.setBitv v).cfgPwrClks = s.cfgPwrClks := rfl
@[simp] theorem State.setBitv_exposeInternal (v : Bit) : (s.setBitv v).exposeInternal = s.exposeInternal := rfl
@[simp] theorem State.setBitv_upc (v : Bit) : (s.setBitv v).upc = s.upc := rfl
@[simp] theorem State.setBitv_buf (v : Bit) : (s.setBitv v).buf = s.buf := rfl
@[simp] theorem State.setBitv_env (v : Bit) : (s.setBitv v).env = s.env := rfl
@[simp] theorem State.setBitv_now (v : Bit) : (s.setBitv v).now = s.now := rfl
@[simp] theorem State.setBitv_trace (v : Bit) : (s.setBitv v).trace = s.trace := rfl
@[simp] theorem State.setBitv_host (v : Bit) : (s.setBitv v).host = s.host := rfl
@[simp] theorem State.setBitv_replies (v : Bit) : (s.setBitv v).replies = s.replies := rfl
@[simp] theorem State.setBitv_epoch (v : Bit) : (s.setBitv v).epoch = s.epoch := rfl

@[simp] theorem State.setAckcnt_dirClock (v : Byte) : (s.setAckcnt v).dirClock = s.dirClock := rfl
@[simp] theorem State.setAckcnt_dirData (v : Byte) : (s.setAckcnt v).dirData = s.dirData := rfl
@[simp] theorem State.setAckcnt_sr (v : Byte) : (s.setAckcnt v).sr = s.sr := rfl
@[simp] theorem State.setAckcnt_bitcnt (v : Byte) : (s.setAckcnt v).bitcnt = s.bitcnt := rfl
@[simp] theorem State.setAckcnt_pollcnt (v : Byte) : (s.setAckcnt v).pollcnt = s.pollcnt := rfl
@[simp] theorem State.setAckcnt_trycnt (v : Byte) : (s.setAckcnt v).trycnt = s.trycnt := rfl
@[simp] theorem State.setAckcnt_idx (v : Byte) : (s.setAckcnt v).idx = s.idx := rfl
@[simp] theorem State.setAckcnt_len (v : Byte) : (s.setAckcnt v).len = s.len := rfl
@[simp] theorem State.setAckcnt_cyc (v : Byte) : (s.setAckcnt v).cyc = s.cyc := rfl
@[simp] theorem State.setAckcnt_loopc (v : Byte) : (s.setAckcnt v).loopc = s.loopc := rfl
@[simp] theorem State.setAckcnt_bitv (v : Byte) : (s.setAckcnt v).bitv = s.bitv := rfl
@[simp] theorem State.setAckcnt_ackcnt (v : Byte) : (s.setAckcnt v).ackcnt = v := rfl
@[simp] theorem State.setAckcnt_rxdata (v : Byte) : (s.setAckcnt v).rxdata = s.rxdata := rfl
@[simp] theorem State.setAckcnt_result (v : Byte) : (s.setAckcnt v).result = s.result := rfl
@[simp] theorem State.setAckcnt_cmd (v : Byte) : (s.setAckcnt v).cmd = s.cmd := rfl
@[simp] theorem State.setAckcnt_ill (v : Byte) : (s.setAckcnt v).ill = s.ill := rfl
@[simp] theorem State.setAckcnt_ovr (v : Byte) : (s.setAckcnt v).ovr = s.ovr := rfl
@[simp] theorem State.setAckcnt_cfgAckMax (v : Byte) : (s.setAckcnt v).cfgAckMax = s.cfgAckMax := rfl
@[simp] theorem State.setAckcnt_cfgStartMax (v : Byte) : (s.setAckcnt v).cfgStartMax = s.cfgStartMax := rfl
@[simp] theorem State.setAckcnt_cfgPwrClks (v : Byte) : (s.setAckcnt v).cfgPwrClks = s.cfgPwrClks := rfl
@[simp] theorem State.setAckcnt_exposeInternal (v : Byte) : (s.setAckcnt v).exposeInternal = s.exposeInternal := rfl
@[simp] theorem State.setAckcnt_upc (v : Byte) : (s.setAckcnt v).upc = s.upc := rfl
@[simp] theorem State.setAckcnt_buf (v : Byte) : (s.setAckcnt v).buf = s.buf := rfl
@[simp] theorem State.setAckcnt_env (v : Byte) : (s.setAckcnt v).env = s.env := rfl
@[simp] theorem State.setAckcnt_now (v : Byte) : (s.setAckcnt v).now = s.now := rfl
@[simp] theorem State.setAckcnt_trace (v : Byte) : (s.setAckcnt v).trace = s.trace := rfl
@[simp] theorem State.setAckcnt_host (v : Byte) : (s.setAckcnt v).host = s.host := rfl
@[simp] theorem State.setAckcnt_replies (v : Byte) : (s.setAckcnt v).replies = s.replies := rfl
@[simp] theorem State.setAckcnt_epoch (v : Byte) : (s.setAckcnt v).epoch = s.epoch := rfl

@[simp] theorem State.setRxdata_dirClock (v : Byte) : (s.setRxdata v).dirClock = s.dirClock := rfl
@[simp] theorem State.setRxdata_dirData (v : Byte) : (s.setRxdata v).dirData = s.dirData := rfl
@[simp] theorem State.setRxdata_sr (v : Byte) : (s.setRxdata v).sr = s.sr := rfl
@[simp] theorem State.setRxdata_bitcnt (v : Byte) : (s.setRxdata v).bitcnt = s.bitcnt := rfl
@[simp] theorem State.setRxdata_pollcnt (v : Byte) : (s.setRxdata v).pollcnt = s.pollcnt := rfl
@[simp] theorem State.setRxdata_trycnt (v : Byte) : (s.setRxdata v).trycnt = s.trycnt := rfl
@[simp] theorem State.setRxdata_idx (v : Byte) : (s.setRxdata v).idx = s.idx := rfl
@[simp] theorem State.setRxdata_len (v : Byte) : (s.setRxdata v).len = s.len := rfl
@[simp] theorem State.setRxdata_cyc (v : Byte) : (s.setRxdata v).cyc = s.cyc := rfl
@[simp] theorem State.setRxdata_loopc (v : Byte) : (s.setRxdata v).loopc = s.loopc := rfl
@[simp] theorem State.setRxdata_bitv (v : Byte) : (s.setRxdata v).bitv = s.bitv := rfl
@[simp] theorem State.setRxdata_ackcnt (v : Byte) : (s.setRxdata v).ackcnt = s.ackcnt := rfl
@[simp] theorem State.setRxdata_rxdata (v : Byte) : (s.setRxdata v).rxdata = v := rfl
@[simp] theorem State.setRxdata_result (v : Byte) : (s.setRxdata v).result = s.result := rfl
@[simp] theorem State.setRxdata_cmd (v : Byte) : (s.setRxdata v).cmd = s.cmd := rfl
@[simp] theorem State.setRxdata_ill (v : Byte) : (s.setRxdata v).ill = s.ill := rfl
@[simp] theorem State.setRxdata_ovr (v : Byte) : (s.setRxdata v).ovr = s.ovr := rfl
@[simp] theorem State.setRxdata_cfgAckMax (v : Byte) : (s.setRxdata v).cfgAckMax = s.cfgAckMax := rfl
@[simp] theorem State.setRxdata_cfgStartMax (v : Byte) : (s.setRxdata v).cfgStartMax = s.cfgStartMax := rfl
@[simp] theorem State.setRxdata_cfgPwrClks (v : Byte) : (s.setRxdata v).cfgPwrClks = s.cfgPwrClks := rfl
@[simp] theorem State.setRxdata_exposeInternal (v : Byte) : (s.setRxdata v).exposeInternal = s.exposeInternal := rfl
@[simp] theorem State.setRxdata_upc (v : Byte) : (s.setRxdata v).upc = s.upc := rfl
@[simp] theorem State.setRxdata_buf (v : Byte) : (s.setRxdata v).buf = s.buf := rfl
@[simp] theorem State.setRxdata_env (v : Byte) : (s.setRxdata v).env = s.env := rfl
@[simp] theorem State.setRxdata_now (v : Byte) : (s.setRxdata v).now = s.now := rfl
@[simp] theorem State.setRxdata_trace (v : Byte) : (s.setRxdata v).trace = s.trace := rfl
@[simp] theorem State.setRxdata_host (v : Byte) : (s.setRxdata v).host = s.host := rfl
@[simp] theorem State.setRxdata_replies (v : Byte) : (s.setRxdata v).replies = s.replies := rfl
@[simp] theorem State.setRxdata_epoch (v : Byte) : (s.setRxdata v).epoch = s.epoch := rfl

@[simp] theorem State.setResult_dirClock (v : Result) : (s.setResult v).dirClock = s.dirClock := rfl
@[simp] theorem State.setResult_dirData (v : Result) : (s.setResult v).dirData = s.dirData := rfl
@[simp] theorem State.setResult_sr (v : Result) : (s.setResult v).sr = s.sr := rfl
@[simp] theorem State.setResult_bitcnt (v : Result) : (s.setResult v).bitcnt = s.bitcnt := rfl
@[simp] theorem State.setResult_pollcnt (v : Result) : (s.setResult v).pollcnt = s.pollcnt := rfl
@[simp] theorem State.setResult_trycnt (v : Result) : (s.setResult v).trycnt = s.trycnt := rfl
@[simp] theorem State.setResult_idx (v : Result) : (s.setResult v).idx = s.idx := rfl
@[simp] theorem State.setResult_len (v : Result) : (s.setResult v).len = s.len := rfl
@[simp] theorem State.setResult_cyc (v : Result) : (s.setResult v).cyc = s.cyc := rfl
@[simp] theorem State.setResult_loopc (v : Result) : (s.setResult v).loopc = s.loopc := rfl
@[simp] theorem State.setResult_bitv (v : Result) : (s.setResult v).bitv = s.bitv := rfl
@[simp] theorem State.setResult_ackcnt (v : Result) : (s.setResult v).ackcnt = s.ackcnt := rfl
@[simp] theorem State.setResult_rxdata (v : Result) : (s.setResult v).rxdata = s.rxdata := rfl
@[simp] theorem State.setResult_result (v : Result) : (s.setResult v).result = v := rfl
@[simp] theorem State.setResult_cmd (v : Result) : (s.setResult v).cmd = s.cmd := rfl
@[simp] theorem State.setResult_ill (v : Result) : (s.setResult v).ill = s.ill := rfl
@[simp] theorem State.setResult_ovr (v : Result) : (s.setResult v).ovr = s.ovr := rfl
@[simp] theorem State.setResult_cfgAckMax (v : Result) : (s.setResult v).cfgAckMax = s.cfgAckMax := rfl
@[simp] theorem State.setResult_cfgStartMax (v : Result) : (s.setResult v).cfgStartMax = s.cfgStartMax := rfl
@[simp] theorem State.setResult_cfgPwrClks (v : Result) : (s.setResult v).cfgPwrClks = s.cfgPwrClks := rfl
@[simp] theorem State.setResult_exposeInternal (v : Result) : (s.setResult v).exposeInternal = s.exposeInternal := rfl
@[simp] theorem State.setResult_upc (v : Result) : (s.setResult v).upc = s.upc := rfl
@[simp] theorem State.setResult_buf (v : Result) : (s.setResult v).buf = s.buf := rfl
@[simp] theorem State.setResult_env (v : Result) : (s.setResult v).env = s.env := rfl
@[simp] theorem State.setResult_now (v : Result) : (s.setResult v).now = s.now := rfl
@[simp] theorem State.setResult_trace (v : Result) : (s.setResult v).trace = s.trace := rfl
@[simp] theorem State.setResult_host (v : Result) : (s.setResult v).host = s.host := rfl
@[simp] theorem State.setResult_replies (v : Result) : (s.setResult v).replies = s.replies := rfl
@[simp] theorem State.setResult_epoch (v : Result) : (s.setResult v).epoch = s.epoch := rfl

@[simp] theorem State.setCmd_dirClock (v : CmdWord) : (s.setCmd v).dirClock = s.dirClock := rfl
@[simp] theorem State.setCmd_dirData (v : CmdWord) : (s.setCmd v).dirData = s.dirData := rfl
@[simp] theorem State.setCmd_sr (v : CmdWord) : (s.setCmd v).sr = s.sr := rfl
@[simp] theorem State.setCmd_bitcnt (v : CmdWord) : (s.setCmd v).bitcnt = s.bitcnt := rfl
@[simp] theorem State.setCmd_pollcnt (v : CmdWord) : (s.setCmd v).pollcnt = s.pollcnt := rfl
@[simp] theorem State.setCmd_trycnt (v : CmdWord) : (s.setCmd v).trycnt = s.trycnt := rfl
@[simp] theorem State.setCmd_idx (v : CmdWord) : (s.setCmd v).idx = s.idx := rfl
@[simp] theorem State.setCmd_len (v : CmdWord) : (s.setCmd v).len = s.len := rfl
@[simp] theorem State.setCmd_cyc (v : CmdWord) : (s.setCmd v).cyc = s.cyc := rfl
@[simp] theorem State.setCmd_loopc (v : CmdWord) : (s.setCmd v).loopc = s.loopc := rfl
@[simp] theorem State.setCmd_bitv (v : CmdWord) : (s.setCmd v).bitv = s.bitv := rfl
@[simp] theorem State.setCmd_ackcnt (v : CmdWord) : (s.setCmd v).ackcnt = s.ackcnt := rfl
@[simp] theorem State.setCmd_rxdata (v : CmdWord) : (s.setCmd v).rxdata = s.rxdata := rfl
@[simp] theorem State.setCmd_result (v : CmdWord) : (s.setCmd v).result = s.result := rfl
@[simp] theorem State.setCmd_cmd (v : CmdWord) : (s.setCmd v).cmd = v := rfl
@[simp] theorem State.setCmd_ill (v : CmdWord) : (s.setCmd v).ill = s.ill := rfl
@[simp] theorem State.setCmd_ovr (v : CmdWord) : (s.setCmd v).ovr = s.ovr := rfl
@[simp] theorem State.setCmd_cfgAckMax (v : CmdWord) : (s.setCmd v).cfgAckMax = s.cfgAckMax := rfl
@[simp] theorem State.setCmd_cfgStartMax (v : CmdWord) : (s.setCmd v).cfgStartMax = s.cfgStartMax := rfl
@[simp] theorem State.setCmd_cfgPwrClks (v : CmdWord) : (s.setCmd v).cfgPwrClks = s.cfgPwrClks := rfl
@[simp] theorem State.setCmd_exposeInternal (v : CmdWord) : (s.setCmd v).exposeInternal = s.exposeInternal := rfl
@[simp] theorem State.setCmd_upc (v : CmdWord) : (s.setCmd v).upc = s.upc := rfl
@[simp] theorem State.setCmd_buf (v : CmdWord) : (s.setCmd v).buf = s.buf := rfl
@[simp] theorem State.setCmd_env (v : CmdWord) : (s.setCmd v).env = s.env := rfl
@[simp] theorem State.setCmd_now (v : CmdWord) : (s.setCmd v).now = s.now := rfl
@[simp] theorem State.setCmd_trace (v : CmdWord) : (s.setCmd v).trace = s.trace := rfl
@[simp] theorem State.setCmd_host (v : CmdWord) : (s.setCmd v).host = s.host := rfl
@[simp] theorem State.setCmd_replies (v : CmdWord) : (s.setCmd v).replies = s.replies := rfl
@[simp] theorem State.setCmd_epoch (v : CmdWord) : (s.setCmd v).epoch = s.epoch := rfl

@[simp] theorem State.setCfgAckMax_dirClock (v : Byte) : (s.setCfgAckMax v).dirClock = s.dirClock := rfl
@[simp] theorem State.setCfgAckMax_dirData (v : Byte) : (s.setCfgAckMax v).dirData = s.dirData := rfl
@[simp] theorem State.setCfgAckMax_sr (v : Byte) : (s.setCfgAckMax v).sr = s.sr := rfl
@[simp] theorem State.setCfgAckMax_bitcnt (v : Byte) : (s.setCfgAckMax v).bitcnt = s.bitcnt := rfl
@[simp] theorem State.setCfgAckMax_pollcnt (v : Byte) : (s.setCfgAckMax v).pollcnt = s.pollcnt := rfl
@[simp] theorem State.setCfgAckMax_trycnt (v : Byte) : (s.setCfgAckMax v).trycnt = s.trycnt := rfl
@[simp] theorem State.setCfgAckMax_idx (v : Byte) : (s.setCfgAckMax v).idx = s.idx := rfl
@[simp] theorem State.setCfgAckMax_len (v : Byte) : (s.setCfgAckMax v).len = s.len := rfl
@[simp] theorem State.setCfgAckMax_cyc (v : Byte) : (s.setCfgAckMax v).cyc = s.cyc := rfl
@[simp] theorem State.setCfgAckMax_loopc (v : Byte) : (s.setCfgAckMax v).loopc = s.loopc := rfl
@[simp] theorem State.setCfgAckMax_bitv (v : Byte) : (s.setCfgAckMax v).bitv = s.bitv := rfl
@[simp] theorem State.setCfgAckMax_ackcnt (v : Byte) : (s.setCfgAckMax v).ackcnt = s.ackcnt := rfl
@[simp] theorem State.setCfgAckMax_rxdata (v : Byte) : (s.setCfgAckMax v).rxdata = s.rxdata := rfl
@[simp] theorem State.setCfgAckMax_result (v : Byte) : (s.setCfgAckMax v).result = s.result := rfl
@[simp] theorem State.setCfgAckMax_cmd (v : Byte) : (s.setCfgAckMax v).cmd = s.cmd := rfl
@[simp] theorem State.setCfgAckMax_ill (v : Byte) : (s.setCfgAckMax v).ill = s.ill := rfl
@[simp] theorem State.setCfgAckMax_ovr (v : Byte) : (s.setCfgAckMax v).ovr = s.ovr := rfl
@[simp] theorem State.setCfgAckMax_cfgAckMax (v : Byte) : (s.setCfgAckMax v).cfgAckMax = v := rfl
@[simp] theorem State.setCfgAckMax_cfgStartMax (v : Byte) : (s.setCfgAckMax v).cfgStartMax = s.cfgStartMax := rfl
@[simp] theorem State.setCfgAckMax_cfgPwrClks (v : Byte) : (s.setCfgAckMax v).cfgPwrClks = s.cfgPwrClks := rfl
@[simp] theorem State.setCfgAckMax_exposeInternal (v : Byte) : (s.setCfgAckMax v).exposeInternal = s.exposeInternal := rfl
@[simp] theorem State.setCfgAckMax_upc (v : Byte) : (s.setCfgAckMax v).upc = s.upc := rfl
@[simp] theorem State.setCfgAckMax_buf (v : Byte) : (s.setCfgAckMax v).buf = s.buf := rfl
@[simp] theorem State.setCfgAckMax_env (v : Byte) : (s.setCfgAckMax v).env = s.env := rfl
@[simp] theorem State.setCfgAckMax_now (v : Byte) : (s.setCfgAckMax v).now = s.now := rfl
@[simp] theorem State.setCfgAckMax_trace (v : Byte) : (s.setCfgAckMax v).trace = s.trace := rfl
@[simp] theorem State.setCfgAckMax_host (v : Byte) : (s.setCfgAckMax v).host = s.host := rfl
@[simp] theorem State.setCfgAckMax_replies (v : Byte) : (s.setCfgAckMax v).replies = s.replies := rfl
@[simp] theorem State.setCfgAckMax_epoch (v : Byte) : (s.setCfgAckMax v).epoch = s.epoch := rfl

@[simp] theorem State.setCfgStartMax_dirClock (v : Byte) : (s.setCfgStartMax v).dirClock = s.dirClock := rfl
@[simp] theorem State.setCfgStartMax_dirData (v : Byte) : (s.setCfgStartMax v).dirData = s.dirData := rfl
@[simp] theorem State.setCfgStartMax_sr (v : Byte) : (s.setCfgStartMax v).sr = s.sr := rfl
@[simp] theorem State.setCfgStartMax_bitcnt (v : Byte) : (s.setCfgStartMax v).bitcnt = s.bitcnt := rfl
@[simp] theorem State.setCfgStartMax_pollcnt (v : Byte) : (s.setCfgStartMax v).pollcnt = s.pollcnt := rfl
@[simp] theorem State.setCfgStartMax_trycnt (v : Byte) : (s.setCfgStartMax v).trycnt = s.trycnt := rfl
@[simp] theorem State.setCfgStartMax_idx (v : Byte) : (s.setCfgStartMax v).idx = s.idx := rfl
@[simp] theorem State.setCfgStartMax_len (v : Byte) : (s.setCfgStartMax v).len = s.len := rfl
@[simp] theorem State.setCfgStartMax_cyc (v : Byte) : (s.setCfgStartMax v).cyc = s.cyc := rfl
@[simp] theorem State.setCfgStartMax_loopc (v : Byte) : (s.setCfgStartMax v).loopc = s.loopc := rfl
@[simp] theorem State.setCfgStartMax_bitv (v : Byte) : (s.setCfgStartMax v).bitv = s.bitv := rfl
@[simp] theorem State.setCfgStartMax_ackcnt (v : Byte) : (s.setCfgStartMax v).ackcnt = s.ackcnt := rfl
@[simp] theorem State.setCfgStartMax_rxdata (v : Byte) : (s.setCfgStartMax v).rxdata = s.rxdata := rfl
@[simp] theorem State.setCfgStartMax_result (v : Byte) : (s.setCfgStartMax v).result = s.result := rfl
@[simp] theorem State.setCfgStartMax_cmd (v : Byte) : (s.setCfgStartMax v).cmd = s.cmd := rfl
@[simp] theorem State.setCfgStartMax_ill (v : Byte) : (s.setCfgStartMax v).ill = s.ill := rfl
@[simp] theorem State.setCfgStartMax_ovr (v : Byte) : (s.setCfgStartMax v).ovr = s.ovr := rfl
@[simp] theorem State.setCfgStartMax_cfgAckMax (v : Byte) : (s.setCfgStartMax v).cfgAckMax = s.cfgAckMax := rfl
@[simp] theorem State.setCfgStartMax_cfgStartMax (v : Byte) : (s.setCfgStartMax v).cfgStartMax = v := rfl
@[simp] theorem State.setCfgStartMax_cfgPwrClks (v : Byte) : (s.setCfgStartMax v).cfgPwrClks = s.cfgPwrClks := rfl
@[simp] theorem State.setCfgStartMax_exposeInternal (v : Byte) : (s.setCfgStartMax v).exposeInternal = s.exposeInternal := rfl
@[simp] theorem State.setCfgStartMax_upc (v : Byte) : (s.setCfgStartMax v).upc = s.upc := rfl
@[simp] theorem State.setCfgStartMax_buf (v : Byte) : (s.setCfgStartMax v).buf = s.buf := rfl
@[simp] theorem State.setCfgStartMax_env (v : Byte) : (s.setCfgStartMax v).env = s.env := rfl
@[simp] theorem State.setCfgStartMax_now (v : Byte) : (s.setCfgStartMax v).now = s.now := rfl
@[simp] theorem State.setCfgStartMax_trace (v : Byte) : (s.setCfgStartMax v).trace = s.trace := rfl
@[simp] theorem State.setCfgStartMax_host (v : Byte) : (s.setCfgStartMax v).host = s.host := rfl
@[simp] theorem State.setCfgStartMax_replies (v : Byte) : (s.setCfgStartMax v).replies = s.replies := rfl
@[simp] theorem State.setCfgStartMax_epoch (v : Byte) : (s.setCfgStartMax v).epoch = s.epoch := rfl

@[simp] theorem State.setCfgPwrClks_dirClock (v : Byte) : (s.setCfgPwrClks v).dirClock = s.dirClock := rfl
@[simp] theorem State.setCfgPwrClks_dirData (v : Byte) : (s.setCfgPwrClks v).dirData = s.dirData := rfl
@[simp] theorem State.setCfgPwrClks_sr (v : Byte) : (s.setCfgPwrClks v).sr = s.sr := rfl
@[simp] theorem State.setCfgPwrClks_bitcnt (v : Byte) : (s.setCfgPwrClks v).bitcnt = s.bitcnt := rfl
@[simp] theorem State.setCfgPwrClks_pollcnt (v : Byte) : (s.setCfgPwrClks v).pollcnt = s.pollcnt := rfl
@[simp] theorem State.setCfgPwrClks_trycnt (v : Byte) : (s.setCfgPwrClks v).trycnt = s.trycnt := rfl
@[simp] theorem State.setCfgPwrClks_idx (v : Byte) : (s.setCfgPwrClks v).idx = s.idx := rfl
@[simp] theorem State.setCfgPwrClks_len (v : Byte) : (s.setCfgPwrClks v).len = s.len := rfl
@[simp] theorem State.setCfgPwrClks_cyc (v : Byte) : (s.setCfgPwrClks v).cyc = s.cyc := rfl
@[simp] theorem State.setCfgPwrClks_loopc (v : Byte) : (s.setCfgPwrClks v).loopc = s.loopc := rfl
@[simp] theorem State.setCfgPwrClks_bitv (v : Byte) : (s.setCfgPwrClks v).bitv = s.bitv := rfl
@[simp] theorem State.setCfgPwrClks_ackcnt (v : Byte) : (s.setCfgPwrClks v).ackcnt = s.ackcnt := rfl
@[simp] theorem State.setCfgPwrClks_rxdata (v : Byte) : (s.setCfgPwrClks v).rxdata = s.rxdata := rfl
@[simp] theorem State.setCfgPwrClks_result (v : Byte) : (s.setCfgPwrClks v).result = s.result := rfl
@[simp] theorem State.setCfgPwrClks_cmd (v : Byte) : (s.setCfgPwrClks v).cmd = s.cmd := rfl
@[simp] theorem State.setCfgPwrClks_ill (v : Byte) : (s.setCfgPwrClks v).ill = s.ill := rfl
@[simp] theorem State.setCfgPwrClks_ovr (v : Byte) : (s.setCfgPwrClks v).ovr = s.ovr := rfl
@[simp] theorem State.setCfgPwrClks_cfgAckMax (v : Byte) : (s.setCfgPwrClks v).cfgAckMax = s.cfgAckMax := rfl
@[simp] theorem State.setCfgPwrClks_cfgStartMax (v : Byte) : (s.setCfgPwrClks v).cfgStartMax = s.cfgStartMax := rfl
@[simp] theorem State.setCfgPwrClks_cfgPwrClks (v : Byte) : (s.setCfgPwrClks v).cfgPwrClks = v := rfl
@[simp] theorem State.setCfgPwrClks_exposeInternal (v : Byte) : (s.setCfgPwrClks v).exposeInternal = s.exposeInternal := rfl
@[simp] theorem State.setCfgPwrClks_upc (v : Byte) : (s.setCfgPwrClks v).upc = s.upc := rfl
@[simp] theorem State.setCfgPwrClks_buf (v : Byte) : (s.setCfgPwrClks v).buf = s.buf := rfl
@[simp] theorem State.setCfgPwrClks_env (v : Byte) : (s.setCfgPwrClks v).env = s.env := rfl
@[simp] theorem State.setCfgPwrClks_now (v : Byte) : (s.setCfgPwrClks v).now = s.now := rfl
@[simp] theorem State.setCfgPwrClks_trace (v : Byte) : (s.setCfgPwrClks v).trace = s.trace := rfl
@[simp] theorem State.setCfgPwrClks_host (v : Byte) : (s.setCfgPwrClks v).host = s.host := rfl
@[simp] theorem State.setCfgPwrClks_replies (v : Byte) : (s.setCfgPwrClks v).replies = s.replies := rfl
@[simp] theorem State.setCfgPwrClks_epoch (v : Byte) : (s.setCfgPwrClks v).epoch = s.epoch := rfl

@[simp] theorem State.setExposeInternal_dirClock (v : Bool) : (s.setExposeInternal v).dirClock = s.dirClock := rfl
@[simp] theorem State.setExposeInternal_dirData (v : Bool) : (s.setExposeInternal v).dirData = s.dirData := rfl
@[simp] theorem State.setExposeInternal_sr (v : Bool) : (s.setExposeInternal v).sr = s.sr := rfl
@[simp] theorem State.setExposeInternal_bitcnt (v : Bool) : (s.setExposeInternal v).bitcnt = s.bitcnt := rfl
@[simp] theorem State.setExposeInternal_pollcnt (v : Bool) : (s.setExposeInternal v).pollcnt = s.pollcnt := rfl
@[simp] theorem State.setExposeInternal_trycnt (v : Bool) : (s.setExposeInternal v).trycnt = s.trycnt := rfl
@[simp] theorem State.setExposeInternal_idx (v : Bool) : (s.setExposeInternal v).idx = s.idx := rfl
@[simp] theorem State.setExposeInternal_len (v : Bool) : (s.setExposeInternal v).len = s.len := rfl
@[simp] theorem State.setExposeInternal_cyc (v : Bool) : (s.setExposeInternal v).cyc = s.cyc := rfl
@[simp] theorem State.setExposeInternal_loopc (v : Bool) : (s.setExposeInternal v).loopc = s.loopc := rfl
@[simp] theorem State.setExposeInternal_bitv (v : Bool) : (s.setExposeInternal v).bitv = s.bitv := rfl
@[simp] theorem State.setExposeInternal_ackcnt (v : Bool) : (s.setExposeInternal v).ackcnt = s.ackcnt := rfl
@[simp] theorem State.setExposeInternal_rxdata (v : Bool) : (s.setExposeInternal v).rxdata = s.rxdata := rfl
@[simp] theorem State.setExposeInternal_result (v : Bool) : (s.setExposeInternal v).result = s.result := rfl
@[simp] theorem State.setExposeInternal_cmd (v : Bool) : (s.setExposeInternal v).cmd = s.cmd := rfl
@[simp] theorem State.setExposeInternal_ill (v : Bool) : (s.setExposeInternal v).ill = s.ill := rfl
@[simp] theorem State.setExposeInternal_ovr (v : Bool) : (s.setExposeInternal v).ovr = s.ovr := rfl
@[simp] theorem State.setExposeInternal_cfgAckMax (v : Bool) : (s.setExposeInternal v).cfgAckMax = s.cfgAckMax := rfl
@[simp] theorem State.setExposeInternal_cfgStartMax (v : Bool) : (s.setExposeInternal v).cfgStartMax = s.cfgStartMax := rfl
@[simp] theorem State.setExposeInternal_cfgPwrClks (v : Bool) : (s.setExposeInternal v).cfgPwrClks = s.cfgPwrClks := rfl
@[simp] theorem State.setExposeInternal_exposeInternal (v : Bool) : (s.setExposeInternal v).exposeInternal = v := rfl
@[simp] theorem State.setExposeInternal_upc (v : Bool) : (s.setExposeInternal v).upc = s.upc := rfl
@[simp] theorem State.setExposeInternal_buf (v : Bool) : (s.setExposeInternal v).buf = s.buf := rfl
@[simp] theorem State.setExposeInternal_env (v : Bool) : (s.setExposeInternal v).env = s.env := rfl
@[simp] theorem State.setExposeInternal_now (v : Bool) : (s.setExposeInternal v).now = s.now := rfl
@[simp] theorem State.setExposeInternal_trace (v : Bool) : (s.setExposeInternal v).trace = s.trace := rfl
@[simp] theorem State.setExposeInternal_host (v : Bool) : (s.setExposeInternal v).host = s.host := rfl
@[simp] theorem State.setExposeInternal_replies (v : Bool) : (s.setExposeInternal v).replies = s.replies := rfl
@[simp] theorem State.setExposeInternal_epoch (v : Bool) : (s.setExposeInternal v).epoch = s.epoch := rfl

@[simp] theorem State.setUpc_dirClock (v : List Stmt) : (s.setUpc v).dirClock = s.dirClock := rfl
@[simp] theorem State.setUpc_dirData (v : List Stmt) : (s.setUpc v).dirData = s.dirData := rfl
@[simp] theorem State.setUpc_sr (v : List Stmt) : (s.setUpc v).sr = s.sr := rfl
@[simp] theorem State.setUpc_bitcnt (v : List Stmt) : (s.setUpc v).bitcnt = s.bitcnt := rfl
@[simp] theorem State.setUpc_pollcnt (v : List Stmt) : (s.setUpc v).pollcnt = s.pollcnt := rfl
@[simp] theorem State.setUpc_trycnt (v : List Stmt) : (s.setUpc v).trycnt = s.trycnt := rfl
@[simp] theorem State.setUpc_idx (v : List Stmt) : (s.setUpc v).idx = s.idx := rfl
@[simp] theorem State.setUpc_len (v : List Stmt) : (s.setUpc v).len = s.len := rfl
@[simp] theorem State.setUpc_cyc (v : List Stmt) : (s.setUpc v).cyc = s.cyc := rfl
@[simp] theorem State.setUpc_loopc (v : List Stmt) : (s.setUpc v).loopc = s.loopc := rfl
@[simp] theorem State.setUpc_bitv (v : List Stmt) : (s.setUpc v).bitv = s.bitv := rfl
@[simp] theorem State.setUpc_ackcnt (v : List Stmt) : (s.setUpc v).ackcnt = s.ackcnt := rfl
@[simp] theorem State.setUpc_rxdata (v : List Stmt) : (s.setUpc v).rxdata = s.rxdata := rfl
@[simp] theorem State.setUpc_result (v : List Stmt) : (s.setUpc v).result = s.result := rfl
@[simp] theorem State.setUpc_cmd (v : List Stmt) : (s.setUpc v).cmd = s.cmd := rfl
@[simp] theorem State.setUpc_ill (v : List Stmt) : (s.setUpc v).ill = s.ill := rfl
@[simp] theorem State.setUpc_ovr (v : List Stmt) : (s.setUpc v).ovr = s.ovr := rfl
@[simp] theorem State.setUpc_cfgAckMax (v : List Stmt) : (s.setUpc v).cfgAckMax = s.cfgAckMax := rfl
@[simp] theorem State.setUpc_cfgStartMax (v : List Stmt) : (s.setUpc v).cfgStartMax = s.cfgStartMax := rfl
@[simp] theorem State.setUpc_cfgPwrClks (v : List Stmt) : (s.setUpc v).cfgPwrClks = s.cfgPwrClks := rfl
@[simp] theorem State.setUpc_exposeInternal (v : List Stmt) : (s.setUpc v).exposeInternal = s.exposeInternal := rfl
@[simp] theorem State.setUpc_upc (v : List Stmt) : (s.setUpc v).upc = v := rfl
@[simp] theorem State.setUpc_buf (v : List Stmt) : (s.setUpc v).buf = s.buf := rfl
@[simp] theorem State.setUpc_env (v : List Stmt) : (s.setUpc v).env = s.env := rfl
@[simp] theorem State.setUpc_now (v : List Stmt) : (s.setUpc v).now = s.now := rfl
@[simp] theorem State.setUpc_trace (v : List Stmt) : (s.setUpc v).trace = s.trace := rfl
@[simp] theorem State.setUpc_host (v : List Stmt) : (s.setUpc v).host = s.host := rfl
@[simp] theorem State.setUpc_replies (v : List Stmt) : (s.setUpc v).replies = s.replies := rfl
@[simp] theorem State.setUpc_epoch (v : List Stmt) : (s.setUpc v).epoch = s.epoch := rfl

@[simp] theorem State.setBuf_dirClock (v : Memory) : (s.setBuf v).dirClock = s.dirClock := rfl
@[simp] theorem State.setBuf_dirData (v : Memory) : (s.setBuf v).dirData = s.dirData := rfl
@[simp] theorem State.setBuf_sr (v : Memory) : (s.setBuf v).sr = s.sr := rfl
@[simp] theorem State.setBuf_bitcnt (v : Memory) : (s.setBuf v).bitcnt = s.bitcnt := rfl
@[simp] theorem State.setBuf_pollcnt (v : Memory) : (s.setBuf v).pollcnt = s.pollcnt := rfl
@[simp] theorem State.setBuf_trycnt (v : Memory) : (s.setBuf v).trycnt = s.trycnt := rfl
@[simp] theorem State.setBuf_idx (v : Memory) : (s.setBuf v).idx = s.idx := rfl
@[simp] theorem State.setBuf_len (v : Memory) : (s.setBuf v).len = s.len := rfl
@[simp] theorem State.setBuf_cyc (v : Memory) : (s.setBuf v).cyc = s.cyc := rfl
@[simp] theorem State.setBuf_loopc (v : Memory) : (s.setBuf v).loopc = s.loopc := rfl
@[simp] theorem State.setBuf_bitv (v : Memory) : (s.setBuf v).bitv = s.bitv := rfl
@[simp] theorem State.setBuf_ackcnt (v : Memory) : (s.setBuf v).ackcnt = s.ackcnt := rfl
@[simp] theorem State.setBuf_rxdata (v : Memory) : (s.setBuf v).rxdata = s.rxdata := rfl
@[simp] theorem State.setBuf_result (v : Memory) : (s.setBuf v).result = s.result := rfl
@[simp] theorem State.setBuf_cmd (v : Memory) : (s.setBuf v).cmd = s.cmd := rfl
@[simp] theorem State.setBuf_ill (v : Memory) : (s.setBuf v).ill = s.ill := rfl
@[simp] theorem State.setBuf_ovr (v : Memory) : (s.setBuf v).ovr = s.ovr := rfl
@[simp] theorem State.setBuf_cfgAckMax (v : Memory) : (s.setBuf v).cfgAckMax = s.cfgAckMax := rfl
@[simp] theorem State.setBuf_cfgStartMax (v : Memory) : (s.setBuf v).cfgStartMax = s.cfgStartMax := rfl
@[simp] theorem State.setBuf_cfgPwrClks (v : Memory) : (s.setBuf v).cfgPwrClks = s.cfgPwrClks := rfl
@[simp] theorem State.setBuf_exposeInternal (v : Memory) : (s.setBuf v).exposeInternal = s.exposeInternal := rfl
@[simp] theorem State.setBuf_upc (v : Memory) : (s.setBuf v).upc = s.upc := rfl
@[simp] theorem State.setBuf_buf (v : Memory) : (s.setBuf v).buf = v := rfl
@[simp] theorem State.setBuf_env (v : Memory) : (s.setBuf v).env = s.env := rfl
@[simp] theorem State.setBuf_now (v : Memory) : (s.setBuf v).now = s.now := rfl
@[simp] theorem State.setBuf_trace (v : Memory) : (s.setBuf v).trace = s.trace := rfl
@[simp] theorem State.setBuf_host (v : Memory) : (s.setBuf v).host = s.host := rfl
@[simp] theorem State.setBuf_replies (v : Memory) : (s.setBuf v).replies = s.replies := rfl
@[simp] theorem State.setBuf_epoch (v : Memory) : (s.setBuf v).epoch = s.epoch := rfl

@[simp] theorem State.setHost_dirClock (v : List HostAct) : (s.setHost v).dirClock = s.dirClock := rfl
@[simp] theorem State.setHost_dirData (v : List HostAct) : (s.setHost v).dirData = s.dirData := rfl
@[simp] theorem State.setHost_sr (v : List HostAct) : (s.setHost v).sr = s.sr := rfl
@[simp] theorem State.setHost_bitcnt (v : List HostAct) : (s.setHost v).bitcnt = s.bitcnt := rfl
@[simp] theorem State.setHost_pollcnt (v : List HostAct) : (s.setHost v).pollcnt = s.pollcnt := rfl
@[simp] theorem State.setHost_trycnt (v : List HostAct) : (s.setHost v).trycnt = s.trycnt := rfl
@[simp] theorem State.setHost_idx (v : List HostAct) : (s.setHost v).idx = s.idx := rfl
@[simp] theorem State.setHost_len (v : List HostAct) : (s.setHost v).len = s.len := rfl
@[simp] theorem State.setHost_cyc (v : List HostAct) : (s.setHost v).cyc = s.cyc := rfl
@[simp] theorem State.setHost_loopc (v : List HostAct) : (s.setHost v).loopc = s.loopc := rfl
@[simp] theorem State.setHost_bitv (v : List HostAct) : (s.setHost v).bitv = s.bitv := rfl
@[simp] theorem State.setHost_ackcnt (v : List HostAct) : (s.setHost v).ackcnt = s.ackcnt := rfl
@[simp] theorem State.setHost_rxdata (v : List HostAct) : (s.setHost v).rxdata = s.rxdata := rfl
@[simp] theorem State.setHost_result (v : List HostAct) : (s.setHost v).result = s.result := rfl
@[simp] theorem State.setHost_cmd (v : List HostAct) : (s.setHost v).cmd = s.cmd := rfl
@[simp] theorem State.setHost_ill (v : List HostAct) : (s.setHost v).ill = s.ill := rfl
@[simp] theorem State.setHost_ovr (v : List HostAct) : (s.setHost v).ovr = s.ovr := rfl
@[simp] theorem State.setHost_cfgAckMax (v : List HostAct) : (s.setHost v).cfgAckMax = s.cfgAckMax := rfl
@[simp] theorem State.setHost_cfgStartMax (v : List HostAct) : (s.setHost v).cfgStartMax = s.cfgStartMax := rfl
@[simp] theorem State.setHost_cfgPwrClks (v : List HostAct) : (s.setHost v).cfgPwrClks = s.cfgPwrClks := rfl
@[simp] theorem State.setHost_exposeInternal (v : List HostAct) : (s.setHost v).exposeInternal = s.exposeInternal := rfl
@[simp] theorem State.setHost_upc (v : List HostAct) : (s.setHost v).upc = s.upc := rfl
@[simp] theorem State.setHost_buf (v : List HostAct) : (s.setHost v).buf = s.buf := rfl
@[simp] theorem State.setHost_env (v : List HostAct) : (s.setHost v).env = s.env := rfl
@[simp] theorem State.setHost_now (v : List HostAct) : (s.setHost v).now = s.now := rfl
@[simp] theorem State.setHost_trace (v : List HostAct) : (s.setHost v).trace = s.trace := rfl
@[simp] theorem State.setHost_host (v : List HostAct) : (s.setHost v).host = v := rfl
@[simp] theorem State.setHost_replies (v : List HostAct) : (s.setHost v).replies = s.replies := rfl
@[simp] theorem State.setHost_epoch (v : List HostAct) : (s.setHost v).epoch = s.epoch := rfl

@[simp] theorem State.markIllegal_dirClock : (s.markIllegal).dirClock = s.dirClock := rfl
@[simp] theorem State.markIllegal_dirData : (s.markIllegal).dirData = s.dirData := rfl
@[simp] theorem State.markIllegal_sr : (s.markIllegal).sr = s.sr := rfl
@[simp] theorem State.markIllegal_bitcnt : (s.markIllegal).bitcnt = s.bitcnt := rfl
@[simp] theorem State.markIllegal_pollcnt : (s.markIllegal).pollcnt = s.pollcnt := rfl
@[simp] theorem State.markIllegal_trycnt : (s.markIllegal).trycnt = s.trycnt := rfl
@[simp] theorem State.markIllegal_idx : (s.markIllegal).idx = s.idx := rfl
@[simp] theorem State.markIllegal_len : (s.markIllegal).len = s.len := rfl
@[simp] theorem State.markIllegal_cyc : (s.markIllegal).cyc = s.cyc := rfl
@[simp] theorem State.markIllegal_loopc : (s.markIllegal).loopc = s.loopc := rfl
@[simp] theorem State.markIllegal_bitv : (s.markIllegal).bitv = s.bitv := rfl
@[simp] theorem State.markIllegal_ackcnt : (s.markIllegal).ackcnt = s.ackcnt := rfl
@[simp] theorem State.markIllegal_rxdata : (s.markIllegal).rxdata = s.rxdata := rfl
@[simp] theorem State.markIllegal_result : (s.markIllegal).result = s.result := rfl
@[simp] theorem State.markIllegal_cmd : (s.markIllegal).cmd = s.cmd := rfl
@[simp] theorem State.markIllegal_ill : (s.markIllegal).ill = true := rfl
@[simp] theorem State.markIllegal_ovr : (s.markIllegal).ovr = s.ovr := rfl
@[simp] theorem State.markIllegal_cfgAckMax : (s.markIllegal).cfgAckMax = s.cfgAckMax := rfl
@[simp] theorem State.markIllegal_cfgStartMax : (s.markIllegal).cfgStartMax = s.cfgStartMax := rfl
@[simp] theorem State.markIllegal_cfgPwrClks : (s.markIllegal).cfgPwrClks = s.cfgPwrClks := rfl
@[simp] theorem State.markIllegal_exposeInternal : (s.markIllegal).exposeInternal = s.exposeInternal := rfl
@[simp] theorem State.markIllegal_upc : (s.markIllegal).upc = s.upc := rfl
@[simp] theorem State.markIllegal_buf : (s.markIllegal).buf = s.buf := rfl
@[simp] theorem State.markIllegal_env : (s.markIllegal).env = s.env := rfl
@[simp] theorem State.markIllegal_now : (s.markIllegal).now = s.now := rfl
@[simp] theorem State.markIllegal_trace : (s.markIllegal).trace = s.trace := rfl
@[simp] theorem State.markIllegal_host : (s.markIllegal).host = s.host := rfl
@[simp] theorem State.markIllegal_replies : (s.markIllegal).replies = s.replies := rfl
@[simp] theorem State.markIllegal_epoch : (s.markIllegal).epoch = s.epoch := rfl

@[simp] theorem State.markOverrun_dirClock : (s.markOverrun).dirClock = s.dirClock := rfl
@[simp] theorem State.markOverrun_dirData : (s.markOverrun).dirData = s.dirData := rfl
@[simp] theorem State.markOverrun_sr : (s.markOverrun).sr = s.sr := rfl
@[simp] theorem State.markOverrun_bitcnt : (s.markOverrun).bitcnt = s.bitcnt := rfl
@[simp] theorem State.markOverrun_pollcnt : (s.markOverrun).pollcnt = s.pollcnt := rfl
@[simp] theorem State.markOverrun_trycnt : (s.markOverrun).trycnt = s.trycnt := rfl
@[simp] theorem State.markOverrun_idx : (s.markOverrun).idx = s.idx := rfl
@[simp] theorem State.markOverrun_len : (s.markOverrun).len = s.len := rfl
@[simp] theorem State.markOverrun_cyc : (s.markOverrun).cyc = s.cyc := rfl
@[simp] theorem State.markOverrun_loopc : (s.markOverrun).loopc = s.loopc := rfl
@[simp] theorem State.markOverrun_bitv : (s.markOverrun).bitv = s.bitv := rfl
@[simp] theorem State.markOverrun_ackcnt : (s.markOverrun).ackcnt = s.ackcnt := rfl
@[simp] theorem State.markOverrun_rxdata : (s.markOverrun).rxdata = s.rxdata := rfl
@[simp] theorem State.markOverrun_result : (s.markOverrun).result = s.result := rfl
@[simp] theorem State.markOverrun_cmd : (s.markOverrun).cmd = s.cmd := rfl
@[simp] theorem State.markOverrun_ill : (s.markOverrun).ill = s.ill := rfl
@[simp] theorem State.markOverrun_ovr : (s.markOverrun).ovr = true := rfl
@[simp] theorem State.markOverrun_cfgAckMax : (s.markOverrun).cfgAckMax = s.cfgAckMax := rfl
@[simp] theorem State.markOverrun_cfgStartMax : (s.markOverrun).cfgStartMax = s.cfgStartMax := rfl
@[simp] theorem State.markOverrun_cfgPwrClks : (s.markOverrun).cfgPwrClks = s.cfgPwrClks := rfl
@[simp] theorem State.markOverrun_exposeInternal : (s.markOverrun).exposeInternal = s.exposeInternal := rfl
@[simp] theorem State.markOverrun_upc : (s.markOverrun).upc = s.upc := rfl
@[simp] theorem State.markOverrun_buf : (s.markOverrun).buf = s.buf := rfl
@[simp] theorem State.markOverrun_env : (s.markOverrun).env = s.env := rfl
@[simp] theorem State.markOverrun_now : (s.markOverrun).now = s.now := rfl
@[simp] theorem State.markOverrun_trace : (s.markOverrun).trace = s.trace := rfl
@[simp] theorem State.markOverrun_host : (s.markOverrun).host = s.host := rfl
@[simp] theorem State.markOverrun_replies : (s.markOverrun).replies = s.replies := rfl
@[simp] theorem State.markOverrun_epoch : (s.markOverrun).epoch = s.epoch := rfl

@[simp] theorem State.reply_dirClock (v : CmdWord) : (s.reply v).dirClock = s.dirClock := rfl
@[simp] theorem State.reply_dirData (v : CmdWord) : (s.reply v).dirData = s.dirData := rfl
@[simp] theorem State.reply_sr (v : CmdWord) : (s.reply v).sr = s.sr := rfl
@[simp] theorem State.reply_bitcnt (v : CmdWord) : (s.reply v).bitcnt = s.bitcnt := rfl
@[simp] theorem State.reply_pollcnt (v : CmdWord) : (s.reply v).pollcnt = s.pollcnt := rfl
@[simp] theorem State.reply_trycnt (v : CmdWord) : (s.reply v).trycnt = s.trycnt := rfl
@[simp] theorem State.reply_idx (v : CmdWord) : (s.reply v).idx = s.idx := rfl
@[simp] theorem State.reply_len (v : CmdWord) : (s.reply v).len = s.len := rfl
@[simp] theorem State.reply_cyc (v : CmdWord) : (s.reply v).cyc = s.cyc := rfl
@[simp] theorem State.reply_loopc (v : CmdWord) : (s.reply v).loopc = s.loopc := rfl
@[simp] theorem State.reply_bitv (v : CmdWord) : (s.reply v).bitv = s.bitv := rfl
@[simp] theorem State.reply_ackcnt (v : CmdWord) : (s.reply v).ackcnt = s.ackcnt := rfl
@[simp] theorem State.reply_rxdata (v : CmdWord) : (s.reply v).rxdata = s.rxdata := rfl
@[simp] theorem State.reply_result (v : CmdWord) : (s.reply v).result = s.result := rfl
@[simp] theorem State.reply_cmd (v : CmdWord) : (s.reply v).cmd = s.cmd := rfl
@[simp] theorem State.reply_ill (v : CmdWord) : (s.reply v).ill = s.ill := rfl
@[simp] theorem State.reply_ovr (v : CmdWord) : (s.reply v).ovr = s.ovr := rfl
@[simp] theorem State.reply_cfgAckMax (v : CmdWord) : (s.reply v).cfgAckMax = s.cfgAckMax := rfl
@[simp] theorem State.reply_cfgStartMax (v : CmdWord) : (s.reply v).cfgStartMax = s.cfgStartMax := rfl
@[simp] theorem State.reply_cfgPwrClks (v : CmdWord) : (s.reply v).cfgPwrClks = s.cfgPwrClks := rfl
@[simp] theorem State.reply_exposeInternal (v : CmdWord) : (s.reply v).exposeInternal = s.exposeInternal := rfl
@[simp] theorem State.reply_upc (v : CmdWord) : (s.reply v).upc = s.upc := rfl
@[simp] theorem State.reply_buf (v : CmdWord) : (s.reply v).buf = s.buf := rfl
@[simp] theorem State.reply_env (v : CmdWord) : (s.reply v).env = s.env := rfl
@[simp] theorem State.reply_now (v : CmdWord) : (s.reply v).now = s.now := rfl
@[simp] theorem State.reply_trace (v : CmdWord) : (s.reply v).trace = s.trace := rfl
@[simp] theorem State.reply_host (v : CmdWord) : (s.reply v).host = s.host := rfl
@[simp] theorem State.reply_replies (v : CmdWord) : (s.reply v).replies = v :: s.replies := rfl
@[simp] theorem State.reply_epoch (v : CmdWord) : (s.reply v).epoch = s.epoch := rfl

@[simp] theorem State.record_dirClock (t : Token) (b : Levels) : (s.record t b).dirClock = s.dirClock := rfl
@[simp] theorem State.record_dirData (t : Token) (b : Levels) : (s.record t b).dirData = s.dirData := rfl
@[simp] theorem State.record_sr (t : Token) (b : Levels) : (s.record t b).sr = s.sr := rfl
@[simp] theorem State.record_bitcnt (t : Token) (b : Levels) : (s.record t b).bitcnt = s.bitcnt := rfl
@[simp] theorem State.record_pollcnt (t : Token) (b : Levels) : (s.record t b).pollcnt = s.pollcnt := rfl
@[simp] theorem State.record_trycnt (t : Token) (b : Levels) : (s.record t b).trycnt = s.trycnt := rfl
@[simp] theorem State.record_idx (t : Token) (b : Levels) : (s.record t b).idx = s.idx := rfl
@[simp] theorem State.record_len (t : Token) (b : Levels) : (s.record t b).len = s.len := rfl
@[simp] theorem State.record_cyc (t : Token) (b : Levels) : (s.record t b).cyc = s.cyc := rfl
@[simp] theorem State.record_loopc (t : Token) (b : Levels) : (s.record t b).loopc = s.loopc := rfl
@[simp] theorem State.record_bitv (t : Token) (b : Levels) : (s.record t b).bitv = s.bitv := rfl
@[simp] theorem State.record_ackcnt (t : Token) (b : Levels) : (s.record t b).ackcnt = s.ackcnt := rfl
@[simp] theorem State.record_rxdata (t : Token) (b : Levels) : (s.record t b).rxdata = s.rxdata := rfl
@[simp] theorem State.record_result (t : Token) (b : Levels) : (s.record t b).result = s.result := rfl
@[simp] theorem State.record_cmd (t : Token) (b : Levels) : (s.record t b).cmd = s.cmd := rfl
@[simp] theorem State.record_ill (t : Token) (b : Levels) : (s.record t b).ill = s.ill := rfl
@[simp] theorem State.record_ovr (t : Token) (b : Levels) : (s.record t b).ovr = s.ovr := rfl
@[simp] theorem State.record_cfgAckMax (t : Token) (b : Levels) : (s.record t b).cfgAckMax = s.cfgAckMax := rfl
@[simp] theorem State.record_cfgStartMax (t : Token) (b : Levels) : (s.record t b).cfgStartMax = s.cfgStartMax := rfl
@[simp] theorem State.record_cfgPwrClks (t : Token) (b : Levels) : (s.record t b).cfgPwrClks = s.cfgPwrClks := rfl
@[simp] theorem State.record_exposeInternal (t : Token) (b : Levels) : (s.record t b).exposeInternal = s.exposeInternal := rfl
@[simp] theorem State.record_upc (t : Token) (b : Levels) : (s.record t b).upc = s.upc := rfl
@[simp] theorem State.record_buf (t : Token) (b : Levels) : (s.record t b).buf = s.buf := rfl
@[simp] theorem State.record_env (t : Token) (b : Levels) : (s.record t b).env = s.env := rfl
@[simp] theorem State.record_now (t : Token) (b : Levels) : (s.record t b).now = s.now + 1 := rfl
@[simp] theorem State.record_trace (t : Token) (b : Levels) : (s.record t b).trace = ⟨t, b, s.levels⟩ :: s.trace := rfl
@[simp] theorem State.record_host (t : Token) (b : Levels) : (s.record t b).host = s.host := rfl
@[simp] theorem State.record_replies (t : Token) (b : Levels) : (s.record t b).replies = s.replies := rfl
@[simp] theorem State.record_epoch (t : Token) (b : Levels) : (s.record t b).epoch = s.epoch := rfl

@[simp] theorem State.nextPhase_dirClock : (s.nextPhase).dirClock = s.dirClock := rfl
@[simp] theorem State.nextPhase_dirData : (s.nextPhase).dirData = s.dirData := rfl
@[simp] theorem State.nextPhase_sr : (s.nextPhase).sr = s.sr := rfl
@[simp] theorem State.nextPhase_bitcnt : (s.nextPhase).bitcnt = s.bitcnt := rfl
@[simp] theorem State.nextPhase_pollcnt : (s.nextPhase).pollcnt = s.pollcnt := rfl
@[simp] theorem State.nextPhase_trycnt : (s.nextPhase).trycnt = s.trycnt := rfl
@[simp] theorem State.nextPhase_idx : (s.nextPhase).idx = s.idx := rfl
@[simp] theorem State.nextPhase_len : (s.nextPhase).len = s.len := rfl
@[simp] theorem State.nextPhase_cyc : (s.nextPhase).cyc = s.cyc := rfl
@[simp] theorem State.nextPhase_loopc : (s.nextPhase).loopc = s.loopc := rfl
@[simp] theorem State.nextPhase_bitv : (s.nextPhase).bitv = s.bitv := rfl
@[simp] theorem State.nextPhase_ackcnt : (s.nextPhase).ackcnt = s.ackcnt := rfl
@[simp] theorem State.nextPhase_rxdata : (s.nextPhase).rxdata = s.rxdata := rfl
@[simp] theorem State.nextPhase_result : (s.nextPhase).result = s.result := rfl
@[simp] theorem State.nextPhase_cmd : (s.nextPhase).cmd = s.cmd := rfl
@[simp] theorem State.nextPhase_ill : (s.nextPhase).ill = s.ill := rfl
@[simp] theorem State.nextPhase_ovr : (s.nextPhase).ovr = s.ovr := rfl
@[simp] theorem State.nextPhase_cfgAckMax : (s.nextPhase).cfgAckMax = s.cfgAckMax := rfl
@[simp] theorem State.nextPhase_cfgStartMax : (s.nextPhase).cfgStartMax = s.cfgStartMax := rfl
@[simp] theorem State.nextPhase_cfgPwrClks : (s.nextPhase).cfgPwrClks = s.cfgPwrClks := rfl
@[simp] theorem State.nextPhase_exposeInternal : (s.nextPhase).exposeInternal = s.exposeInternal := rfl
@[simp] theorem State.nextPhase_upc : (s.nextPhase).upc = s.upc := rfl
@[simp] theorem State.nextPhase_buf : (s.nextPhase).buf = s.buf := rfl
@[simp] theorem State.nextPhase_env : (s.nextPhase).env = s.env.tail := rfl
@[simp] theorem State.nextPhase_now : (s.nextPhase).now = s.now := rfl
@[simp] theorem State.nextPhase_trace : (s.nextPhase).trace = s.trace := rfl
@[simp] theorem State.nextPhase_host : (s.nextPhase).host = s.host := rfl
@[simp] theorem State.nextPhase_replies : (s.nextPhase).replies = s.replies := rfl
@[simp] theorem State.nextPhase_epoch : (s.nextPhase).epoch = s.epoch := rfl

@[simp] theorem State.setDir_sr (l : Line) (d : Dir) : (s.setDir l d).sr = s.sr := by cases l <;> rfl
@[simp] theorem State.setDir_bitcnt (l : Line) (d : Dir) : (s.setDir l d).bitcnt = s.bitcnt := by cases l <;> rfl
@[simp] theorem State.setDir_pollcnt (l : Line) (d : Dir) : (s.setDir l d).pollcnt = s.pollcnt := by cases l <;> rfl
@[simp] theorem State.setDir_trycnt (l : Line) (d : Dir) : (s.setDir l d).trycnt = s.trycnt := by cases l <;> rfl
@[simp] theorem State.setDir_idx (l : Line) (d : Dir) : (s.setDir l d).idx = s.idx := by cases l <;> rfl
@[simp] theorem State.setDir_len (l : Line) (d : Dir) : (s.setDir l d).len = s.len := by cases l <;> rfl
@[simp] theorem State.setDir_cyc (l : Line) (d : Dir) : (s.setDir l d).cyc = s.cyc := by cases l <;> rfl
@[simp] theorem State.setDir_loopc (l : Line) (d : Dir) : (s.setDir l d).loopc = s.loopc := by cases l <;> rfl
@[simp] theorem State.setDir_bitv (l : Line) (d : Dir) : (s.setDir l d).bitv = s.bitv := by cases l <;> rfl
@[simp] theorem State.setDir_ackcnt (l : Line) (d : Dir) : (s.setDir l d).ackcnt = s.ackcnt := by cases l <;> rfl
@[simp] theorem State.setDir_rxdata (l : Line) (d : Dir) : (s.setDir l d).rxdata = s.rxdata := by cases l <;> rfl
@[simp] theorem State.setDir_result (l : Line) (d : Dir) : (s.setDir l d).result = s.result := by cases l <;> rfl
@[simp] theorem State.setDir_cmd (l : Line) (d : Dir) : (s.setDir l d).cmd = s.cmd := by cases l <;> rfl
@[simp] theorem State.setDir_ill (l : Line) (d : Dir) : (s.setDir l d).ill = s.ill := by cases l <;> rfl
@[simp] theorem State.setDir_ovr (l : Line) (d : Dir) : (s.setDir l d).ovr = s.ovr := by cases l <;> rfl
@[simp] theorem State.setDir_cfgAckMax (l : Line) (d : Dir) : (s.setDir l d).cfgAckMax = s.cfgAckMax := by cases l <;> rfl
@[simp] theorem State.setDir_cfgStartMax (l : Line) (d : Dir) : (s.setDir l d).cfgStartMax = s.cfgStartMax := by cases l <;> rfl
@[simp] theorem State.setDir_cfgPwrClks (l : Line) (d : Dir) : (s.setDir l d).cfgPwrClks = s.cfgPwrClks := by cases l <;> rfl
@[simp] theorem State.setDir_exposeInternal (l : Line) (d : Dir) : (s.setDir l d).exposeInternal = s.exposeInternal := by cases l <;> rfl
@[simp] theorem State.setDir_upc (l : Line) (d : Dir) : (s.setDir l d).upc = s.upc := by cases l <;> rfl
@[simp] theorem State.setDir_buf (l : Line) (d : Dir) : (s.setDir l d).buf = s.buf := by cases l <;> rfl
@[simp] theorem State.setDir_env (l : Line) (d : Dir) : (s.setDir l d).env = s.env := by cases l <;> rfl
@[simp] theorem State.setDir_now (l : Line) (d : Dir) : (s.setDir l d).now = s.now := by cases l <;> rfl
@[simp] theorem State.setDir_trace (l : Line) (d : Dir) : (s.setDir l d).trace = s.trace := by cases l <;> rfl
@[simp] theorem State.setDir_host (l : Line) (d : Dir) : (s.setDir l d).host = s.host := by cases l <;> rfl
@[simp] theorem State.setDir_replies (l : Line) (d : Dir) : (s.setDir l d).replies = s.replies := by cases l <;> rfl
@[simp] theorem State.setDir_epoch (l : Line) (d : Dir) : (s.setDir l d).epoch = s.epoch := by cases l <;> rfl

@[simp] theorem State.setDir_clock_dirClock (d : Dir) : (s.setDir .clock d).dirClock = d := rfl
@[simp] theorem State.setDir_clock_dirData (d : Dir) : (s.setDir .clock d).dirData = s.dirData := rfl
@[simp] theorem State.setDir_data_dirClock (d : Dir) : (s.setDir .data d).dirClock = s.dirClock := rfl
@[simp] theorem State.setDir_data_dirData (d : Dir) : (s.setDir .data d).dirData = d := rfl

@[simp] theorem State.tokens_setSr (v : Byte) : (s.setSr v).tokens = s.tokens := rfl
@[simp] theorem State.tokens_setBitcnt (v : BitVec 4) : (s.setBitcnt v).tokens = s.tokens := rfl
@[simp] theorem State.tokens_setPollcnt (v : Byte) : (s.setPollcnt v).tokens = s.tokens := rfl
@[simp] theorem State.tokens_setTrycnt (v : Byte) : (s.setTrycnt v).tokens = s.tokens := rfl
@[simp] theorem State.tokens_setIdx (v : Byte) : (s.setIdx v).tokens = s.tokens := rfl
@[simp] theorem State.tokens_setLen (v : Byte) : (s.setLen v).tokens = s.tokens := rfl
@[simp] theorem State.tokens_setCyc (v : Byte) : (s.setCyc v).tokens = s.tokens := rfl
@[simp] theorem State.tokens_setLoopc (v : Byte) : (s.setLoopc v).tokens = s.tokens := rfl
@[simp] theorem State.tokens_setBitv (v : Bit) : (s.setBitv v).tokens = s.tokens := rfl
@[simp] theorem State.tokens_setAckcnt (v : Byte) : (s.setAckcnt v).tokens = s.tokens := rfl
@[simp] theorem State.tokens_setRxdata (v : Byte) : (s.setRxdata v).tokens = s.tokens := rfl
@[simp] theorem State.tokens_setResult (v : Result) : (s.setResult v).tokens = s.tokens := rfl
@[simp] theorem State.tokens_setCmd (v : CmdWord) : (s.setCmd v).tokens = s.tokens := rfl
@[simp] theorem State.tokens_setCfgAckMax (v : Byte) : (s.setCfgAckMax v).tokens = s.tokens := rfl
@[simp] theorem State.tokens_setCfgStartMax (v : Byte) : (s.setCfgStartMax v).tokens = s.tokens := rfl
@[simp] theorem State.tokens_setCfgPwrClks (v : Byte) : (s.setCfgPwrClks v).tokens = s.tokens := rfl
@[simp] theorem State.tokens_setExposeInternal (v : Bool) : (s.setExposeInternal v).tokens = s.tokens := rfl
@[simp] theorem State.tokens_setUpc (v : List Stmt) : (s.setUpc v).tokens = s.tokens := rfl
@[simp] theorem State.tokens_setBuf (v : Memory) : (s.setBuf v).tokens = s.tokens := rfl
@[simp] theorem State.tokens_setHost (v : List HostAct) : (s.setHost v).tokens = s.tokens := rfl
@[simp] theorem State.tokens_markIllegal : (s.markIllegal).tokens = s.tokens := rfl
@[simp] theorem State.tokens_markOverrun : (s.markOverrun).tokens = s.tokens := rfl
@[simp] theorem State.tokens_reply (v : CmdWord) : (s.reply v).tokens = s.tokens := rfl
@[simp] theorem State.tokens_nextPhase : (s.nextPhase).tokens = s.tokens := rfl
@[simp] theorem State.tokens_setDir (l : Line) (d : Dir) : (s.setDir l d).tokens = s.tokens := by cases l <;> rfl

end Sys2Proof.Machine
end

