-- ==== Sys2Proof/Laws/Memory.lean ====
section
/-! SUPPORT. The buffer: a read gives what was written last, a write leaves every other index alone, and every
operation keeps the canonical form. -/

namespace Sys2Proof.Machine

theorem lookup_write_same (m : Memory) (a : Nat) (v : Byte) : Memory.lookup (Memory.write m a v) a = some v := by
  induction m with
  | nil => simp [Memory.write, Memory.lookup]
  | cons c m ih =>
    simp only [Memory.write]
    split
    · simp [Memory.lookup]
    · split
      · simp [Memory.lookup]
      · rename_i h
        simp [Memory.lookup, Ne.symm h, ih]

theorem lookup_write_other (m : Memory) {a b : Nat} (v : Byte) (h : b ≠ a) :
    Memory.lookup (Memory.write m a v) b = Memory.lookup m b := by
  induction m with
  | nil => simp [Memory.write, Memory.lookup, h.symm]
  | cons c m ih =>
    simp only [Memory.write]
    split
    · simp [Memory.lookup, h.symm]
    · split
      · rename_i ha
        simp [Memory.lookup, ← ha, h.symm]
      · simp [Memory.lookup, ih]

theorem mem_write {m : Memory} {a : Nat} {v : Byte} {c : Host.Cell} (h : c ∈ Memory.write m a v) :
    c = (a, v) ∨ c ∈ m := by
  induction m with
  | nil => simpa [Memory.write] using h
  | cons d m ih =>
    simp only [Memory.write] at h
    split at h
    · simpa using h
    · split at h
      · rcases List.mem_cons.1 h with h | h
        · exact .inl h
        · exact .inr (List.mem_cons_of_mem _ h)
      · rcases List.mem_cons.1 h with h | h
        · exact .inr (h ▸ List.mem_cons_self)
        · exact (ih h).imp_right (List.mem_cons_of_mem _)

theorem write_wf {m : Memory} {a : Nat} (v : Byte) (hm : Memory.wf m) (ha : a < Config.bufBytes) :
    Memory.wf (Memory.write m a v) := by
  refine ⟨?_, fun c hc => ?_⟩
  · have hs := hm.1
    clear hm
    induction m with
    | nil => simp [Memory.write]
    | cons d m ih =>
      have hd := List.pairwise_cons.1 hs
      simp only [Memory.write]
      split
      · rename_i h
        refine List.pairwise_cons.2 ⟨fun c hc => ?_, hs⟩
        rcases List.mem_cons.1 hc with rfl | hc
        · exact h
        · exact lt_trans h (hd.1 c hc)
      · split
        · rename_i h
          exact List.pairwise_cons.2 ⟨fun c hc => by simpa [h] using hd.1 c hc, hd.2⟩
        · rename_i h1 h2
          refine List.pairwise_cons.2 ⟨fun c hc => ?_, ih hd.2⟩
          rcases mem_write hc with rfl | hc
          · exact lt_of_le_of_ne (not_lt.1 h1) (Ne.symm h2)
          · exact hd.1 c hc
  · rcases mem_write hc with rfl | hc
    · exact ha
    · exact hm.2 c hc

theorem byte_lt_bufBytes (i : Byte) : i.toNat < Config.bufBytes := i.isLt

/-- All `BUF[i] <- v` can do: the byte reads back, and every other index reads as before. -/
theorem bufRead_bufWrite (s : State) (i j v : Byte) :
    (s.bufWrite i v).bufRead j = if j = i then v else s.bufRead j := by
  by_cases h : j = i
  · subst h
    simp [State.bufRead, State.bufWrite, lookup_write_same]
  · have : j.toNat ≠ i.toNat := fun e => h (BitVec.eq_of_toNat_eq e)
    simp [State.bufRead, State.bufWrite, lookup_write_other _ _ this, h]

theorem bufWrite_wf {s : State} (i v : Byte) (h : Memory.wf s.buf) : Memory.wf (s.bufWrite i v).buf := by
  simpa [State.bufWrite] using write_wf v h (byte_lt_bufBytes i)

theorem reset_memory_wf : Memory.wf State.reset.buf := by decide

end Sys2Proof.Machine
end

