-- ==== Sys2Proof/Laws/Ops.lean ====
section
/-! SUPPORT. What the lines and the micro-actions do, said once. -/

namespace Sys2Proof.Machine

/-! Directions and levels. -/

@[simp] theorem State.dir_clock (s : State) : s.dir .clock = s.dirClock := rfl
@[simp] theorem State.dir_data (s : State) : s.dir .data = s.dirData := rfl

theorem State.dir_setDir (s : State) (l k : Line) (d : Dir) :
    (s.setDir l d).dir k = if k = l then d else s.dir k := by
  cases l <;> cases k <;> rfl

/-- `level(l)`: 0 exactly when TWBB drives the line or the environment pulls it low (R41). -/
theorem State.level_eq (s : State) (l : Line) :
    s.level l = if s.dir l = .output ∨ s.envLow l = true then 0 else 1 := by
  unfold State.level State.floatLevel
  cases s.dir l <;> simp

theorem State.level_eq_one (s : State) (l : Line) :
    s.level l = 1 ↔ s.dir l = .input ∧ s.envLow l = false := by
  rw [State.level_eq]
  cases s.dir l <;> cases s.envLow l <;> simp

/-- A Sample of a floated line gives its level (R42). -/
theorem State.sampleValue_floated {s : State} {l : Line} (h : s.dir l = .input) :
    s.sampleValue l = s.level l := by
  simp [State.sampleValue, State.level, h]

/-! The trace. -/

@[simp] theorem Token.isMicroAction_float (l : Line) : (Token.float l).isMicroAction = true := rfl
@[simp] theorem Token.isMicroAction_driveLow (l : Line) : (Token.driveLow l).isMicroAction = true := rfl
@[simp] theorem Token.isMicroAction_sample (l : Line) (b : Bit) : (Token.sample l b).isMicroAction = true := rfl
@[simp] theorem Token.isMicroAction_delay (d : Duration) : (Token.delay d).isMicroAction = true := rfl
@[simp] theorem Token.isMicroAction_reset : Token.reset.isMicroAction = false := rfl
@[simp] theorem Token.isMicroAction_environment : Token.environment.isMicroAction = false := rfl

/-- What an event does to the full trace: a micro-action's token is added to it, and a mark is not (R10). -/
theorem State.tokens_record (s : State) (t : Token) (b : Levels) :
    (s.record t b).tokens = if t.isMicroAction then s.tokens ++ [t] else s.tokens := by
  cases h : t.isMicroAction <;> simp [State.tokens, h]

theorem State.tokens_congr {s t : State} (h : t.trace = s.trace) : t.tokens = s.tokens := by
  simp [State.tokens, h]

/-! One micro-action each: the tokens it adds, and the lines after it. -/

@[simp] theorem floatLine_tokens (l : Line) (s : State) : (floatLine l s).tokens = s.tokens ++ [.float l] := by
  simp [floatLine, State.tokens_record]

@[simp] theorem driveLine_tokens (l : Line) (s : State) : (driveLine l s).tokens = s.tokens ++ [.driveLow l] := by
  simp [driveLine, State.tokens_record]

@[simp] theorem sampleLine_tokens (l : Line) (s : State) :
    (sampleLine l s).tokens = s.tokens ++ [.sample l (s.sampleValue l)] := by
  simp [sampleLine, State.tokens_record]

@[simp] theorem delay_tokens (d : Duration) (s : State) : (delay d s).tokens = s.tokens ++ [.delay d] := by
  simp [delay, State.tokens_record]

@[simp] theorem floatLine_clock_dirClock (s : State) : (floatLine .clock s).dirClock = .input := rfl
@[simp] theorem floatLine_clock_dirData (s : State) : (floatLine .clock s).dirData = s.dirData := rfl
@[simp] theorem floatLine_data_dirClock (s : State) : (floatLine .data s).dirClock = s.dirClock := rfl
@[simp] theorem floatLine_data_dirData (s : State) : (floatLine .data s).dirData = .input := rfl
@[simp] theorem driveLine_clock_dirClock (s : State) : (driveLine .clock s).dirClock = .output := rfl
@[simp] theorem driveLine_clock_dirData (s : State) : (driveLine .clock s).dirData = s.dirData := rfl
@[simp] theorem driveLine_data_dirClock (s : State) : (driveLine .data s).dirClock = s.dirClock := rfl
@[simp] theorem driveLine_data_dirData (s : State) : (driveLine .data s).dirData = .output := rfl
@[simp] theorem sampleLine_dirClock (l : Line) (s : State) : (sampleLine l s).dirClock = s.dirClock := rfl
@[simp] theorem sampleLine_dirData (l : Line) (s : State) : (sampleLine l s).dirData = s.dirData := rfl
@[simp] theorem delay_dirClock (d : Duration) (s : State) : (delay d s).dirClock = s.dirClock := rfl
@[simp] theorem delay_dirData (d : Duration) (s : State) : (delay d s).dirData = s.dirData := rfl

@[simp] theorem sampleLine_bitv (l : Line) (s : State) : (sampleLine l s).bitv = s.sampleValue l := rfl
@[simp] theorem sampleLine_env (l : Line) (s : State) : (sampleLine l s).env = s.env.tail := rfl
@[simp] theorem floatLine_env (l : Line) (s : State) : (floatLine l s).env = s.env := by simp [floatLine]
@[simp] theorem driveLine_env (l : Line) (s : State) : (driveLine l s).env = s.env := by simp [driveLine]
@[simp] theorem delay_env (d : Duration) (s : State) : (delay d s).env = s.env := rfl

/-- What a micro-action can do: an event with its token and the levels around it enters the trace, one instant passes,
and only its own line, or BITV and the script, may differ besides. -/
theorem perform_spec (a : Act) (s : State) :
    (perform a s).now = s.now + 1 ∧
      (∃ t b, (perform a s).trace = ⟨t, s.levels, b⟩ :: s.trace) ∧ bitsOnly s (perform a s) := by
  cases a with
  | float l => cases l <;> exact ⟨rfl, ⟨_, _, rfl⟩, _, _, _, _, _, _, rfl⟩
  | driveLow l => cases l <;> exact ⟨rfl, ⟨_, _, rfl⟩, _, _, _, _, _, _, rfl⟩
  | sample l => exact ⟨rfl, ⟨_, _, rfl⟩, _, _, _, _, _, _, rfl⟩
  | delay d => exact ⟨rfl, ⟨_, _, rfl⟩, _, _, _, _, _, _, rfl⟩

/-! The environment's own move, and the changes of level a list shows. -/

/-- All that a move of the environment can do (R40): the script's coming stretch is the one moved to, an event with no
token of R10 enters the trace, one instant passes, and nothing of TWBB differs. -/
theorem moveEnvironment_spec (p : EnvPhase) (s : State) :
    (∀ l, (moveEnvironment p s).envLow l = p.low l) ∧
      (moveEnvironment p s).trace = ⟨.environment, s.levels, (moveEnvironment p s).levels⟩ :: s.trace ∧
      moveEnvironment p s =
        { s with env := p :: s.env.tail, now := s.now + 1, trace := (moveEnvironment p s).trace } :=
  ⟨fun _ => rfl, rfl, rfl⟩

/-- A move of the environment and a reset add nothing to the full trace (R10). -/
@[simp] theorem moveEnvironment_tokens (p : EnvPhase) (s : State) : (moveEnvironment p s).tokens = s.tokens := by
  simp [moveEnvironment, State.tokens]

@[simp] theorem hardReset_tokens (s : State) : (hardReset s).tokens = s.tokens := by
  simp [hardReset, resetState, State.tokens]

/-- A rising clock edge is a micro-action (R11). -/
theorem Event.isMicroAction_of_isRise {e : Event} (h : e.isRise = true) : e.token.isMicroAction = true := by
  simp only [Event.isRise, Bool.and_eq_true] at h
  exact h.1.1

/-- A falling clock edge is a micro-action (R11). -/
theorem Event.isMicroAction_of_isFall {e : Event} (h : e.isFall = true) : e.token.isMicroAction = true := by
  simp only [Event.isFall, Bool.and_eq_true] at h
  exact h.1.1

@[simp] theorem levelsOf_nil : levelsOf [] = [] := rfl

@[simp] theorem levelsOf_cons (e : Event) (es : List Event) : levelsOf (e :: es) = e.after :: e.before :: levelsOf es :=
  rfl

/-- Changes are counted piece by piece: two stretches of levels that share an end. -/
theorem countChanges_append (p : Levels → Levels → Bool) (newer : List Levels) (x : Levels) (older : List Levels) :
    countChanges p (newer ++ x :: older) = countChanges p (newer ++ [x]) + countChanges p (x :: older) := by
  induction newer with
  | nil => simp [countChanges]
  | cons a newer ih =>
    cases newer with
    | nil => simp [countChanges]
    | cons b newer =>
      simp only [List.cons_append, countChanges] at ih ⊢
      rw [ih, Nat.add_assoc]

end Sys2Proof.Machine
end

