-- ==== Sys2Proof/Laws/Frames.lean ====
section
/-! SUPPORT. What the sequences below the frame level may change, and how frames chain. -/

namespace Sys2Proof.Machine

theorem linesOnly.refl (s : State) : linesOnly s s := ⟨_, _, _, _, rfl⟩

theorem linesOnly.trans {s t u : State} (h : linesOnly s t) (k : linesOnly t u) : linesOnly s u := by
  obtain ⟨_, _, _, _, rfl⟩ := h
  obtain ⟨_, _, _, _, rfl⟩ := k
  exact ⟨_, _, _, _, rfl⟩

theorem cyclesOnly.trans {s t u : State} (h : cyclesOnly s t) (k : cyclesOnly t u) : cyclesOnly s u := by
  obtain ⟨_, _, _, _, _, rfl⟩ := h
  obtain ⟨_, _, _, _, _, rfl⟩ := k
  exact ⟨_, _, _, _, _, rfl⟩

theorem bitsOnly.trans {s t u : State} (h : bitsOnly s t) (k : bitsOnly t u) : bitsOnly s u := by
  obtain ⟨_, _, _, _, _, _, rfl⟩ := h
  obtain ⟨_, _, _, _, _, _, rfl⟩ := k
  exact ⟨_, _, _, _, _, _, rfl⟩

theorem writeOnly.trans {s t u : State} (h : writeOnly s t) (k : writeOnly t u) : writeOnly s u := by
  obtain ⟨_, _, _, _, _, _, _, _, _, _, rfl⟩ := h
  obtain ⟨_, _, _, _, _, _, _, _, _, _, rfl⟩ := k
  exact ⟨_, _, _, _, _, _, _, _, _, _, rfl⟩

theorem readOnly.trans {s t u : State} (h : readOnly s t) (k : readOnly t u) : readOnly s u := by
  obtain ⟨_, _, _, _, _, _, _, _, rfl⟩ := h
  obtain ⟨_, _, _, _, _, _, _, _, rfl⟩ := k
  exact ⟨_, _, _, _, _, _, _, _, rfl⟩

theorem linesOnly.cycles {s t : State} (h : linesOnly s t) : cyclesOnly s t := by
  obtain ⟨_, _, _, _, rfl⟩ := h
  exact ⟨_, _, _, _, _, rfl⟩

theorem linesOnly.bits {s t : State} (h : linesOnly s t) : bitsOnly s t := by
  obtain ⟨_, _, _, _, rfl⟩ := h
  exact ⟨_, _, _, _, _, _, rfl⟩

theorem bitsOnly.write {s t : State} (h : bitsOnly s t) : writeOnly s t := by
  obtain ⟨_, _, _, _, _, _, rfl⟩ := h
  exact ⟨_, _, _, _, _, _, _, _, _, _, rfl⟩

theorem bitsOnly.read {s t : State} (h : bitsOnly s t) : readOnly s t := by
  obtain ⟨_, _, _, _, _, _, rfl⟩ := h
  exact ⟨_, _, _, _, _, _, _, _, rfl⟩

/-! The sequences. -/

theorem floatLine_frame (l : Line) (s : State) : linesOnly s (floatLine l s) := by
  cases l <;> exact ⟨_, _, _, _, rfl⟩

theorem driveLine_frame (l : Line) (s : State) : linesOnly s (driveLine l s) := by
  cases l <;> exact ⟨_, _, _, _, rfl⟩

theorem delay_frame (d : Duration) (s : State) : linesOnly s (delay d s) := ⟨_, _, _, _, rfl⟩

theorem sampleLine_frame (l : Line) (s : State) : bitsOnly s (sampleLine l s) := ⟨_, _, _, _, _, _, rfl⟩

theorem clockHigh_frame (s : State) : linesOnly s (clockHigh s) :=
  ((delay_frame _ _).trans (floatLine_frame _ _)).trans (delay_frame _ _)

theorem clockLow_frame (s : State) : linesOnly s (clockLow s) :=
  ((driveLine_frame _ _).trans (delay_frame _ _)).trans (delay_frame _ _)

theorem clockCycle_frame (s : State) : linesOnly s (clockCycle s) :=
  (clockLow_frame _).trans (clockHigh_frame _)

theorem dataHigh_frame (s : State) : linesOnly s (dataHigh s) := (floatLine_frame _ _).trans (delay_frame _ _)

theorem dataLow_frame (s : State) : linesOnly s (dataLow s) := (driveLine_frame _ _).trans (delay_frame _ _)

theorem readDataBit_frame (s : State) : bitsOnly s (readDataBit s) :=
  ((floatLine_frame _ _).trans (delay_frame _ _)).bits.trans (sampleLine_frame _ _)

theorem sendBit_frame (s : State) : linesOnly s (sendBit s) := by
  unfold sendBit
  split
  · exact dataHigh_frame s
  · exact dataLow_frame s

theorem sendAck_frame (s : State) : linesOnly s (sendAck s) :=
  ((dataLow_frame _).trans (clockCycle_frame _)).trans (clockLow_frame _)

theorem sendNak_frame (s : State) : linesOnly s (sendNak s) :=
  ((dataHigh_frame _).trans (clockCycle_frame _)).trans (clockLow_frame _)

theorem start_frame (s : State) : linesOnly s (start s) :=
  (((clockLow_frame _).trans (dataHigh_frame _)).trans (delay_frame _ _)).trans <|
    (((clockHigh_frame _).trans (delay_frame _ _)).trans (dataLow_frame _)).trans <|
      ((delay_frame _ _).trans (clockLow_frame _)).trans (delay_frame _ _)

theorem stop_frame (s : State) : linesOnly s (stop s) :=
  ((clockLow_frame _).trans (dataLow_frame _)).trans <|
    ((clockHigh_frame _).trans (delay_frame _ _)).trans <| (dataHigh_frame _).trans (delay_frame _ _)

theorem setCyc_frame (s : State) (v : Byte) : cyclesOnly s (s.setCyc v) := ⟨_, _, _, _, _, rfl⟩

theorem cycleLoop_frame (k : Nat) (s : State) : cyclesOnly s (cycleLoop k s) := by
  induction k generalizing s with
  | zero => exact (linesOnly.refl s).cycles
  | succ k ih => exact ((clockCycle_frame s).cycles.trans (setCyc_frame _ _)).trans (ih _)

theorem shiftBit_frame (s : State) : writeOnly s (shiftBit s) := ⟨_, _, _, _, _, _, _, _, _, _, rfl⟩

theorem writeLoop_frame (k : Nat) (s : State) : writeOnly s (writeLoop k s) := by
  induction k generalizing s with
  | zero => exact (linesOnly.refl s).bits.write
  | succ k ih =>
    exact ((((clockLow_frame _).trans (sendBit_frame _)).trans (clockHigh_frame _)).bits.write.trans
      (shiftBit_frame _)).trans (ih _)

theorem pollLoop_frame (k : Nat) (s : State) : writeOnly s (pollLoop k s) := by
  induction k generalizing s with
  | zero => exact ⟨_, _, _, _, _, _, _, _, _, _, rfl⟩
  | succ k ih =>
    have hr := (readDataBit_frame s).write
    simp only [pollLoop]
    split
    · exact hr.trans ⟨_, _, _, _, _, _, _, _, _, _, rfl⟩
    · exact (hr.trans (u := (readDataBit s).setPollcnt _) ⟨_, _, _, _, _, _, _, _, _, _, rfl⟩).trans (ih _)

theorem readLoop_frame (k : Nat) (v : Byte) (s : State) : readOnly s (readLoop k v s) := by
  induction k generalizing v s with
  | zero => exact ⟨_, _, _, _, _, _, _, _, rfl⟩
  | succ k ih =>
    have hr := ((clockCycle_frame s).bits.trans (readDataBit_frame _)).trans (clockLow_frame _).bits
    exact (hr.read.trans (u := State.setBitcnt _ _) ⟨_, _, _, _, _, _, _, _, rfl⟩).trans (ih _ _)

/-! The frame level. -/

theorem powerOnly.trans {s t u : State} (h : powerOnly s t) (k : powerOnly t u) : powerOnly s u := by
  obtain ⟨_, _, _, _, _, _, rfl⟩ := h
  obtain ⟨_, _, _, _, _, _, rfl⟩ := k
  exact ⟨_, _, _, _, _, _, rfl⟩

theorem commandOnly.trans {s t u : State} (h : commandOnly s t) (k : commandOnly t u) : commandOnly s u := by
  obtain ⟨_, _, _, _, _, _, _, _, _, _, _, _, _, _, rfl⟩ := h
  obtain ⟨_, _, _, _, _, _, _, _, _, _, _, _, _, _, rfl⟩ := k
  exact ⟨_, _, _, _, _, _, _, _, _, _, _, _, _, _, rfl⟩

theorem dataOnly.trans {s t u : State} (h : dataOnly s t) (k : dataOnly t u) : dataOnly s u := by
  obtain ⟨_, _, _, _, _, _, _, _, _, _, _, _, _, rfl⟩ := h
  obtain ⟨_, _, _, _, _, _, _, _, _, _, _, _, _, rfl⟩ := k
  exact ⟨_, _, _, _, _, _, _, _, _, _, _, _, _, rfl⟩

theorem receiveOnly.trans {s t u : State} (h : receiveOnly s t) (k : receiveOnly t u) : receiveOnly s u := by
  obtain ⟨_, _, _, _, _, _, _, _, _, _, _, _, rfl⟩ := h
  obtain ⟨_, _, _, _, _, _, _, _, _, _, _, _, rfl⟩ := k
  exact ⟨_, _, _, _, _, _, _, _, _, _, _, _, rfl⟩

theorem waitOnly.trans {s t u : State} (h : waitOnly s t) (k : waitOnly t u) : waitOnly s u := by
  obtain ⟨_, _, _, _, _, _, _, rfl⟩ := h
  obtain ⟨_, _, _, _, _, _, _, rfl⟩ := k
  exact ⟨_, _, _, _, _, _, _, rfl⟩

theorem cyclesOnly.power {s t : State} (h : cyclesOnly s t) : powerOnly s t := by
  obtain ⟨_, _, _, _, _, rfl⟩ := h
  exact ⟨_, _, _, _, _, _, rfl⟩

theorem cyclesOnly.wait {s t : State} (h : cyclesOnly s t) : waitOnly s t := by
  obtain ⟨_, _, _, _, _, rfl⟩ := h
  exact ⟨_, _, _, _, _, _, _, rfl⟩

theorem writeOnly.command {s t : State} (h : writeOnly s t) : commandOnly s t := by
  obtain ⟨_, _, _, _, _, _, _, _, _, _, rfl⟩ := h
  exact ⟨_, _, _, _, _, _, _, _, _, _, _, _, _, _, rfl⟩

theorem writeOnly.data {s t : State} (h : writeOnly s t) : dataOnly s t := by
  obtain ⟨_, _, _, _, _, _, _, _, _, _, rfl⟩ := h
  exact ⟨_, _, _, _, _, _, _, _, _, _, _, _, _, rfl⟩

theorem readOnly.receive {s t : State} (h : readOnly s t) : receiveOnly s t := by
  obtain ⟨_, _, _, _, _, _, _, _, rfl⟩ := h
  exact ⟨_, _, _, _, _, _, _, _, _, _, _, _, rfl⟩

theorem clockCycles_frame (n : Byte) (s : State) : cyclesOnly s (clockCycles n s) :=
  (setCyc_frame s n).trans (cycleLoop_frame _ _)

theorem writeByte_frame (value : Byte) (s : State) : writeOnly s (writeByte value s) := by
  have h1 : writeOnly s ((s.setSr value).setBitcnt 0) := ⟨_, _, _, _, _, _, _, _, _, _, rfl⟩
  have h2 : ∀ t : State, writeOnly t (clockHigh (dataHigh (clockLow t))) := fun t =>
    (((clockLow_frame _).trans (dataHigh_frame _)).trans (clockHigh_frame _)).bits.write
  have h3 : ∀ t : State, writeOnly t (ackPoll t) := fun t =>
    (show writeOnly t (t.setPollcnt 0) from ⟨_, _, _, _, _, _, _, _, _, _, rfl⟩).trans (pollLoop_frame _ _)
  exact ((h1.trans (writeLoop_frame 8 _)).trans (h2 _)).trans (h3 _)

theorem readByte_frame (s : State) : readOnly s (readByte s) := by
  have h1 : readOnly s ((dataHigh s).setBitcnt 0) :=
    (dataHigh_frame s).bits.read.trans ⟨_, _, _, _, _, _, _, _, rfl⟩
  exact h1.trans (readLoop_frame 8 0 _)

theorem finish_frame (r : Result) (s : State) : powerOnly s (finish r s) := ⟨_, _, _, _, _, _, rfl⟩

theorem tryLoop_frame (k : Nat) (s : State) : commandOnly s (tryLoop k s) := by
  induction k generalizing s with
  | zero => exact (linesOnly.refl s).bits.write.command
  | succ k ih =>
    have ht : commandOnly s (tryFirst s) :=
      ((start_frame s).bits.write.trans (writeByte_frame _ _)).command
    have hu : commandOnly s ((tryFirst s).setTrycnt ((tryFirst s).trycnt + 1)) :=
      ht.trans ⟨_, _, _, _, _, _, _, _, _, _, _, _, _, _, rfl⟩
    simp only [tryLoop]
    split
    · exact ht
    · split
      · exact hu
      · exact hu.trans (ih _)

theorem sendLoop_frame (k : Nat) (s : State) : dataOnly s (sendLoop k s).2 := by
  induction k generalizing s with
  | zero => exact (linesOnly.refl s).bits.write.data
  | succ k ih =>
    have ht : dataOnly s (writeByte s.byteAtIdx s) := (writeByte_frame _ _).data
    simp only [sendLoop]
    split
    · exact (ht.trans (u := (writeByte s.byteAtIdx s).nextIdx) ⟨_, _, _, _, _, _, _, _, _, _, _, _, _, rfl⟩).trans (ih _)
    · exact ht

theorem answerByte_frame (s : State) : linesOnly s (answerByte s) := by
  unfold answerByte
  split
  · exact sendAck_frame s
  · exact sendNak_frame s

theorem receiveLoop_frame (k : Nat) (s : State) : receiveOnly s (receiveLoop k s) := by
  induction k generalizing s with
  | zero => exact (linesOnly.refl s).bits.read.receive
  | succ k ih =>
    have h1 : receiveOnly s ((readByte s).storeAtIdx (readByte s).rxdata) :=
      (readByte_frame s).receive.trans ⟨_, _, _, _, _, _, _, _, _, _, _, _, rfl⟩
    have h2 := h1.trans (answerByte_frame _).bits.read.receive
    exact (h2.trans (u := State.nextIdx _) ⟨_, _, _, _, _, _, _, _, _, _, _, _, rfl⟩).trans (ih _)

theorem waitLoop_frame (k : Nat) (s : State) : waitOnly s (waitLoop k s) := by
  induction k generalizing s with
  | zero => exact (linesOnly.refl s).cycles.wait
  | succ k ih =>
    have h1 : waitOnly s (stop (clockCycles Config.waitClocks (start s))) :=
      (((start_frame s).cycles.trans (clockCycles_frame _ _)).trans (stop_frame _).cycles).wait
    exact (h1.trans (u := State.setLoopc _ _) ⟨_, _, _, _, _, _, _, rfl⟩).trans (ih _)

end Sys2Proof.Machine
end

