-- ==== Sys2Proof/Laws/Traces.lean ====
section
/-! SUPPORT. The trace each sequence below the frame level adds, and where it leaves the lines. -/

namespace Sys2Proof.Machine

/-! Straight-line sequences. -/

@[simp] theorem clockHigh_tokens (s : State) : (clockHigh s).tokens = s.tokens ++ traceClockHigh := by
  simp [clockHigh, traceClockHigh]

@[simp] theorem clockLow_tokens (s : State) : (clockLow s).tokens = s.tokens ++ traceClockLow := by
  simp [clockLow, traceClockLow]

@[simp] theorem clockCycle_tokens (s : State) : (clockCycle s).tokens = s.tokens ++ traceClockCycle := by
  simp [clockCycle, traceClockCycle, traceClockLow, traceClockHigh]

@[simp] theorem dataHigh_tokens (s : State) : (dataHigh s).tokens = s.tokens ++ traceDataHigh := by
  simp [dataHigh, traceDataHigh]

@[simp] theorem dataLow_tokens (s : State) : (dataLow s).tokens = s.tokens ++ traceDataLow := by
  simp [dataLow, traceDataLow]

@[simp] theorem readDataBit_tokens (s : State) :
    (readDataBit s).tokens = s.tokens ++ traceReadBit (readDataBit s).bitv := by
  simp [readDataBit, traceReadBit]

@[simp] theorem sendAck_tokens (s : State) : (sendAck s).tokens = s.tokens ++ traceSendAck := by
  simp [sendAck, traceSendAck, traceDataLow, traceClockCycle, traceClockLow]

@[simp] theorem sendNak_tokens (s : State) : (sendNak s).tokens = s.tokens ++ traceSendNak := by
  simp [sendNak, traceSendNak, traceDataHigh, traceClockCycle, traceClockLow]

@[simp] theorem start_tokens (s : State) : (start s).tokens = s.tokens ++ traceStart := by
  simp [start, traceStart, traceDataHigh, traceDataLow, traceClockHigh, traceClockLow]

@[simp] theorem stop_tokens (s : State) : (stop s).tokens = s.tokens ++ traceStop := by
  simp [stop, traceStop, traceDataHigh, traceDataLow, traceClockHigh, traceClockLow]

/-! The lines after them. -/

@[simp] theorem clockHigh_dirClock (s : State) : (clockHigh s).dirClock = .input := rfl
@[simp] theorem clockHigh_dirData (s : State) : (clockHigh s).dirData = s.dirData := rfl
@[simp] theorem clockLow_dirClock (s : State) : (clockLow s).dirClock = .output := rfl
@[simp] theorem clockLow_dirData (s : State) : (clockLow s).dirData = s.dirData := rfl
@[simp] theorem clockCycle_dirClock (s : State) : (clockCycle s).dirClock = .input := rfl
@[simp] theorem clockCycle_dirData (s : State) : (clockCycle s).dirData = s.dirData := rfl
@[simp] theorem dataHigh_dirClock (s : State) : (dataHigh s).dirClock = s.dirClock := rfl
@[simp] theorem dataHigh_dirData (s : State) : (dataHigh s).dirData = .input := rfl
@[simp] theorem dataLow_dirClock (s : State) : (dataLow s).dirClock = s.dirClock := rfl
@[simp] theorem dataLow_dirData (s : State) : (dataLow s).dirData = .output := rfl
@[simp] theorem readDataBit_dirClock (s : State) : (readDataBit s).dirClock = s.dirClock := rfl
@[simp] theorem readDataBit_dirData (s : State) : (readDataBit s).dirData = .input := rfl
@[simp] theorem sendAck_dirClock (s : State) : (sendAck s).dirClock = .output := rfl
@[simp] theorem sendAck_dirData (s : State) : (sendAck s).dirData = .output := rfl
@[simp] theorem sendNak_dirClock (s : State) : (sendNak s).dirClock = .output := rfl
@[simp] theorem sendNak_dirData (s : State) : (sendNak s).dirData = .input := rfl
@[simp] theorem start_dirClock (s : State) : (start s).dirClock = .output := rfl
@[simp] theorem start_dirData (s : State) : (start s).dirData = .output := rfl
@[simp] theorem stop_dirClock (s : State) : (stop s).dirClock = .input := rfl
@[simp] theorem stop_dirData (s : State) : (stop s).dirData = .input := rfl

/-! The script of the environment: a sequence that takes no Sample leaves it, READDATABIT takes one entry. -/

@[simp] theorem clockHigh_env (s : State) : (clockHigh s).env = s.env := by simp [clockHigh]
@[simp] theorem clockLow_env (s : State) : (clockLow s).env = s.env := by simp [clockLow]
@[simp] theorem clockCycle_env (s : State) : (clockCycle s).env = s.env := by simp [clockCycle]
@[simp] theorem dataHigh_env (s : State) : (dataHigh s).env = s.env := by simp [dataHigh]
@[simp] theorem dataLow_env (s : State) : (dataLow s).env = s.env := by simp [dataLow]
@[simp] theorem readDataBit_env (s : State) : (readDataBit s).env = s.env.tail := by simp [readDataBit]

/-- READDATABIT's answer is the level the script's next entry gives the floated data line (R136, R42). -/
theorem readDataBit_scripted {s : State} {p : EnvPhase} {ps : List EnvPhase} (h : s.env = p :: ps) :
    (readDataBit s).bitv = if p.dataLow then 0 else 1 := by
  simp [readDataBit, State.sampleValue, State.floatLevel, State.envLow, EnvPhase.low, h]

/-! Loops. -/

theorem cycleLoop_tokens (k : Nat) (s : State) : (cycleLoop k s).tokens = s.tokens ++ traceCycles k := by
  induction k generalizing s with
  | zero => simp [cycleLoop, traceCycles]
  | succ k ih => simp [cycleLoop, ih, traceCycles, List.replicate_succ]

theorem cycleLoop_dirData (k : Nat) (s : State) : (cycleLoop k s).dirData = s.dirData := by
  induction k generalizing s with
  | zero => rfl
  | succ k ih => simp [cycleLoop, ih]

theorem cycleLoop_dirClock (k : Nat) (s : State) :
    (cycleLoop k s).dirClock = if k = 0 then s.dirClock else .input := by
  induction k generalizing s with
  | zero => rfl
  | succ k ih => simp [cycleLoop, ih]

theorem sendBit_tokens (s : State) :
    (sendBit s).tokens = s.tokens ++ if s.sendsOne then traceDataHigh else traceDataLow := by
  unfold sendBit
  split <;> simp

end Sys2Proof.Machine
end

