-- ==== Sys2Proof/Laws/Engine.lean ====
section
/-! SUPPORT. What a silent statement of the sequencer can change, and that settling always ends before a
micro-action or with nothing left. -/

namespace Sys2Proof.Machine

/-- What silent statements leave alone: the lines, the record, the environment, the host's side, and upc. -/
def silentOnly (s t : State) : Prop :=
  ∃ (sr pc tr ix le cy lc ac rx : Byte) (bc : BitVec 4) (r : Result) (il : Bool) (m : Memory),
    t = { s with
      sr := sr, bitcnt := bc, pollcnt := pc, trycnt := tr, idx := ix, len := le, cyc := cy, loopc := lc,
      ackcnt := ac, rxdata := rx, result := r, ill := il, buf := m } ∧
    (Memory.wf s.buf → Memory.wf m) ∧ (s.ill = true → il = true)

theorem silentOnly.refl (s : State) : silentOnly s s :=
  ⟨_, _, _, _, _, _, _, _, _, _, _, _, _, rfl, id, id⟩

theorem silentOnly.trans {s t u : State} (h : silentOnly s t) (k : silentOnly t u) : silentOnly s u := by
  obtain ⟨_, _, _, _, _, _, _, _, _, _, _, _, _, rfl, h1, h2⟩ := h
  obtain ⟨_, _, _, _, _, _, _, _, _, _, _, _, _, rfl, k1, k2⟩ := k
  exact ⟨_, _, _, _, _, _, _, _, _, _, _, _, _, rfl, fun h => k1 (h1 h), fun h => k2 (h2 h)⟩

theorem unfold_silent (st : Stmt) (s : State) : silentOnly s (unfold st s).1 := by
  have base : silentOnly s s := silentOnly.refl s
  cases st with
  | recvStore =>
    refine ⟨_, _, _, _, _, _, _, _, _, _, _, _, _, rfl, fun h => ?_, id⟩
    exact bufWrite_wf s.idx s.rxdata h
  | op i =>
    cases i <;> simp only [unfold] <;> (try split)
    all_goals first
      | exact base
      | (exact ⟨_, _, _, _, _, _, _, _, _, _, _, _, _, rfl, id, id⟩)
      | (exact ⟨_, _, _, _, _, _, _, _, _, _, _, _, _, rfl, id, fun _ => rfl⟩)
  | _ =>
    simp only [unfold]; (repeat' split) <;>
      first | exact base | exact ⟨_, _, _, _, _, _, _, _, _, _, _, _, _, rfl, id, id⟩

/-! Settling ends. `depth` bounds the chain of silent statements a statement starts; a `sure` one leads to a
micro-action of its own, the others may also vanish. -/

/-- How many silent statements can follow each other from this one before a micro-action or the end. -/
def depth : Stmt → Nat
  | .act _ => 0
  | .op i =>
    match i with
    | .clockCycle | .readByte | .sendAck | .sendNak | .start | .stop | .powerOn | .waitClock _ => 2
    | .writeByte _ => 3
    | .clockCycles _ | .sendCommand _ | .receiveData _ => 4
    | .sendData _ => 5
    | _ => 1
  | .finish _ => 1
  | .bitLoop | .bitSend | .pollLoop | .readTake _ => 2
  | .cycLoop | .bitNext | .pollInit | .pollTest | .readLoop _ | .tryLoop | .recvLoop | .recvStore | .waitLoop => 3
  | .cycNext | .readInit | .readNext _ | .tryByte | .cmdLoop | .dataLoop | .recvNext | .waitNext => 4
  | .tryTest | .cmdTest | .dataTest => 5

/-- A statement that leads to a micro-action whatever the state is. -/
def sure : Stmt → Bool
  | .op (.clockCycles _) => false
  | .op (.sendCommand _) => false
  | .op _ => true
  | .act _ => true
  | .bitLoop | .dataLoop | .recvLoop => true
  | _ => false

/-- How many silent statements can be run before a micro-action of this stack. -/
def settleBound : List Stmt → Nat
  | [] => 0
  | st :: rest => if sure st then depth st else depth st + (rest.map depth).sum

theorem settleBound_le_sum (u : List Stmt) : settleBound u ≤ (u.map depth).sum := by
  cases u with
  | nil => simp [settleBound]
  | cons st rest =>
    simp only [settleBound, List.map_cons, List.sum_cons]
    split <;> omega

theorem settleBound_cons (st : Stmt) (rest : List Stmt) :
    settleBound (st :: rest) = if sure st = true then depth st else depth st + (rest.map depth).sum := rfl

theorem depth_le (st : Stmt) : depth st ≤ 8 := by
  cases st with
  | op i => cases i <;> simp [depth]
  | _ => simp [depth]

theorem settleBound_le (u : List Stmt) : settleBound u ≤ 8 * u.length := by
  refine le_trans (settleBound_le_sum u) ?_
  induction u with
  | nil => simp
  | cons st rest ih =>
    have := depth_le st
    simp only [List.map_cons, List.sum_cons, List.length_cons]
    omega

/-- Running a silent statement brings a micro-action, or the end, nearer. -/
theorem unfold_settleBound (st : Stmt) (s : State) (rest : List Stmt) (h : ∀ a, st ≠ .act a) :
    settleBound ((unfold st s).2 ++ rest) < settleBound (st :: rest) := by
  have hr := settleBound_le_sum rest
  cases st with
  | act a => exact absurd rfl (h a)
  | op i =>
    cases i <;> simp only [unfold] <;> (try split) <;>
      simp only [List.nil_append, List.cons_append, settleBound_cons, sure, depth, if_true, if_false,
        Bool.false_eq_true, List.map_cons, List.sum_cons] <;> omega
  | _ =>
    simp only [unfold]; (repeat' split) <;>
      simp only [List.nil_append, List.cons_append, settleBound_cons, sure, depth, if_true, if_false,
        Bool.false_eq_true, List.map_cons, List.sum_cons] <;> omega

theorem settleFor_settled (k : Nat) (s : State) (h : settleBound s.upc ≤ k) :
    settledUpc (settleFor k s).upc = true := by
  induction k generalizing s with
  | zero =>
    match hu : s.upc with
    | [] => rfl
    | .act a :: rest => rfl
    | .op i :: rest => cases i <;> simp [hu, settleBound, sure, depth] at h
    | .cycLoop :: _ | .cycNext :: _ | .bitLoop :: _ | .bitSend :: _ | .bitNext :: _ | .pollInit :: _
    | .pollLoop :: _ | .pollTest :: _ | .readInit :: _ | .readLoop _ :: _ | .readTake _ :: _
    | .readNext _ :: _ | .tryLoop :: _ | .tryByte :: _ | .tryTest :: _ | .cmdLoop :: _ | .cmdTest :: _
    | .dataLoop :: _ | .dataTest :: _ | .recvLoop :: _ | .recvStore :: _ | .recvNext :: _
    | .waitLoop :: _ | .waitNext :: _ | .finish _ :: _ => simp [hu, settleBound, sure, depth] at h
  | succ k ih =>
    rw [settleFor]
    split
    · simp_all [settledUpc]
    · simp_all [settledUpc]
    · rename_i st rest hne hu
      apply ih
      have hlt := unfold_settleBound st (s.setUpc rest) rest (fun a e => hne a e)
      rw [hu] at h
      show settleBound ((unfold st (s.setUpc rest)).2 ++ rest) ≤ k
      omega

/-- The engine always stands before a micro-action or is IDLE once it has settled. -/
theorem settle_settled (s : State) : settledUpc (settle s).upc = true :=
  settleFor_settled _ s (settleBound_le s.upc)

theorem settleFor_silent (k : Nat) (s : State) : ∃ u, silentOnly (s.setUpc u) (settleFor k s) := by
  induction k generalizing s with
  | zero => exact ⟨s.upc, silentOnly.refl s⟩
  | succ k ih =>
    rw [settleFor]
    split
    · exact ⟨s.upc, silentOnly.refl s⟩
    · exact ⟨s.upc, silentOnly.refl s⟩
    · rename_i st rest _ _
      obtain ⟨_, _, _, _, _, _, _, _, _, _, _, _, _, he, h1, h2⟩ := unfold_silent st (s.setUpc rest)
      obtain ⟨u, hu⟩ := ih ((unfold st (s.setUpc rest)).1.setUpc ((unfold st (s.setUpc rest)).2 ++ rest))
      refine ⟨u, silentOnly.trans ?_ hu⟩
      rw [he]
      exact ⟨_, _, _, _, _, _, _, _, _, _, _, _, _, rfl, h1, h2⟩

/-- All that settling can do besides moving upc. -/
theorem settle_silent (s : State) : ∃ u, silentOnly (s.setUpc u) (settle s) := settleFor_silent _ s

/-- An idle engine does nothing (R235). -/
theorem engineStep_idle {s : State} (h : s.upc = []) : engineStep s = s := by simp [engineStep, h]

/-- All that one engine step can do besides moving upc: at most one micro-action, then silent statements. -/
theorem engineStep_spec (s : State) :
    settledUpc (engineStep s).upc = true ∧
      (engineStep s = s ∨ (∃ u, silentOnly (s.setUpc u) (engineStep s)) ∨
        ∃ a u, silentOnly ((perform a s).setUpc u) (engineStep s)) := by
  unfold engineStep
  split
  · rename_i h
    exact ⟨by rw [h]; rfl, .inl rfl⟩
  · rename_i a rest _
    refine ⟨settle_settled _, .inr (.inr ⟨a, ?_⟩)⟩
    obtain ⟨u, hu⟩ := settle_silent (perform a (s.setUpc rest))
    refine ⟨u, ?_⟩
    have e : (perform a (s.setUpc rest)).setUpc u = (perform a s).setUpc u := by
      cases a with
      | float l => cases l <;> rfl
      | driveLow l => cases l <;> rfl
      | sample l => cases l <;> rfl
      | delay d => rfl
    rwa [e] at hu
  · exact ⟨settle_settled _, .inr (.inl (settle_silent s))⟩

end Sys2Proof.Machine
end

