-- ==== Sys2Proof/Laws/Exec.lean ====
section
/-! SUPPORT. What an operation may change at all, and what a write to a CFG register may do. -/

namespace Sys2Proof.Machine

/-- What an operation may change: nothing of the host port, and of the buffer only within its canonical form. -/
def operationOnly (s t : State) : Prop :=
  ∃ (dc dd : Dir) (n : Nat) (es : List Event) (b : Bit) (ps : List EnvPhase)
      (sr pc tr ix le cy lc ac rx : Byte) (bc : BitVec 4) (r : Result) (m : Memory),
    t = { s with
      dirClock := dc, dirData := dd, now := n, trace := es, bitv := b, env := ps,
      sr := sr, bitcnt := bc, pollcnt := pc, trycnt := tr, idx := ix, len := le, cyc := cy, loopc := lc,
      ackcnt := ac, rxdata := rx, result := r, buf := m } ∧
    (Memory.wf s.buf → Memory.wf m)

theorem operationOnly.trans {s t u : State} (h : operationOnly s t) (k : operationOnly t u) : operationOnly s u := by
  obtain ⟨_, _, _, _, _, _, _, _, _, _, _, _, _, _, _, _, _, _, rfl, h1⟩ := h
  obtain ⟨_, _, _, _, _, _, _, _, _, _, _, _, _, _, _, _, _, _, rfl, k1⟩ := k
  exact ⟨_, _, _, _, _, _, _, _, _, _, _, _, _, _, _, _, _, _, rfl, fun h => k1 (h1 h)⟩

theorem linesOnly.op {s t : State} (h : linesOnly s t) : operationOnly s t := by
  obtain ⟨_, _, _, _, rfl⟩ := h
  exact ⟨_, _, _, _, _, _, _, _, _, _, _, _, _, _, _, _, _, _, rfl, id⟩

theorem cyclesOnly.op {s t : State} (h : cyclesOnly s t) : operationOnly s t := by
  obtain ⟨_, _, _, _, _, rfl⟩ := h
  exact ⟨_, _, _, _, _, _, _, _, _, _, _, _, _, _, _, _, _, _, rfl, id⟩

theorem bitsOnly.op {s t : State} (h : bitsOnly s t) : operationOnly s t := by
  obtain ⟨_, _, _, _, _, _, rfl⟩ := h
  exact ⟨_, _, _, _, _, _, _, _, _, _, _, _, _, _, _, _, _, _, rfl, id⟩

theorem writeOnly.op {s t : State} (h : writeOnly s t) : operationOnly s t := by
  obtain ⟨_, _, _, _, _, _, _, _, _, _, rfl⟩ := h
  exact ⟨_, _, _, _, _, _, _, _, _, _, _, _, _, _, _, _, _, _, rfl, id⟩

theorem readOnly.op {s t : State} (h : readOnly s t) : operationOnly s t := by
  obtain ⟨_, _, _, _, _, _, _, _, rfl⟩ := h
  exact ⟨_, _, _, _, _, _, _, _, _, _, _, _, _, _, _, _, _, _, rfl, id⟩

theorem powerOnly.op {s t : State} (h : powerOnly s t) : operationOnly s t := by
  obtain ⟨_, _, _, _, _, _, rfl⟩ := h
  exact ⟨_, _, _, _, _, _, _, _, _, _, _, _, _, _, _, _, _, _, rfl, id⟩

theorem commandOnly.op {s t : State} (h : commandOnly s t) : operationOnly s t := by
  obtain ⟨_, _, _, _, _, _, _, _, _, _, _, _, _, _, rfl⟩ := h
  exact ⟨_, _, _, _, _, _, _, _, _, _, _, _, _, _, _, _, _, _, rfl, id⟩

theorem dataOnly.op {s t : State} (h : dataOnly s t) : operationOnly s t := by
  obtain ⟨_, _, _, _, _, _, _, _, _, _, _, _, _, rfl⟩ := h
  exact ⟨_, _, _, _, _, _, _, _, _, _, _, _, _, _, _, _, _, _, rfl, id⟩

theorem waitOnly.op {s t : State} (h : waitOnly s t) : operationOnly s t := by
  obtain ⟨_, _, _, _, _, _, _, rfl⟩ := h
  exact ⟨_, _, _, _, _, _, _, _, _, _, _, _, _, _, _, _, _, _, rfl, id⟩

theorem answerByte_op (s : State) : operationOnly s (answerByte s) := (answerByte_frame s).op

theorem setLen_op (s : State) (v : Byte) : operationOnly s (s.setLen v) :=
  ⟨_, _, _, _, _, _, _, _, _, _, _, _, _, _, _, _, _, _, rfl, id⟩

theorem setIdx_op (s : State) (v : Byte) : operationOnly s (s.setIdx v) :=
  ⟨_, _, _, _, _, _, _, _, _, _, _, _, _, _, _, _, _, _, rfl, id⟩

theorem setTrycnt_op (s : State) (v : Byte) : operationOnly s (s.setTrycnt v) :=
  ⟨_, _, _, _, _, _, _, _, _, _, _, _, _, _, _, _, _, _, rfl, id⟩

theorem setLoopc_op (s : State) (v : Byte) : operationOnly s (s.setLoopc v) :=
  ⟨_, _, _, _, _, _, _, _, _, _, _, _, _, _, _, _, _, _, rfl, id⟩

theorem finish_op (s : State) (v : Result) : operationOnly s (finish v s) :=
  ⟨_, _, _, _, _, _, _, _, _, _, _, _, _, _, _, _, _, _, rfl, id⟩

theorem storeAtIdx_op (s : State) (v : Byte) : operationOnly s (s.storeAtIdx v) :=
  ⟨_, _, _, _, _, _, _, _, _, _, _, _, _, _, _, _, _, _, rfl, fun h => bufWrite_wf _ _ h⟩

theorem receiveLoop_frame_op (k : Nat) (s : State) : operationOnly s (receiveLoop k s) := by
  induction k generalizing s with
  | zero => exact (linesOnly.refl s).op
  | succ k ih =>
    refine operationOnly.trans ?_ (ih _)
    exact (((readByte_frame s).op.trans (storeAtIdx_op _ _)).trans (answerByte_op _)).trans (setIdx_op _ _)

/-- All that `exec` can do when it answers a next state. -/
theorem exec_frame (i : Instr) (s t : State) (h : exec i s = .next t) :
    (i = .sendCommand 0 ∧ t = s.markIllegal) ∨ (i ≠ .sendCommand 0 ∧ operationOnly s t) := by
  cases i with
  | sendCommand len =>
    simp only [exec, execSendCommand] at h
    split at h
    · cases h; subst len; exact .inl ⟨rfl, rfl⟩
    · cases h
      refine .inr ⟨by simpa, ?_⟩
      have h1 : operationOnly s (tryLoop ((s.setLen len).setTrycnt 0).tryBound ((s.setLen len).setTrycnt 0)) :=
        ((setLen_op _ _).trans (setTrycnt_op _ _)).trans (tryLoop_frame _ _).op
      simp only [sendCommand]
      generalize tryLoop ((s.setLen len).setTrycnt 0).tryBound ((s.setLen len).setTrycnt 0) = w at *
      split
      · have h2 := (h1.trans (setIdx_op w 1)).trans (sendLoop_frame (len.toNat - 1) _).op
        split <;> (rename_i e; rw [e] at h2; exact h2.trans (finish_op _ _))
      · exact h1.trans (finish_op _ _)
  | sendData len =>
    cases h
    refine .inr ⟨by simp, ?_⟩
    have h2 := (((setLen_op s len).trans (setIdx_op _ 0)).trans (sendLoop_frame len.toNat _).op)
    simp only [sendData]
    split <;> (rename_i e; rw [e] at h2; exact (h2.trans (stop_frame _).op).trans (finish_op _ _))
  | receiveData len =>
    cases h
    refine .inr ⟨by simp, ?_⟩
    exact ((((setLen_op s len).trans (setIdx_op _ 0)).trans (receiveLoop_frame_op _ _)).trans (stop_frame _).op).trans
      (finish_op _ _)
  | waitClock k =>
    cases h
    refine .inr ⟨by simp, ?_⟩
    exact (((setLoopc_op s k).trans (dataLow_frame _).op).trans (waitLoop_frame _ _).op).trans (finish_op _ _)
  | powerOn =>
    cases h
    refine .inr ⟨by simp, ?_⟩
    exact ((((dataHigh_frame s).trans (clockLow_frame _)).op).trans (clockCycles_frame _ _).op).trans (finish_op _ _)
  | float l => cases h; exact .inr ⟨by simp, (floatLine_frame _ _).op⟩
  | driveLow l => cases h; exact .inr ⟨by simp, (driveLine_frame _ _).op⟩
  | sample l => cases h; exact .inr ⟨by simp, (sampleLine_frame _ _).op⟩
  | clockHigh => cases h; exact .inr ⟨by simp, (clockHigh_frame _).op⟩
  | clockLow => cases h; exact .inr ⟨by simp, (clockLow_frame _).op⟩
  | clockCycle => cases h; exact .inr ⟨by simp, (clockCycle_frame _).op⟩
  | clockCycles n => cases h; exact .inr ⟨by simp, (clockCycles_frame _ _).op⟩
  | dataHigh => cases h; exact .inr ⟨by simp, (dataHigh_frame _).op⟩
  | dataLow => cases h; exact .inr ⟨by simp, (dataLow_frame _).op⟩
  | readDataBit => cases h; exact .inr ⟨by simp, (readDataBit_frame _).op⟩
  | writeByte v => cases h; exact .inr ⟨by simp, (writeByte_frame _ _).op⟩
  | readByte => cases h; exact .inr ⟨by simp, (readByte_frame _).op⟩
  | sendAck => cases h; exact .inr ⟨by simp, (sendAck_frame _).op⟩
  | sendNak => cases h; exact .inr ⟨by simp, (sendNak_frame _).op⟩
  | start => cases h; exact .inr ⟨by simp, (start_frame _).op⟩
  | stop => cases h; exact .inr ⟨by simp, (stop_frame _).op⟩

/-- All that a write to a CFG register can do (R35, R256). -/
theorem writeCfg_cases (za : Bool) (f : Byte → State → State) (v : Byte) (s : State) :
    writeCfg za f v s = s.markOverrun ∨ writeCfg za f v s = s.markIllegal ∨
      (¬(v = 0 ∧ za = false) ∧ writeCfg za f v s = f v s) := by
  unfold writeCfg
  split
  · exact .inl rfl
  · split
    · exact .inr (.inl rfl)
    · exact .inr (.inr ⟨by assumption, rfl⟩)

end Sys2Proof.Machine
end

