-- ==== Sys2Proof/Laws/Loops.lean ====
section
/-! SUPPORT. What each loop of the operations does, said once: the tokens it adds, where it leaves the registers and the
lines, and what it leaves alone. -/

namespace Sys2Proof.Machine

/-! Register writes leave the trace alone, and the frames of the loops leave the buffer and the bounds. -/

theorem linesOnly.buf {s t : State} (h : linesOnly s t) : t.buf = s.buf := by
  obtain ⟨_, _, _, _, rfl⟩ := h; rfl

theorem linesOnly.bitcnt {s t : State} (h : linesOnly s t) : t.bitcnt = s.bitcnt := by
  obtain ⟨_, _, _, _, rfl⟩ := h; rfl

theorem linesOnly.sr {s t : State} (h : linesOnly s t) : t.sr = s.sr := by
  obtain ⟨_, _, _, _, rfl⟩ := h; rfl

theorem linesOnly.env {s t : State} (h : linesOnly s t) : t.env = s.env := by
  obtain ⟨_, _, _, _, rfl⟩ := h; rfl

theorem linesOnly.bitv {s t : State} (h : linesOnly s t) : t.bitv = s.bitv := by
  obtain ⟨_, _, _, _, rfl⟩ := h; rfl

theorem linesOnly.cfgAckMax {s t : State} (h : linesOnly s t) : t.cfgAckMax = s.cfgAckMax := by
  obtain ⟨_, _, _, _, rfl⟩ := h; rfl

theorem writeOnly.cfgAckMax {s t : State} (h : writeOnly s t) : t.cfgAckMax = s.cfgAckMax := by
  obtain ⟨_, _, _, _, _, _, _, _, _, _, rfl⟩ := h; rfl

theorem bitsOnly.bitcnt {s t : State} (h : bitsOnly s t) : t.bitcnt = s.bitcnt := by
  obtain ⟨_, _, _, _, _, _, rfl⟩ := h; rfl

theorem bitsOnly.pollcnt {s t : State} (h : bitsOnly s t) : t.pollcnt = s.pollcnt := by
  obtain ⟨_, _, _, _, _, _, rfl⟩ := h; rfl

theorem bitsOnly.bufRead {s t : State} (h : bitsOnly s t) (j : Byte) : t.bufRead j = s.bufRead j := by
  obtain ⟨_, _, _, _, _, _, rfl⟩ := h; rfl

theorem writeOnly.bufRead {s t : State} (h : writeOnly s t) (j : Byte) : t.bufRead j = s.bufRead j := by
  obtain ⟨_, _, _, _, _, _, _, _, _, _, rfl⟩ := h; rfl

theorem readOnly.bufRead {s t : State} (h : readOnly s t) (j : Byte) : t.bufRead j = s.bufRead j := by
  obtain ⟨_, _, _, _, _, _, _, _, rfl⟩ := h; rfl

@[simp] theorem State.tokens_bufWrite (s : State) (i v : Byte) : (s.bufWrite i v).tokens = s.tokens := rfl

/-! The acknowledgment detector (R152). -/

/-- All that the poll loop can do with `k` attempts left. -/
theorem pollLoop_spec (k : Nat) (s : State) (hk : s.pollcnt.toNat + k < 256) :
    ∃ polls : List Bit,
      (pollLoop k s).tokens = s.tokens ++ polls.flatMap traceReadBit ∧
      ((∃ j < k, polls = List.replicate j 1 ++ [0] ∧ (pollLoop k s).ackcnt = 0 ∧
          (pollLoop k s).pollcnt.toNat = s.pollcnt.toNat + j) ∨
        (polls = List.replicate k 1 ∧ (pollLoop k s).ackcnt.toNat = s.pollcnt.toNat + k ∧
          (pollLoop k s).pollcnt.toNat = s.pollcnt.toNat + k)) ∧
      (k ≠ 0 → polls.getLast? = some (pollLoop k s).bitv) ∧
      (pollLoop k s).dirClock = s.dirClock ∧
      (pollLoop k s).dirData = (if k = 0 then s.dirData else .input) := by
  induction k generalizing s with
  | zero => exact ⟨[], by simp [pollLoop], .inr ⟨rfl, rfl, rfl⟩, by simp, rfl, rfl⟩
  | succ k ih =>
    have hb := readDataBit_frame s
    simp only [pollLoop]
    split
    · rename_i h
      have h0 : (readDataBit s).bitv = 0 := by simpa [State.readLow] using h
      refine ⟨[0], by simp [h0], .inl ⟨0, by omega, rfl, rfl, ?_⟩, by simp [h0], by simp, by simp⟩
      simp [hb.pollcnt]
    · rename_i h
      have h1 : (readDataBit s).bitv = 1 := by
        rcases BitVec.eq_zero_or_eq_one (readDataBit s).bitv with h0 | h0
        · simp [State.readLow, h0] at h
        · exact h0
      have hp : ((readDataBit s).setPollcnt ((readDataBit s).pollcnt + 1)).pollcnt.toNat = s.pollcnt.toNat + 1 := by
        simp [hb.pollcnt]; omega
      obtain ⟨ps, ht, hc, hl, hdc, hdd⟩ :=
        ih ((readDataBit s).setPollcnt ((readDataBit s).pollcnt + 1)) (by omega)
      rw [hp] at hc
      refine ⟨1 :: ps, by rw [ht]; simp [h1], ?_, ?_, hdc.trans (by simp), hdd.trans (by simp)⟩
      · rcases hc with ⟨j, hj, rfl, ha, hq⟩ | ⟨rfl, ha, hq⟩
        · exact .inl ⟨j + 1, by omega, rfl, ha, by omega⟩
        · exact .inr ⟨rfl, by omega, by omega⟩
      · intro _
        by_cases hk0 : k = 0
        · subst hk0
          rcases hc with ⟨j, hj, _⟩ | ⟨rfl, _⟩
          · omega
          · simp [pollLoop, h1]
        · rw [List.getLast?_cons, hl hk0]; rfl

/-! The bits of WRITEBYTE (R150, R151). -/

theorem sendBit_sr (s : State) : (sendBit s).sr = s.sr := (sendBit_frame s).sr

/-- All that the bit loop of WRITEBYTE does: SR moves up one place a bit, the bit in its top place is sent. -/
theorem writeLoop_spec (k : Nat) (s : State) :
    (writeLoop k s).tokens =
        s.tokens ++ (List.range k).flatMap (fun j => traceSendBit ((s.sr <<< j).getLsbD 7)) ∧
      (writeLoop k s).sr = s.sr <<< k ∧ (writeLoop k s).bitcnt = s.bitcnt + BitVec.ofNat 4 k := by
  induction k generalizing s with
  | zero => simp [writeLoop]
  | succ k ih =>
    have h1 : (clockLow s).sr = s.sr := (clockLow_frame s).sr
    have hsr : (clockHigh (sendBit (clockLow s))).sr = s.sr := by
      rw [(clockHigh_frame _).sr, sendBit_sr, h1]
    have hbc : (clockHigh (sendBit (clockLow s))).bitcnt = s.bitcnt := by
      rw [(clockHigh_frame _).bitcnt, (sendBit_frame _).bitcnt, (clockLow_frame _).bitcnt]
    have hs : (clockLow s).sendsOne = s.sr.getLsbD 7 := by rw [State.sendsOne, h1]
    have ht : (shiftBit (clockHigh (sendBit (clockLow s)))).tokens = s.tokens ++ traceSendBit (s.sr.getLsbD 7) := by
      simp [shiftBit, sendBit_tokens, hs, traceSendBit]
    have hsr' : (shiftBit (clockHigh (sendBit (clockLow s)))).sr = s.sr <<< 1 := by
      simp [shiftBit, hsr, shiftLeft]
    have hbc' : (shiftBit (clockHigh (sendBit (clockLow s)))).bitcnt = s.bitcnt + 1 := by
      simp [shiftBit, hbc]
    obtain ⟨i1, i2, i3⟩ := ih (shiftBit (clockHigh (sendBit (clockLow s))))
    refine ⟨?_, ?_, ?_⟩
    · have hj : ∀ j, s.sr <<< 1 <<< j = s.sr <<< (j + 1) := fun j => by rw [← BitVec.shiftLeft_add, Nat.add_comm]
      rw [writeLoop, i1, ht, hsr', List.range_succ_eq_map]
      simp only [hj, List.flatMap_cons, List.flatMap_map, List.append_assoc, BitVec.shiftLeft_zero, Nat.succ_eq_add_one]
    · rw [writeLoop, i2, hsr', ← BitVec.shiftLeft_add, Nat.add_comm]
    · rw [writeLoop, i3, hbc', BitVec.ofNat_add, BitVec.add_assoc, BitVec.add_comm (1 : BitVec 4)]; rfl

/-- Eight bits are the byte's, bit 7 first. -/
theorem sendBits_eq (v : Byte) :
    (List.range 8).flatMap (fun j => traceSendBit ((v <<< j).getLsbD 7)) = traceSendBits v := by
  simp [List.range_succ, traceSendBits]

theorem sendBit_env (s : State) : (sendBit s).env = s.env := (sendBit_frame s).env

theorem writeLoop_env (k : Nat) (s : State) : (writeLoop k s).env = s.env := by
  induction k generalizing s with
  | zero => rfl
  | succ k ih => simp [writeLoop, ih, shiftBit, sendBit_env]

/-- WRITEBYTE up to its polls: the bits and the acknowledge window, with both lines floating and nothing sampled. -/
theorem writeByte_polls (value : Byte) (s : State) :
    ∃ u, writeByte value s = pollLoop s.cfgAckMax.toNat u ∧
      u.tokens = s.tokens ++ traceSendBits value ++ (traceClockLow ++ traceDataHigh ++ traceClockHigh) ∧
      u.pollcnt = 0 ∧ u.sr = 0 ∧ u.bitcnt = 8 ∧ u.dirClock = .input ∧ u.dirData = .input ∧ u.env = s.env ∧
      writeOnly s u := by
  have ha : writeOnly s ((s.setSr value).setBitcnt 0) := ⟨_, _, _, _, _, _, _, _, _, _, rfl⟩
  have hf := ha.trans (writeLoop_frame 8 ((s.setSr value).setBitcnt 0))
  obtain ⟨ht, hs, hb⟩ := writeLoop_spec 8 ((s.setSr value).setBitcnt 0)
  have he := writeLoop_env 8 ((s.setSr value).setBitcnt 0)
  have hw : writeByte value s =
      ackPoll (clockHigh (dataHigh (clockLow (writeLoop 8 ((s.setSr value).setBitcnt 0))))) := rfl
  generalize writeLoop 8 ((s.setSr value).setBitcnt 0) = w at hf ht hs hb he hw
  have hl : linesOnly w (clockHigh (dataHigh (clockLow w))) :=
    ((clockLow_frame _).trans (dataHigh_frame _)).trans (clockHigh_frame _)
  have hu : writeOnly s ((clockHigh (dataHigh (clockLow w))).setPollcnt 0) :=
    hf.trans (hl.bits.write.trans ⟨_, _, _, _, _, _, _, _, _, _, rfl⟩)
  have hcfg : (clockHigh (dataHigh (clockLow w))).cfgAckMax = s.cfgAckMax := hl.cfgAckMax.trans hf.cfgAckMax
  have hw' : w.tokens = s.tokens ++ traceSendBits value := by
    rw [ht, State.setBitcnt_sr, State.setSr_sr, sendBits_eq, State.tokens_setBitcnt, State.tokens_setSr]
  refine ⟨(clockHigh (dataHigh (clockLow w))).setPollcnt 0, ?_, ?_, rfl, ?_, ?_, rfl, rfl, ?_, hu⟩
  · rw [hw, ackPoll, State.pollBound, hcfg]
  · simp [hw']
  · rw [State.setPollcnt_sr, hl.sr, hs, State.setBitcnt_sr, State.setSr_sr]
    simp
  · rw [State.setPollcnt_bitcnt, hl.bitcnt, hb]; rfl
  · rw [State.setPollcnt_env, hl.env, he]; rfl

/-! READBYTE (R155). -/

/-- The byte that bits make, one after another, from what is assembled so far. -/
def placeBits : Byte → BitVec 4 → List Bit → Byte
  | v, _, [] => v
  | v, c, b :: bs => placeBits (placeBit v c b) (c + 1) bs

/-- Eight bits placed in a zero byte from BITCNT 0 make the byte whose bit 7 is the first of them. -/
theorem placeBits_eight (bits : List Bit) (h : bits.length = 8) : placeBits 0 0 bits = byteOfBits bits := by
  match bits, h with
  | [a, b, c, d, e, f, g, i], _ =>
    rcases BitVec.eq_zero_or_eq_one a with rfl | rfl <;> rcases BitVec.eq_zero_or_eq_one b with rfl | rfl <;>
    rcases BitVec.eq_zero_or_eq_one c with rfl | rfl <;> rcases BitVec.eq_zero_or_eq_one d with rfl | rfl <;>
    rcases BitVec.eq_zero_or_eq_one e with rfl | rfl <;> rcases BitVec.eq_zero_or_eq_one f with rfl | rfl <;>
    rcases BitVec.eq_zero_or_eq_one g with rfl | rfl <;> rcases BitVec.eq_zero_or_eq_one i with rfl | rfl <;> rfl

/-- All that the bit loop of READBYTE does. -/
theorem readLoop_spec (k : Nat) (v : Byte) (s : State) :
    ∃ bits : List Bit, bits.length = k ∧
      (readLoop k v s).tokens =
        s.tokens ++ bits.flatMap (fun b => traceClockCycle ++ traceReadBit b ++ traceClockLow) ∧
      (readLoop k v s).rxdata = placeBits v s.bitcnt bits ∧
      (readLoop k v s).bitcnt = s.bitcnt + BitVec.ofNat 4 k ∧
      (k ≠ 0 → bits.getLast? = some (readLoop k v s).bitv) ∧
      (readLoop k v s).dirClock = (if k = 0 then s.dirClock else .output) ∧
      (readLoop k v s).dirData = (if k = 0 then s.dirData else .input) := by
  induction k generalizing v s with
  | zero => exact ⟨[], rfl, by simp [readLoop], rfl, by simp [readLoop], by simp, rfl, rfl⟩
  | succ k ih =>
    have hbit : (readDataBit (clockCycle s)).bitcnt = s.bitcnt := by
      rw [(readDataBit_frame _).bitcnt, (clockCycle_frame _).bitcnt]
    have hlow : (clockLow (readDataBit (clockCycle s))).bitcnt = s.bitcnt := by
      rw [(clockLow_frame _).bitcnt, hbit]
    have hbv : (clockLow (readDataBit (clockCycle s))).bitv = (readDataBit (clockCycle s)).bitv :=
      (clockLow_frame _).bitv
    obtain ⟨bs, hl, ht, hr, hc, hv, hdc, hdd⟩ :=
      ih (placeBit v s.bitcnt (readDataBit (clockCycle s)).bitv)
        ((clockLow (readDataBit (clockCycle s))).setBitcnt (s.bitcnt + 1))
    have e : readLoop (k + 1) v s = readLoop k (placeBit v s.bitcnt (readDataBit (clockCycle s)).bitv)
        ((clockLow (readDataBit (clockCycle s))).setBitcnt (s.bitcnt + 1)) := by
      simp only [readLoop, hbit, hlow]
    rw [e]
    refine ⟨(readDataBit (clockCycle s)).bitv :: bs, by simp [hl], by rw [ht]; simp, hr, ?_, fun _ => ?_,
      hdc.trans (by simp), hdd.trans (by simp)⟩
    · rw [hc, State.setBitcnt_bitcnt, BitVec.ofNat_add, BitVec.add_assoc, BitVec.add_comm (1 : BitVec 4)]; rfl
    · by_cases hk : k = 0
      · subst hk
        obtain rfl := List.length_eq_zero_iff.1 hl
        simp [readLoop, hbv]
      · rw [List.getLast?_cons, hv hk]; rfl

end Sys2Proof.Machine
end

