-- ==== Sys2Proof/Laws/PerInstr.lean ====
section
/-! SUPPORT. Per operation, as syntax: its command word selects its own row of the opcode table (R91, R92). -/

namespace Sys2Proof.Laws.EncodesRow

/-- The command word has the row's fixed bits. -/
def Statement (i : Instr) : Prop := encode i &&& (rowOf i).mask = (rowOf i).pattern

theorem float (l : Line) : Statement (.float l) := by
  unfold Statement
  cases l <;> decide

theorem driveLow (l : Line) : Statement (.driveLow l) := by
  unfold Statement
  cases l <;> decide

theorem sample (l : Line) : Statement (.sample l) := by
  unfold Statement
  cases l <;> decide

theorem clockHigh : Statement .clockHigh := by
  unfold Statement
  decide

theorem clockLow : Statement .clockLow := by
  unfold Statement
  decide

theorem clockCycle : Statement .clockCycle := by
  unfold Statement
  decide

theorem clockCycles (n : Byte) : Statement (.clockCycles n) := by
  unfold Statement
  revert n
  decide

theorem dataHigh : Statement .dataHigh := by
  unfold Statement
  decide

theorem dataLow : Statement .dataLow := by
  unfold Statement
  decide

theorem readDataBit : Statement .readDataBit := by
  unfold Statement
  decide

theorem writeByte (value : Byte) : Statement (.writeByte value) := by
  unfold Statement
  revert value
  decide

theorem readByte : Statement .readByte := by
  unfold Statement
  decide

theorem sendAck : Statement .sendAck := by
  unfold Statement
  decide

theorem sendNak : Statement .sendNak := by
  unfold Statement
  decide

theorem start : Statement .start := by
  unfold Statement
  decide

theorem stop : Statement .stop := by
  unfold Statement
  decide

theorem powerOn : Statement .powerOn := by
  unfold Statement
  decide

theorem sendCommand (len : Byte) : Statement (.sendCommand len) := by
  unfold Statement
  revert len
  decide

theorem sendData (len : Byte) : Statement (.sendData len) := by
  unfold Statement
  revert len
  decide

theorem receiveData (len : Byte) : Statement (.receiveData len) := by
  unfold Statement
  revert len
  decide

theorem waitClock (loopCount : Byte) : Statement (.waitClock loopCount) := by
  unfold Statement
  revert loopCount
  decide

end Sys2Proof.Laws.EncodesRow
end

