-- ==== Sys2Proof/Tests/Slice0.lean ====
section
/-! SUPPORT. Tests. The expected values are the spec's: the encodings of spec/30_encoding.md, written out bit by bit, and
the vectors of spec/95_test_vectors.md, whose numbers stand in the comments. A vector's state is reset with the small
parameters the vector gives and a script of the Sample answers it gives. After them, a witness for each obligation with
hypotheses. -/

namespace Sys2Proof.Tests

open Sys2Proof.Machine

/-- A state with the vector's bounds and Sample answers, and two bytes in BUF that no vector uses. -/
def probe (polls tries clocks : Byte) (answers : List Bit) : State :=
  { State.reset with
    cfgAckMax := polls, cfgStartMax := tries, cfgPwrClks := clocks, env := answers.map answering,
    buf := [(0, 0xA0), (1, 0x01), (2, 0x02), (200, 0x77)] }

/-- The same with both lines at given directions. -/
def pins (c d : Dir) (s : State) : State := { s with dirClock := c, dirData := d }

/-- The state after an operation. -/
def after (i : Instr) (s : State) : State :=
  match exec i s with
  | .next t => t
  | .fault _ => s
  | .refused _ => s

/-- The state after a step. -/
def stepped (s : State) : State :=
  match step s with
  | .next t => t
  | .fault _ => s
  | .refused _ => s

def cf : Token := .float .clock
def cl : Token := .driveLow .clock
def df : Token := .float .data
def dl : Token := .driveLow .data
def ds (v : Bit) : Token := .sample .data v

/-! WellFormed: its one check is that SENDCOMMAND sends at least one byte (R194). -/

theorem test_sendCommand_zero_is_ill_formed : (Instr.sendCommand 0).wellFormed = false := by decide
theorem test_sendCommand_one_is_well_formed : (Instr.sendCommand 1).wellFormed = true := by decide
theorem test_sendData_zero_is_well_formed : (Instr.sendData 0).wellFormed = true := by decide

/-! Decoding: one word of each operation, `op` in bits 15..8 and `imm8` in bits 7..0 (R90, R92). -/

theorem test_decode_float : decode 0b00000001_00000001 = .ok (.float .data) := by decide
theorem test_decode_driveLow : decode 0b00000010_00000000 = .ok (.driveLow .clock) := by decide
theorem test_decode_sample : decode 0b00000011_00000001 = .ok (.sample .data) := by decide
theorem test_decode_clockHigh : decode 0b00010000_00000000 = .ok .clockHigh := by decide
theorem test_decode_clockLow : decode 0b00010001_00000000 = .ok .clockLow := by decide
theorem test_decode_clockCycle : decode 0b00010010_00000000 = .ok .clockCycle := by decide
theorem test_decode_clockCycles : decode 0b00010011_11111111 = .ok (.clockCycles 255) := by decide
theorem test_decode_dataHigh : decode 0b00010100_00000000 = .ok .dataHigh := by decide
theorem test_decode_dataLow : decode 0b00010101_00000000 = .ok .dataLow := by decide
theorem test_decode_readDataBit : decode 0b00010110_00000000 = .ok .readDataBit := by decide
theorem test_decode_writeByte : decode 0b00100000_10100101 = .ok (.writeByte 0xA5) := by decide
theorem test_decode_readByte : decode 0b00100001_00000000 = .ok .readByte := by decide
theorem test_decode_sendAck : decode 0b00110000_00000000 = .ok .sendAck := by decide
theorem test_decode_sendNak : decode 0b00110001_00000000 = .ok .sendNak := by decide
theorem test_decode_start : decode 0b01000000_00000000 = .ok .start := by decide
theorem test_decode_stop : decode 0b01000001_00000000 = .ok .stop := by decide
theorem test_decode_powerOn : decode 0b01000010_00000000 = .ok .powerOn := by decide
theorem test_decode_sendCommand : decode 0b01010000_00000011 = .ok (.sendCommand 3) := by decide
theorem test_decode_sendData : decode 0b01010001_00000010 = .ok (.sendData 2) := by decide
theorem test_decode_receiveData : decode 0b01010010_00000011 = .ok (.receiveData 3) := by decide
theorem test_decode_waitClock : decode 0b01010011_00000001 = .ok (.waitClock 1) := by decide
/-- The gaps of R99 at their edges. -/
theorem test_decode_reserved :
    ([0x00, 0x04, 0x0F, 0x17, 0x1F, 0x22, 0x2F, 0x32, 0x3F, 0x43, 0x4F, 0x54, 0xFF] : List Byte).all
      (fun op => decide (decode (packWord op 0) = .error (.reservedOpcode op))) = true := by decide
theorem test_decode_format_n : decode 0x4001 = .error (.operandNotZero 0x40 0x01) := by decide
theorem test_decode_format_l : decode 0x0180 = .error (.lineBitsNotZero 0x01 0x80) := by decide

/-! Operations, at most two tests each. -/

/-- V1. -/
theorem test_float_driven_clock :
    (after (.float .clock) (pins .output .output (probe 3 3 3 []))).pinTrace = [cf] ∧
    (after (.float .clock) (pins .output .output (probe 3 3 3 []))).dirClock = .input ∧
    (after (.float .clock) (pins .output .output (probe 3 3 3 []))).dirData = .output := by decide

/-- R11: a clock that the environment lets rise makes no clock edge. -/
theorem test_environment_makes_no_edge :
    let u := stepped ((probe 3 3 3 []).setHost [.environment ⟨true, false, 0⟩, .environment ⟨false, false, 0⟩])
    u.level .clock = 0 ∧ (stepped u).level .clock = 1 ∧ riseCount (newEvents u (stepped u)) = 0 := by decide

/-- R11: a reset that lets the clock rise makes no clock edge, and a Float of it makes one. -/
theorem test_reset_makes_no_edge :
    let d := pins .output .input (probe 3 3 3 [1])
    (stepped (d.setHost [.reset])).level .clock = 1 ∧ riseCount (stepped (d.setHost [.reset])).trace = 0 ∧
    riseCount (after (.float .clock) d).trace = 1 := by decide

/-- V2: on an idle bus the falling data line is a start signature. -/
theorem test_driveLow_data :
    (after (.driveLow .data) (probe 3 3 3 [1])).pinTrace = [dl] ∧
    (after (.driveLow .data) (probe 3 3 3 [1])).dirData = .output ∧
    startCount (probe 3 3 3 [1]) (after (.driveLow .data) (probe 3 3 3 [1])) = 1 := by decide

/-- V4. -/
theorem test_sample_device_low : (after (.sample .data) (probe 3 3 3 [0])).pinTrace = [ds 0] := by decide
/-- V7. -/
theorem test_sample_clock : (after (.sample .clock) (probe 3 3 3 [0])).bitv = 1 := by decide

/-- V10. -/
theorem test_clockHigh : (after .clockHigh (pins .output .input (probe 3 3 3 []))).tokens =
    [.delay .chPre, cf, .delay .chPost] := by decide
/-- V11. -/
theorem test_clockLow : (after .clockLow (probe 3 3 3 [])).tokens = [cl, .delay .clA, .delay .clB] := by decide
/-- V12. -/
theorem test_clockCycle : (after .clockCycle (probe 3 3 3 [])).tokens =
    [cl, .delay .clA, .delay .clB, .delay .chPre, cf, .delay .chPost] := by decide
/-- V13. -/
theorem test_clockCycles_zero : (after (.clockCycles 0) (pins .output .output (probe 3 3 3 []))).tokens = [] ∧
    (after (.clockCycles 0) (pins .output .output (probe 3 3 3 []))).dirClock = .output := by decide
/-- V14. -/
theorem test_clockCycles_two : (after (.clockCycles 2) (pins .output .output (probe 3 3 3 []))).pinTrace =
    [cl, cf, cl, cf] := by decide
/-- V15. -/
theorem test_dataHigh : (after .dataHigh (pins .output .output (probe 3 3 3 []))).tokens = [df, .delay .dh] := by decide
/-- V16. -/
theorem test_dataLow : (after .dataLow (pins .output .input (probe 3 3 3 []))).tokens = [dl, .delay .dl] := by decide
/-- V17. -/
theorem test_readDataBit_low : (after .readDataBit (pins .input .output (probe 3 3 3 [0]))).tokens =
    [df, .delay .rd, ds 0] := by decide
/-- V18. -/
theorem test_readDataBit_high : (after .readDataBit (probe 3 3 3 [1])).bitv = 1 := by decide

/-- V30. -/
theorem test_writeByte_trace : (after (.writeByte 0xA5) (probe 3 3 3 [0])).pinTrace =
    [cl, df, cf, cl, dl, cf, cl, df, cf, cl, dl, cf, cl, dl, cf, cl, df, cf, cl, dl, cf, cl, df, cf,
     cl, df, cf, df, ds 0] := by decide +kernel
/-- V34: never acknowledged. -/
theorem test_writeByte_unacknowledged : (after (.writeByte 0x01) (probe 3 3 3 [1, 1, 1])).ackcnt = 3 ∧
    (after (.writeByte 0x01) (probe 3 3 3 [1, 1, 1])).pollcnt = 3 := by decide +kernel

/-- V40. -/
theorem test_readByte : (after .readByte (probe 3 3 3 [0, 0, 0, 1, 0, 0, 0, 1])).rxdata = 0x11 ∧
    (after .readByte (probe 3 3 3 [0, 0, 0, 1, 0, 0, 0, 1])).pinTrace.length = 41 := by decide +kernel
/-- V43: the first sample is bit 7. -/
theorem test_readByte_first_is_bit7 : (after .readByte (probe 3 3 3 [1, 0, 0, 0, 0, 0, 0, 0])).rxdata = 0x80 := by
  decide +kernel

/-- V45. -/
theorem test_sendAck : (after .sendAck (pins .output .input (probe 3 3 3 []))).pinTrace = [dl, cl, cf, cl] := by decide
/-- V47: with the clock floated the opening fall is a start signature. -/
theorem test_sendAck_misused : startCount (probe 3 3 3 [1]) (after .sendAck (probe 3 3 3 [1])) = 1 := by
  decide
/-- V46. -/
theorem test_sendNak : (after .sendNak (pins .output .input (probe 3 3 3 []))).pinTrace = [df, cl, cf, cl] := by decide

/-- V20. -/
theorem test_start : (after .start (probe 3 3 3 [])).pinTrace = [cl, df, cf, dl, cl] := by decide
/-- V22: no stop signature from a driven data line. -/
theorem test_start_no_stop_signature :
    stopCount (pins .input .output (probe 3 3 3 [1])) (after .start (pins .input .output (probe 3 3 3 [1]))) = 0 := by decide
/-- V23. -/
theorem test_stop : (after .stop (probe 3 3 3 [])).pinTrace = [cl, dl, cf, df] := by decide
/-- V25. -/
theorem test_stop_signature :
    stopCount (pins .output .output (probe 3 3 3 [1])) (after .stop (pins .output .output (probe 3 3 3 [1]))) = 1 := by decide
/-- V26. -/
theorem test_powerOn : (after .powerOn (probe 3 3 3 [])).pinTrace = [df, cl, cl, cf, cl, cf, cl, cf] := by
  decide +kernel
/-- V27: the clock is left driven low. -/
theorem test_powerOn_zero : (after .powerOn (probe 3 3 0 [])).dirClock = .output := by decide

/-- V50. -/
theorem test_sendCommand : (after (.sendCommand 3) (probe 2 3 3 [0, 0, 0])).pinTrace.length = 92 ∧
    (after (.sendCommand 3) (probe 2 3 3 [0, 0, 0])).result = .success := by decide +kernel
/-- V52. -/
theorem test_sendCommand_start_failure :
    (after (.sendCommand 3) (probe 2 3 3 [1, 1, 1, 1, 1, 1])).pinTrace.length = 108 ∧
    (after (.sendCommand 3) (probe 2 3 3 [1, 1, 1, 1, 1, 1])).result = .startFailure := by decide +kernel
/-- V60. -/
theorem test_sendData_zero : (after (.sendData 0) (probe 2 3 3 [])).pinTrace = [cl, dl, cf, df] := by decide
/-- V62, with the bytes of `probe`: the first byte is not acknowledged. -/
theorem test_sendData_failure : (after (.sendData 2) (probe 2 3 3 [1, 1])).pinTrace.length = 35 ∧
    (after (.sendData 2) (probe 2 3 3 [1, 1])).result = .dataWriteFailure := by decide +kernel
/-- V64. -/
theorem test_receiveData_zero : (after (.receiveData 0) (probe 2 3 3 [])).pinTrace = [cl, dl, cf, df] ∧
    (after (.receiveData 0) (probe 2 3 3 [])).buf = (probe 2 3 3 []).buf := by decide
/-- V65: the one byte gets the NAK. -/
theorem test_receiveData_one : (after (.receiveData 1) (probe 2 3 3 [0, 1, 1, 1, 1, 1, 1, 0])).buf =
      [(0, 0x7E), (1, 0x01), (2, 0x02), (200, 0x77)] ∧
    ((after (.receiveData 1) (probe 2 3 3 [0, 1, 1, 1, 1, 1, 1, 0])).pinTrace.drop 41) =
      [df, cl, cf, cl, cl, dl, cf, df] := by decide +kernel
/-- V67: data is left driven low. -/
theorem test_waitClock_zero : (after (.waitClock 0) (probe 2 3 3 [])).pinTrace = [dl] ∧
    (after (.waitClock 0) (probe 2 3 3 [])).dirData = .output := by decide
/-- V68. -/
theorem test_waitClock_one : (after (.waitClock 1) (probe 2 3 3 [])).pinTrace.length = 40 ∧
    (after (.waitClock 1) (probe 2 3 3 [])).loopc = 0 := by decide +kernel

/-! Single steps. -/

/-- V58. -/
theorem test_step_illegal : (stepped ((probe 2 3 3 []).setHost [.call 0x5000])).ill = true ∧
    (stepped ((probe 2 3 3 []).setHost [.call 0x5000])).trace = [] := by decide
/-- The placed word runs at once, from reset. -/
theorem test_step_placed : (stepped (State.reset.withFetchWord 16 0x4100)).pinTrace = [cl, dl, cf, df] := by decide
/-- An operation accepted without waiting stands before its first micro-action (R96). -/
theorem test_step_accepts :
    (stepped ((probe 2 3 3 []).setHost [.writeReg 0 0x5100])).upc.head? = some (.act (.driveLow .clock)) := by decide
/-- A write while busy is dropped (R256). -/
theorem test_step_overrun :
    (stepped { probe 2 3 3 [] with upc := [.act (.float .data)], host := [.writeBuf 0 1] }).ovr = true ∧
    (stepped { probe 2 3 3 [] with upc := [.act (.float .data)], host := [.writeBuf 0 1] }).buf =
      (probe 2 3 3 []).buf := by decide
/-- CFG_ACKMAX does not take 0 (R35). -/
theorem test_step_cfg_zero : (stepped ((probe 2 3 3 []).setHost [.writeReg 8 0])).cfgAckMax = 2 ∧
    (stepped ((probe 2 3 3 []).setHost [.writeReg 8 0])).ill = true := by decide
/-- Data that the device lets fall after a Sample, under a high clock, is a start signature, though no micro-action makes
it (R11). -/
theorem test_signature_between_micro_actions :
    startCount (probe 2 3 3 [1, 0]) (after .readDataBit (probe 2 3 3 [1, 0])) = 1 ∧
    signatureTokens Event.isStart (probe 2 3 3 [1, 0]) (after .readDataBit (probe 2 3 3 [1, 0])) = [] := by decide
/-- The environment's own move, data rising under a high clock: a stop signature (R11, R40). -/
theorem test_step_environment :
    stopCount ((probe 2 3 3 [0]).setHost [.environment ⟨false, false, 0⟩])
      (stepped ((probe 2 3 3 [0]).setHost [.environment ⟨false, false, 0⟩])) = 1 ∧
    (stepped ((probe 2 3 3 [0]).setHost [.environment ⟨false, false, 0⟩])).pinTrace = [] := by decide
/-- STATUS reads ILL in bit 1 (R33). -/
theorem test_step_status :
    (stepped { probe 2 3 3 [] with ill := true, host := [.readReg 1] }).replies = [2] := by decide

/-! Witnesses: a state and operands that meet all hypotheses of a statement together, for each of its clauses. -/

theorem witness_EncodeOfDecodeIsTheWord : decode 0x20FF = .ok (.writeByte 0xFF) := by decide

theorem witness_WordSelectsItsOnlyRow :
    (⟨"FLOAT", .l, 0x0100, 0xFFFE⟩ : OpcodeRow) ∈ opcodeTable ∧
    (⟨"WAITCLOCK", .i, 0x5300, 0xFF00⟩ : OpcodeRow) ∈ opcodeTable := by decide

/-- A public operation, and an internal one with EXPOSE_INTERNAL. -/
theorem witness_StepRunsTheDecodedOperation :
    (∃ s : State, s.host = .call 0x5003 :: [] ∧ s.upc = [] ∧ decode 0x5003 = .ok (.sendCommand 3) ∧
      (Instr.sendCommand 3).wellFormed = true ∧ isPublic (.sendCommand 3) = true) ∧
    ∃ s : State, s.host = .call 0x0100 :: [] ∧ s.upc = [] ∧ decode 0x0100 = .ok (.float .clock) ∧
      (Instr.float .clock).wellFormed = true ∧ s.exposeInternal = true :=
  ⟨⟨(probe 2 3 3 []).setHost [.call 0x5003], by decide⟩,
   ⟨((probe 2 3 3 []).setHost [.call 0x0100]).setExposeInternal true, by decide⟩⟩

theorem witness_PlacedWordRunsNext :
    decodeTableWord 16 0x5001 = some (.sendCommand 1) ∧ (Instr.sendCommand 1).wellFormed = true ∧
    decodeTableWord 16 0x0101 = some (.float .data) ∧ (Instr.float .data).wellFormed = true := by decide

/-- Each reason a word is illegal, in both forms of the write. -/
theorem witness_IllegalWordOnlySetsIll :
    (∃ s : State, s.host = .call 0x6000 :: [] ∧ s.upc = [] ∧ decode 0x6000 = .error (.reservedOpcode 0x60)) ∧
    (∃ s : State, s.host = .writeReg 0 0x0102 :: [] ∧ s.upc = [] ∧
      decode 0x0102 = .error (.lineBitsNotZero 0x01 0x02)) ∧
    (∃ s : State, s.host = .writeReg 0 0x1001 :: [] ∧ s.upc = [] ∧
      decode 0x1001 = .error (.operandNotZero 0x10 0x01)) ∧
    (∃ s : State, s.host = .call 0x1000 :: [] ∧ s.upc = [] ∧ decode 0x1000 = .ok .clockHigh ∧
      isPublic .clockHigh = false ∧ s.exposeInternal = false) ∧
    ∃ s : State, s.host = .writeReg 0 0x5000 :: [] ∧ s.upc = [] :=
  ⟨⟨(probe 2 3 3 []).setHost [.call 0x6000], by decide⟩, ⟨(probe 2 3 3 []).setHost [.writeReg 0 0x0102], by decide⟩,
   ⟨(probe 2 3 3 []).setHost [.writeReg 0 0x1001], by decide⟩, ⟨(probe 2 3 3 []).setHost [.call 0x1000], by decide⟩,
   ⟨(probe 2 3 3 []).setHost [.writeReg 0 0x5000], by decide⟩⟩

/-- An operation with a micro-action, and the one without. -/
theorem witness_LegalWordIsAccepted :
    (∃ s : State, s.host = .writeReg 0 0x53FF :: [] ∧ s.upc = [] ∧ decode 0x53FF = .ok (.waitClock 255) ∧
      (Instr.waitClock 255).wellFormed = true ∧ isPublic (.waitClock 255) = true) ∧
    ∃ s : State, s.host = .writeReg 0 0x1300 :: [] ∧ s.upc = [] ∧ decode 0x1300 = .ok (.clockCycles 0) ∧
      (Instr.clockCycles 0).wellFormed = true ∧ s.exposeInternal = true :=
  ⟨⟨(probe 2 3 3 []).setHost [.writeReg 0 0x53FF], by decide⟩,
   ⟨((probe 2 3 3 []).setHost [.writeReg 0 0x1300]).setExposeInternal true, by decide⟩⟩

/-- A busy engine. -/
def busyProbe (h : HostAct) : State := { probe 2 3 3 [0] with upc := [.act (.sample .data), .pollTest], host := [h] }

/-- Each of the five writes, and the blocking call. -/
theorem witness_BusyWritesAreDropped :
    ∀ h ∈ [HostAct.writeReg 0x0 0x5100, .writeReg 0x8 0, .writeReg 0x9 1, .writeReg 0xA 255, .writeBuf 255 0,
        .call 0x4200],
      (busyProbe h).host = h :: [] ∧ (busyProbe h).upc ≠ [] := by decide

/-- The value that is refused, and the bounds of the range. -/
theorem witness_CfgWritesWhileIdle :
    ∀ r ∈ [0x8#4, 0x9#4, 0xA#4], ∀ v ∈ [0#8, 1#8, 255#8],
      ((probe 2 3 3 []).setHost [.writeReg r (v.setWidth 16)]).host = .writeReg r (v.setWidth 16) :: [] ∧
      ((probe 2 3 3 []).setHost [.writeReg r (v.setWidth 16)]).upc = [] := by decide

/-- Its second clause: the ignored registers at the edges of their ranges. -/
theorem witness_CfgWritesWhileIdle_ignored :
    ∀ r ∈ [0x1#4, 0x7#4, 0xB#4, 0xF#4],
      r ≠ 0x0 ∧ r ≠ 0x8 ∧ r ≠ 0x9 ∧ r ≠ 0xA ∧ (busyProbe (.writeReg r 1)).host = .writeReg r 1 :: [] := by decide

/-- Every register number, the edges of the reserved range among them. -/
theorem witness_HostReadsReturnTheRegisters :
    ∀ r ∈ [0x0#4, 0x1#4, 0x2#4, 0x3#4, 0x4#4, 0x5#4, 0x6#4, 0x7#4, 0x8#4, 0x9#4, 0xA#4, 0xB#4, 0xF#4],
      (busyProbe (.readReg r)).host = .readReg r :: [] ∧
      (busyProbe (.readBuf 255)).host = .readBuf 255 :: [] := by decide

theorem witness_HostOwnsTheIdleBuffer :
    ∃ s : State, s.host = .writeBuf 255 9 :: .readBuf 255 :: [] ∧ s.upc = [] ∧ (200 : Byte) ≠ 255 :=
  ⟨(probe 2 3 3 []).setHost [.writeBuf 255 9, .readBuf 255], by decide⟩

/-- A step that is no reset, with both bits set. -/
theorem witness_IllAndOvrAreSticky :
    ∃ s t : State, step s = .next t ∧ s.host.head? ≠ some .reset ∧ s.ill = true ∧ s.ovr = true :=
  ⟨{ probe 2 3 3 [] with ill := true, ovr := true }, _, rfl, by decide, rfl, rfl⟩

theorem witness_OnlyTheHostChangesTheBounds :
    ∃ s t : State, step s = .next t ∧
      (∀ v, s.host.head? ≠ some (.writeReg 0x8 v) ∧ s.host.head? ≠ some (.writeReg 0x9 v) ∧
        s.host.head? ≠ some (.writeReg 0xA v)) ∧ s.host.head? ≠ some .reset :=
  ⟨(probe 2 3 3 []).setHost [.call 0x5000], _, rfl, by simp [probe], by decide⟩

/-- A reset in the middle of an acknowledge poll. -/
theorem witness_ResetAbandonsTheOperation :
    (busyProbe .reset).host = .reset :: [] ∧ (busyProbe .reset).upc ≠ [] := by decide

/-- An idle state, and a busy one. -/
theorem witness_EveryStepKeepsTheInvariant :
    (∃ t, Inv (probe 2 3 3 []) ∧ step (probe 2 3 3 []) = .next t) ∧
    ∃ t, Inv (busyProbe .tick) ∧ step (busyProbe .tick) = .next t :=
  ⟨⟨_, ⟨by decide, by decide, by decide, by decide⟩, rfl⟩, ⟨_, ⟨by decide, by decide, by decide, by decide⟩, rfl⟩⟩

/-- Each direction, and the environment at both levels. -/
theorem witness_LinesAreOpenDrain :
    (probe 2 3 3 [0]).dir .data = .input ∧ (probe 2 3 3 [0]).envLow .data = true ∧
    (probe 2 3 3 [1]).envLow .data = false ∧ (pins .output .output (probe 2 3 3 [1])).dir .clock = .output ∧
    (busyProbe (.environment ⟨true, true, 1⟩)).host = .environment ⟨true, true, 1⟩ :: [] := by decide

theorem witness_EngineStepIsOneMicroAction :
    (busyProbe .tick).upc = .act (.sample .data) :: [.pollTest] ∧ (probe 2 3 3 []).upc = [] ∧
    (probe 2 3 3 []).host = [] ∧ (busyProbe .tick).host = .tick :: [] ∧
    (busyProbe .waitIdle).host = .waitIdle :: [] ∧ (busyProbe .waitIdle).upc ≠ [] := by decide

/-- Idle, and on an operation with no micro-action as on one with many, some engine steps before the end or none. -/
theorem witness_EngineRunsToWhatExecAnswers :
    (probe 2 3 3 []).upc = [] ∧
    (after (.clockCycles 0) (probe 2 3 3 [])).now - (probe 2 3 3 []).now = 0 ∧
    0 < (after .stop (probe 2 3 3 [])).now - (probe 2 3 3 []).now := by decide

theorem witness_FloatReleasesTheLine : Line.data ≠ Line.clock ∧ Line.clock ≠ Line.data := by decide

theorem witness_DriveLowPullsTheLine : Line.data ≠ Line.clock ∧ Line.clock ≠ Line.data := by decide

theorem witness_SampleReadsTheLine :
    (probe 2 3 3 [0]).dir .data = .input ∧ (pins .output .output (probe 2 3 3 [0])).dir .data = .output := by decide

theorem witness_ClockCycleIsLowThenHigh :
    (probe 2 3 3 [1]).env = answering 1 :: [] ∧ (answering 1).clockLow = false := by decide

theorem witness_WriteByteSendsAndPolls : (probe 1 3 3 []).cfgAckMax ≠ 0 ∧ (probe 255 3 3 []).cfgAckMax ≠ 0 := by decide

/-- An acknowledgment at the last attempt allowed, and none at all. -/
theorem witness_WriteByteSeesTheScriptedAcknowledge :
    (2 < (probe 3 3 3 [1, 1, 0, 1]).cfgAckMax.toNat ∧
      (probe 3 3 3 [1, 1, 0, 1]).env = List.replicate 2 (answering 1) ++ answering 0 :: [answering 1]) ∧
    (probe 3 3 3 [1, 1, 1, 0]).env =
      List.replicate (probe 3 3 3 [1, 1, 1, 0]).cfgAckMax.toNat (answering 1) ++ [answering 0] := by decide

theorem witness_ShiftSendsMostSignificantFirst :
    ({ probe 2 3 3 [] with sr := 0x80 } : State).sr = 0x80 ∧ (0 : Nat) < 8 ∧ (7 : Nat) < 8 := by decide

theorem witness_WriteByteHasNineRisingEdges :
    (probe 2 3 3 [1, 0]).cfgAckMax ≠ 0 ∧ (probe 2 3 3 [1, 0]).cfgAckMax.toNat ≤ (probe 2 3 3 [1, 0]).env.length ∧
    ∀ p ∈ (probe 2 3 3 [1, 0]).env, p.clockLow = false := by decide

theorem witness_ReadByteReturnsThePresentedByte :
    (probe 2 3 3 [0, 0, 0, 1, 0, 0, 0, 1, 1]).env = (bitsOfByte 0x11).map answering ++ [answering 1] := by decide

/-- The byte on the wire, and a reader to whom it is presented. -/
theorem witness_WrittenByteReadsBack :
    ((probe 1 3 3 [1]).env = answering 1 :: [] ∧ (answering 1).clockLow = false ∧ (answering 1).dataLow = false) ∧
    (probe 2 3 3 [1, 0, 1, 0, 0, 1, 0, 1]).env =
      ((wire (newEvents (probe 1 3 3 [1]) (after (.writeByte 0xA5) (probe 1 3 3 [1])))).take 8).map answering ++ [] := by
  decide +kernel

theorem witness_SendAckDrivesTheAcknowledge :
    (probe 2 3 3 [0]).env = answering 0 :: [] ∧ (answering 0).clockLow = false := by decide

theorem witness_SendNakReleasesTheData :
    (probe 2 3 3 [1]).env = answering 1 :: [] ∧ (answering 1).clockLow = false := by decide

/-- A free bus and a jammed one. -/
theorem witness_StartHasOneStartSignature :
    ((probe 2 3 3 [1]).env = answering 1 :: [] ∧ (answering 1).clockLow = false ∧ (answering 1).dataLow = false) ∧
    ((probe 2 3 3 [0]).env = answering 0 :: [] ∧ (answering 0).clockLow = false ∧ (answering 0).dataLow = true) := by
  decide

theorem witness_StopHasOneStopSignature :
    ((probe 2 3 3 [1]).env = answering 1 :: [] ∧ (answering 1).clockLow = false ∧ (answering 1).dataLow = false) ∧
    ((probe 2 3 3 [0]).env = answering 0 :: [] ∧ (answering 0).clockLow = false ∧ (answering 0).dataLow = true) := by
  decide

theorem witness_PowerOnPrimesTheDevice :
    (probe 2 3 3 [1]).env = answering 1 :: [] ∧ (answering 1).clockLow = false ∧ (answering 1).dataLow = false ∧
    (probe 2 3 3 [1]).dirData = .input := by decide

/-- The shortest and the longest command, the least and the greatest bounds. -/
theorem witness_SendCommandFollowsTheRetryLaw :
    (1 : Byte) ≠ 0 ∧ (255 : Byte) ≠ 0 ∧ (probe 1 1 3 []).cfgAckMax ≠ 0 ∧ (probe 1 1 3 []).cfgStartMax ≠ 0 ∧
    (probe 255 255 3 []).cfgAckMax ≠ 0 ∧ (probe 255 255 3 []).cfgStartMax ≠ 0 := by decide

/-- S8: three attempts of two polls. -/
theorem witness_AbsentDeviceFailsTheStart :
    (3 : Byte) ≠ 0 ∧ (probe 2 3 3 [1, 1, 1, 1, 1, 1]).cfgAckMax ≠ 0 ∧ (probe 2 3 3 [1, 1, 1, 1, 1, 1]).cfgStartMax ≠ 0 ∧
    (probe 2 3 3 [1, 1, 1, 1, 1, 1]).cfgStartMax.toNat * (probe 2 3 3 [1, 1, 1, 1, 1, 1]).cfgAckMax.toNat ≤
      (probe 2 3 3 [1, 1, 1, 1, 1, 1]).env.length ∧
    ∀ p ∈ (probe 2 3 3 [1, 1, 1, 1, 1, 1]).env, p.dataLow = false := by decide

/-- S7: three bytes. -/
theorem witness_WillingDeviceTakesTheCommand :
    (3 : Byte) ≠ 0 ∧ (probe 2 3 3 [0, 0, 0]).cfgAckMax ≠ 0 ∧
    (3 : Byte).toNat ≤ (probe 2 3 3 [0, 0, 0]).env.length ∧
    ∀ p ∈ (probe 2 3 3 [0, 0, 0]).env, p.dataLow = true := by decide

theorem witness_SendDataAlwaysStops : (probe 1 3 3 []).cfgAckMax ≠ 0 := by decide

/-- Indices below and not below the length, at the edge. -/
theorem witness_ReceiveDataFillsTheBuffer :
    ([[0], [1], [0]] : List (List Bit))[(2 : Byte).toNat]? = some [0] ∧ (3 : Byte) ≤ 3 ∧ (3 : Byte) ≤ 255 := by decide

theorem witness_ReceiveDataStoresThePresentedBytes :
    ([0x7E] : List Byte).length = (1 : Byte).toNat ∧
    (probe 2 3 3 [0, 1, 1, 1, 1, 1, 1, 0]).env = (([0x7E] : List Byte).flatMap bitsOfByte).map answering ++ [] ∧
    ([0x7E] : List Byte)[(0 : Byte).toNat]? = some 0x7E := by decide

/-- An idle bus, and one whose clock is low. -/
theorem witness_WaitClockSignatures :
    ((probe 2 3 3 [1]).env = answering 1 :: [] ∧ (answering 1).clockLow = false ∧ (answering 1).dataLow = false) ∧
    ((probe 2 3 3 [1]).dirClock = .input ∧ (probe 2 3 3 [1]).dirData = .input) ∧
    ((pins .output .output (probe 2 3 3 [1])).env = answering 1 :: [] ∧
      (pins .output .output (probe 2 3 3 [1])).dirClock = .output) := by decide

theorem witness_EveryOperationIsBounded : (probe 2 1 3 []).cfgStartMax ≠ 0 := by decide

/-- An operation that writes no buffer byte and is not SENDCOMMAND 0. -/
theorem witness_NoOperationTouchesTheHostPort :
    ∃ t, exec (.sendData 2) (probe 2 3 3 []) = .next t ∧ Instr.sendData 2 ≠ .sendCommand 0 ∧
      ∀ len, Instr.sendData 2 ≠ .receiveData len := ⟨_, rfl, by decide, fun _ h => by cases h⟩

/-- An internal operation and each public one. -/
theorem witness_ResultKindsByOperation :
    ∀ i ∈ [Instr.float .data, .powerOn, .sendCommand 1, .sendData 0, .receiveData 255, .waitClock 0],
      i.wellFormed = true ∧ ∃ t, exec i (probe 2 3 3 []) = .next t := by
  intro i hi
  refine ⟨by revert i; decide, ?_⟩
  fin_cases hi <;> exact ⟨_, rfl⟩

theorem witness_NoCompositeOperationSamplesTheClock :
    ∃ t, exec (.writeByte 0xA5) (probe 2 3 3 [0]) = .next t ∧ Instr.writeByte 0xA5 ≠ .sample .clock :=
  ⟨_, rfl, by decide⟩

theorem witness_DrivenDrawsReachNoCompositeOperation :
    ∃ t, exec (.writeByte 0xA5) (probe 2 3 3 [0]) = .next t ∧ ∀ l, Instr.writeByte 0xA5 ≠ .sample l :=
  ⟨_, rfl, fun _ h => by cases h⟩

end Sys2Proof.Tests
end

section
/-! SUPPORT. The invariant of Safety.lean: it holds after reset and every step keeps it. Three of its four parts do not
speak of `upc`; they are named `Sound`, so that the moves that only move `upc` have one fact to carry. -/

namespace Sys2Proof.Machine

/-- `Inv` without its part about `upc`: the buffer's canonical form and the range of the two bounds. -/
def Sound (s : State) : Prop := Memory.wf s.buf ∧ s.cfgAckMax ≠ 0 ∧ s.cfgStartMax ≠ 0

theorem inv_iff_sound (s : State) : Inv s ↔ Sound s ∧ settledUpc s.upc = true := by
  simp [Inv, Sound, and_assoc]

/-! The moves that touch nothing the invariant speaks of. -/

@[simp] theorem sound_setUpc (s : State) (u : List Stmt) : Sound (s.setUpc u) ↔ Sound s := Iff.rfl
@[simp] theorem inv_setHost (s : State) (hs : List HostAct) : Inv (s.setHost hs) ↔ Inv s := Iff.rfl
@[simp] theorem inv_setCmd (s : State) (w : CmdWord) : Inv (s.setCmd w) ↔ Inv s := Iff.rfl
@[simp] theorem inv_setCfgPwrClks (s : State) (v : Byte) : Inv (s.setCfgPwrClks v) ↔ Inv s := Iff.rfl
@[simp] theorem inv_markIllegal (s : State) : Inv s.markIllegal ↔ Inv s := Iff.rfl
@[simp] theorem inv_markOverrun (s : State) : Inv s.markOverrun ↔ Inv s := Iff.rfl
@[simp] theorem inv_reply (s : State) (v : CmdWord) : Inv (s.reply v) ↔ Inv s := Iff.rfl
@[simp] theorem inv_moveEnvironment (p : EnvPhase) (s : State) : Inv (moveEnvironment p s) ↔ Inv s := Iff.rfl

/-! The moves that write what it speaks of. -/

theorem inv_setCfgAckMax {s : State} {v : Byte} (hs : Inv s) (hv : v ≠ 0) : Inv (s.setCfgAckMax v) := by
  obtain ⟨hbuf, -, hstart, hupc⟩ := hs
  exact ⟨hbuf, hv, hstart, hupc⟩

theorem inv_setCfgStartMax {s : State} {v : Byte} (hs : Inv s) (hv : v ≠ 0) : Inv (s.setCfgStartMax v) := by
  obtain ⟨hbuf, hack, -, hupc⟩ := hs
  exact ⟨hbuf, hack, hv, hupc⟩

theorem inv_bufWrite {s : State} (i v : Byte) (hs : Inv s) : Inv (s.bufWrite i v) := by
  obtain ⟨hbuf, hrest⟩ := hs
  exact ⟨bufWrite_wf i v hbuf, hrest⟩

/-! Reset. -/

/-- An OPEN parameter of R6 held as its value less one is at least 1. -/
theorem ofNat_fin255_succ_ne_zero (n : Fin 255) : BitVec.ofNat 8 (n.val + 1) ≠ 0 := by
  intro h
  have : (n.val + 1) % 256 = 0 := by simpa using congrArg BitVec.toNat h
  omega

theorem ackPollMax_ne_zero : Config.ackPollMax ≠ 0 := ofNat_fin255_succ_ne_zero _

theorem startTriesMax_ne_zero : Config.startTriesMax ≠ 0 := ofNat_fin255_succ_ne_zero _

/-- Settles O18: the buffer is empty, `upc` is IDLE, and the bounds are the parameters, 1 or more whatever they are. -/
theorem resetSatisfiesTheInvariant : Obligations.ResetSatisfiesTheInvariant :=
  ⟨reset_memory_wf, ackPollMax_ne_zero, startTriesMax_ne_zero, rfl⟩

/-- A reset in operation gives what the invariant speaks of its value of `State.reset` (R250). -/
theorem inv_hardReset (s : State) : Inv (hardReset s) := resetSatisfiesTheInvariant

/-! Operations and the sequencer. -/

theorem silentOnly.sound {s t : State} (h : silentOnly s t) (hs : Sound s) : Sound t := by
  obtain ⟨_, _, _, _, _, _, _, _, _, _, _, _, _, rfl, hwf, -⟩ := h
  obtain ⟨hbuf, hbounds⟩ := hs
  exact ⟨hwf hbuf, hbounds⟩

theorem operationOnly.sound {s t : State} (h : operationOnly s t) (hs : Sound s) : Sound t := by
  obtain ⟨_, _, _, _, _, _, _, _, _, _, _, _, _, _, _, _, _, _, rfl, hwf⟩ := h
  obtain ⟨hbuf, hbounds⟩ := hs
  exact ⟨hwf hbuf, hbounds⟩

theorem operationOnly.upc {s t : State} (h : operationOnly s t) : t.upc = s.upc := by
  obtain ⟨_, _, _, _, _, _, _, _, _, _, _, _, _, _, _, _, _, _, rfl, _⟩ := h
  rfl

theorem operationOnly.inv {s t : State} (h : operationOnly s t) (hs : Inv s) : Inv t := by
  rw [inv_iff_sound] at hs ⊢
  exact ⟨h.sound hs.1, h.upc ▸ hs.2⟩

theorem perform_sound {s : State} (a : Act) (hs : Sound s) : Sound (perform a s) := by
  obtain ⟨-, -, hframe⟩ := perform_spec a s
  exact hframe.op.sound hs

/-- An operation run as one step keeps the invariant. -/
theorem exec_inv {i : Instr} {s t : State} (h : exec i s = .next t) (hs : Inv s) : Inv t := by
  obtain ⟨-, rfl⟩ | ⟨-, hop⟩ := exec_frame i s t h
  · simpa using hs
  · exact hop.inv hs

/-- Settling establishes the part about `upc`, whatever stood there before. -/
theorem settle_inv {s : State} (hs : Sound s) : Inv (settle s) := by
  obtain ⟨u, hu⟩ := settle_silent s
  exact (inv_iff_sound _).2 ⟨hu.sound ((sound_setUpc s u).2 hs), settle_settled s⟩

theorem accept_inv (i : Instr) {s : State} (hs : Inv s) : Inv (accept i s) :=
  settle_inv ((sound_setUpc s _).2 ((inv_iff_sound s).1 hs).1)

theorem engineStep_inv {s : State} (hs : Inv s) : Inv (engineStep s) := by
  have hsound : Sound s := ((inv_iff_sound s).1 hs).1
  obtain ⟨hsettled, hsame | ⟨u, hsilent⟩ | ⟨a, u, hact⟩⟩ := engineStep_spec s
  · rwa [hsame]
  · exact (inv_iff_sound _).2 ⟨hsilent.sound ((sound_setUpc s u).2 hsound), hsettled⟩
  · exact (inv_iff_sound _).2 ⟨hact.sound ((sound_setUpc _ u).2 (perform_sound a hsound)), hsettled⟩

/-! The host port. -/

theorem writeCmd_inv (cw : CmdWord) {s : State} (hs : Inv s) : Inv (writeCmd cw s) := by
  unfold writeCmd
  split
  · simpa using hs
  · dsimp only
    split
    · exact accept_inv _ ((inv_setCmd s cw).2 hs)
    · simpa using hs

theorem callCmd_inv {cw : CmdWord} {s t : State} (h : callCmd cw s = .next t) (hs : Inv s) : Inv t := by
  unfold callCmd at h
  split at h
  · cases h
    simpa using hs
  · split at h
    · exact exec_inv h ((inv_setCmd s cw).2 hs)
    · cases h
      simpa using hs

/-- A write to a CFG register keeps the invariant if the value it lets through does: any value, or only those from 1
(R35). -/
theorem writeCfg_inv {zeroAllowed : Bool} {set : Byte → State → State} {v : Byte} {s : State} (hs : Inv s)
    (hset : ¬(v = 0 ∧ zeroAllowed = false) → Inv (set v s)) : Inv (writeCfg zeroAllowed set v s) := by
  obtain he | he | ⟨hv, he⟩ := writeCfg_cases zeroAllowed set v s
  · simpa [he] using hs
  · simpa [he] using hs
  · rw [he]
    exact hset hv

theorem writeReg_inv (r : BitVec 4) (v : CmdWord) {s : State} (hs : Inv s) : Inv (writeReg r v s) := by
  unfold writeReg
  split
  · exact writeCmd_inv v hs
  · exact writeCfg_inv hs fun hv => inv_setCfgAckMax hs (by simpa using hv)
  · exact writeCfg_inv hs fun hv => inv_setCfgStartMax hs (by simpa using hv)
  · exact writeCfg_inv hs fun _ => (inv_setCfgPwrClks s _).2 hs
  · exact hs

theorem hostWriteBuf_inv (i v : Byte) {s : State} (hs : Inv s) : Inv (hostWriteBuf i v s) := by
  unfold hostWriteBuf
  split
  · simpa using hs
  · exact inv_bufWrite i v hs

theorem hostStep_inv {a : HostAct} {s t : State} (h : hostStep a s = .next t) (hs : Inv s) : Inv t := by
  cases a with
  | call cw => exact callCmd_inv h hs
  | writeReg r v => cases h; exact writeReg_inv r v hs
  | readReg r => cases h; simpa using hs
  | writeBuf i v => cases h; exact hostWriteBuf_inv i v hs
  | readBuf i => cases h; simpa using hs
  | waitIdle =>
    cases h
    split
    · exact engineStep_inv ((inv_setHost s _).2 hs)
    · exact hs
  | tick => cases h; exact engineStep_inv hs
  | reset => cases h; exact inv_hardReset s
  | environment p => cases h; simpa using hs

/-- Settles O19, by the host's next action, or the engine's next step where the host has none. -/
theorem everyStepKeepsTheInvariant : Obligations.EveryStepKeepsTheInvariant := by
  intro s t hs h
  unfold step machineStep at h
  split at h
  · cases h
    exact engineStep_inv hs
  · exact hostStep_inv h ((inv_setHost s _).2 hs)

end Sys2Proof.Machine
end

section
/-! SUPPORT. The sequencer as a relation: `Runs sts s t` says that the statements `sts`, begun in `s`, end in `t`. The
engine, one micro-action a step, goes exactly where the relation says, and an operation's sequence, loop by loop, is in
the relation. -/

namespace Sys2Proof.Machine

/-! Settling, one silent statement at a time. -/

theorem settleFor_of_settled (k : Nat) {s : State} (h : settledUpc s.upc = true) : settleFor k s = s := by
  cases k with
  | zero => rfl
  | succ k =>
    rw [settleFor]
    split
    · rfl
    · rfl
    · rename_i st rest hne hu
      cases st <;> simp_all [settledUpc]

theorem settleFor_silent_cons (k : Nat) {s : State} {st : Stmt} {rest : List Stmt} (hu : s.upc = st :: rest)
    (hst : ∀ a, st ≠ .act a) :
    settleFor (k + 1) s =
      settleFor k ((unfold st (s.setUpc rest)).1.setUpc ((unfold st (s.setUpc rest)).2 ++ rest)) := by
  rw [settleFor, hu]
  cases st with
  | act a => exact absurd rfl (hst a)
  | _ => rfl

/-- Once it has settled, more silent statements would change nothing. -/
theorem settleFor_add (k m : Nat) {s : State} (h : settledUpc (settleFor k s).upc = true) :
    settleFor (k + m) s = settleFor k s := by
  induction k generalizing s with
  | zero => exact settleFor_of_settled _ h
  | succ k ih =>
    rw [Nat.add_right_comm]
    by_cases hs : settledUpc s.upc = true
    · rw [settleFor_of_settled _ hs, settleFor_of_settled _ hs]
    · match hu : s.upc with
      | [] => simp [hu, settledUpc] at hs
      | st :: rest =>
        have hst : ∀ a, st ≠ .act a := by rintro a rfl; simp [hu, settledUpc] at hs
        rw [settleFor_silent_cons _ hu hst] at h ⊢
        rw [settleFor_silent_cons _ hu hst]
        exact ih h

/-- Any count of silent statements that is enough settles as `settle` does. -/
theorem settleFor_eq_settle {k : Nat} {s : State} (h : settleBound s.upc ≤ k) : settleFor k s = settle s := by
  have hset := settleFor_settled _ s (le_refl (settleBound s.upc))
  obtain ⟨m, rfl⟩ := Nat.exists_eq_add_of_le h
  obtain ⟨n, hn⟩ := Nat.exists_eq_add_of_le (settleBound_le s.upc)
  rw [settle, hn, settleFor_add _ _ hset, settleFor_add _ _ hset]

theorem settle_of_settled {s : State} (h : settledUpc s.upc = true) : settle s = s := settleFor_of_settled _ h

/-! No statement and no micro-action looks at `upc`. -/

@[simp] theorem State.setUpc_setUpc (s : State) (u v : List Stmt) : (s.setUpc u).setUpc v = s.setUpc v := rfl

theorem perform_setUpc (a : Act) (s : State) (u : List Stmt) : perform a (s.setUpc u) = (perform a s).setUpc u := by
  cases a with
  | float l => cases l <;> rfl
  | driveLow l => cases l <;> rfl
  | sample l => cases l <;> rfl
  | delay d => rfl

theorem unfold_setUpc (st : Stmt) (s : State) (u : List Stmt) :
    unfold st (s.setUpc u) = (unfold st s).map (State.setUpc · u) id := by
  cases st with
  | op i =>
    cases i with
    | sendCommand len => simp only [unfold, apply_ite (Prod.map _ _)]; rfl
    | _ => rfl
  | cycLoop | bitLoop | pollLoop | readLoop v | cmdLoop | dataLoop | recvLoop | waitLoop
  | pollTest | cmdTest | dataTest | tryTest =>
    simp only [unfold, apply_ite (Prod.map _ _)]
    rfl
  | _ => rfl

/-! The relation. -/

/-- The statements `sts`, begun in `s`, end in `t`: the next one is a micro-action, or it stands for others. -/
inductive Runs : List Stmt → State → State → Prop
  | done {s : State} : Runs [] s s
  | act {a : Act} {sts : List Stmt} {s t : State} (h : Runs sts (perform a s) t) : Runs (.act a :: sts) s t
  | silent {st : Stmt} {sts : List Stmt} {s t : State} (hst : ∀ a, st ≠ .act a)
      (h : Runs ((unfold st s).2 ++ sts) (unfold st s).1 t) : Runs (st :: sts) s t

/-- Settling a silent statement settles what it stands for. -/
theorem settle_silent_cons (s : State) {st : Stmt} (sts : List Stmt) (hst : ∀ a, st ≠ .act a) :
    settle (s.setUpc (st :: sts)) = settle ((unfold st s).1.setUpc ((unfold st s).2 ++ sts)) := by
  have hlt := unfold_settleBound st s sts hst
  rw [← settleFor_eq_settle (s := s.setUpc (st :: sts)) (Nat.le_succ (settleBound (st :: sts))),
    ← settleFor_eq_settle (k := settleBound (st :: sts)) hlt.le, settleFor_silent_cons _ rfl hst]
  simp [unfold_setUpc]

/-- An engine step that stands before a micro-action performs it and settles. -/
theorem engineStep_act {s : State} {a : Act} {sts : List Stmt} (h : s.upc = .act a :: sts) :
    engineStep s = settle ((perform a s).setUpc sts) := by
  rw [← perform_setUpc, engineStep, h]

/-- The engine goes where the relation says, one micro-action a step, and is busy until it is there. -/
theorem Runs.engineRun {sts : List Stmt} {s t : State} (h : Runs sts s t) :
    ∃ n, t.now = s.now + n ∧ engineRun n (settle (s.setUpc sts)) = t.setUpc [] ∧
      ∀ k < n, (engineRun k (settle (s.setUpc sts))).busy = true := by
  induction h with
  | done => exact ⟨0, rfl, settle_of_settled rfl, by simp⟩
  | @act a sts s t _ ih =>
    obtain ⟨n, hnow, hrun, hbusy⟩ := ih
    have hset : settle (s.setUpc (.act a :: sts)) = s.setUpc (.act a :: sts) := settle_of_settled rfl
    have hstep : engineStep (s.setUpc (.act a :: sts)) = settle ((perform a s).setUpc sts) := by
      rw [engineStep_act rfl, perform_setUpc, State.setUpc_setUpc]
    refine ⟨n + 1, ?_, ?_, fun k hk => ?_⟩
    · rw [hnow, (perform_spec a s).1]; omega
    · rw [hset, Machine.engineRun, hstep, hrun]
    · rw [hset]
      cases k with
      | zero => rfl
      | succ k =>
        rw [Machine.engineRun, hstep]
        exact hbusy k (by omega)
  | @silent st sts s t hst _ ih =>
    obtain ⟨_, _, _, _, _, _, _, _, _, _, _, _, _, hs, -, -⟩ := unfold_silent st s
    rw [settle_silent_cons s sts hst]
    rwa [show (unfold st s).1.now = s.now by rw [hs]] at ih

theorem Runs.append {xs ys : List Stmt} {s t u : State} (hx : Runs xs s t) (hy : Runs ys t u) :
    Runs (xs ++ ys) s u := by
  induction hx with
  | done => exact hy
  | act _ ih => exact .act (ih hy)
  | silent hst _ ih => exact .silent hst (by simpa using ih hy)

theorem Runs.cons {st : Stmt} {sts : List Stmt} {s t u : State} (hst : Runs [st] s t) (hsts : Runs sts t u) :
    Runs (st :: sts) s u := hst.append hsts

/-- A silent statement ends where those it stands for end. -/
theorem Runs.unfolds {st : Stmt} {new : List Stmt} {s s' t : State} (hu : unfold st s = (s', new))
    (h : Runs new s' t) (hst : ∀ a, st ≠ .act a := by nofun) : Runs [st] s t :=
  .silent hst (by simpa [hu] using h)

/-! What the frames of the sequences say of the registers the loops count in. -/

theorem linesOnly.cyc {s t : State} (h : linesOnly s t) : t.cyc = s.cyc := by
  obtain ⟨_, _, _, _, rfl⟩ := h; rfl

theorem linesOnly.idx {s t : State} (h : linesOnly s t) : t.idx = s.idx := by
  obtain ⟨_, _, _, _, rfl⟩ := h; rfl

theorem linesOnly.len {s t : State} (h : linesOnly s t) : t.len = s.len := by
  obtain ⟨_, _, _, _, rfl⟩ := h; rfl

theorem cyclesOnly.loopc {s t : State} (h : cyclesOnly s t) : t.loopc = s.loopc := by
  obtain ⟨_, _, _, _, _, rfl⟩ := h; rfl

theorem bitsOnly.cfgAckMax {s t : State} (h : bitsOnly s t) : t.cfgAckMax = s.cfgAckMax := by
  obtain ⟨_, _, _, _, _, _, rfl⟩ := h; rfl

theorem writeOnly.idx {s t : State} (h : writeOnly s t) : t.idx = s.idx := by
  obtain ⟨_, _, _, _, _, _, _, _, _, _, rfl⟩ := h; rfl

theorem writeOnly.len {s t : State} (h : writeOnly s t) : t.len = s.len := by
  obtain ⟨_, _, _, _, _, _, _, _, _, _, rfl⟩ := h; rfl

theorem writeOnly.trycnt {s t : State} (h : writeOnly s t) : t.trycnt = s.trycnt := by
  obtain ⟨_, _, _, _, _, _, _, _, _, _, rfl⟩ := h; rfl

theorem writeOnly.cfgStartMax {s t : State} (h : writeOnly s t) : t.cfgStartMax = s.cfgStartMax := by
  obtain ⟨_, _, _, _, _, _, _, _, _, _, rfl⟩ := h; rfl

theorem readOnly.idx {s t : State} (h : readOnly s t) : t.idx = s.idx := by
  obtain ⟨_, _, _, _, _, _, _, _, rfl⟩ := h; rfl

theorem readOnly.len {s t : State} (h : readOnly s t) : t.len = s.len := by
  obtain ⟨_, _, _, _, _, _, _, _, rfl⟩ := h; rfl

/-! The bit primitives (spec/41_bit_primitives.md). -/

theorem runs_clockHigh (s : State) : Runs [.op .clockHigh] s (clockHigh s) := .unfolds rfl (.act (.act (.act .done)))

theorem runs_clockLow (s : State) : Runs [.op .clockLow] s (clockLow s) := .unfolds rfl (.act (.act (.act .done)))

theorem runs_clockCycle (s : State) : Runs [.op .clockCycle] s (clockCycle s) :=
  .unfolds rfl ((runs_clockLow s).cons (runs_clockHigh _))

theorem runs_dataHigh (s : State) : Runs [.op .dataHigh] s (dataHigh s) := .unfolds rfl (.act (.act .done))

theorem runs_dataLow (s : State) : Runs [.op .dataLow] s (dataLow s) := .unfolds rfl (.act (.act .done))

theorem runs_readDataBit (s : State) : Runs [.op .readDataBit] s (readDataBit s) :=
  .unfolds rfl (.act (.act (.act .done)))

theorem toNat_sub_one {v : Byte} {k : Nat} (h : v.toNat = k + 1) : (v - 1).toNat = k := by bv_omega

/-- CYC counts the iterations of CLOCKCYCLES down (R133). -/
theorem runs_cycLoop (k : Nat) (s : State) (hk : s.cyc.toNat = k) : Runs [.cycLoop] s (cycleLoop k s) := by
  induction k generalizing s with
  | zero => exact .unfolds (if_pos (BitVec.eq_of_toNat_eq hk)) .done
  | succ k ih =>
    have hne : s.cyc ≠ 0 := by rintro h; simp [h] at hk
    have hcyc : (clockCycle s).cyc = s.cyc := (clockCycle_frame s).cyc
    have hnext : Runs [.cycNext] (clockCycle s) (cycleLoop (k + 1) s) :=
      .unfolds rfl (ih _ (toNat_sub_one (by rw [hcyc, hk])))
    exact .unfolds (if_neg hne) ((runs_clockCycle s).cons hnext)

theorem runs_clockCycles (n : Byte) (s : State) : Runs [.op (.clockCycles n)] s (clockCycles n s) :=
  .unfolds rfl (runs_cycLoop _ _ rfl)

/-! The byte serializer (spec/42_byte_serializer.md). -/

theorem runs_bitSend (s : State) : Runs [.bitSend] s (sendBit s) := by
  refine .unfolds rfl ?_
  unfold sendBit
  split
  · exact runs_dataHigh s
  · exact runs_dataLow s

/-- BITCNT counts the bits of WRITEBYTE up to eight (R150). -/
theorem runs_bitLoop (k : Nat) (s t : State) (hk : s.bitcnt.toNat + k = 8)
    (h : Runs [.op .clockLow, .op .dataHigh, .op .clockHigh, .pollInit] (writeLoop k s) t) : Runs [.bitLoop] s t := by
  induction k generalizing s with
  | zero => exact .unfolds (if_pos (BitVec.eq_of_toNat_eq hk)) h
  | succ k ih =>
    have hne : s.bitcnt ≠ 8 := by rintro h; simp [h] at hk
    have hbit : (clockHigh (sendBit (clockLow s))).bitcnt = s.bitcnt := by
      rw [(clockHigh_frame _).bitcnt, (sendBit_frame _).bitcnt, (clockLow_frame _).bitcnt]
    have hnext : Runs [.bitNext] (clockHigh (sendBit (clockLow s))) t := by
      refine .unfolds rfl (ih (shiftBit (clockHigh (sendBit (clockLow s)))) ?_ h)
      simp only [shiftBit, State.setBitcnt_bitcnt, hbit]
      bv_omega
    exact .unfolds (if_neg hne) ((runs_clockLow s).cons ((runs_bitSend _).cons ((runs_clockHigh _).cons hnext)))

/-- POLLCNT counts the attempts of the acknowledgment detector up to its bound (R152). -/
theorem runs_pollLoop (k : Nat) (s : State) (hk : s.pollcnt.toNat + k = s.cfgAckMax.toNat) :
    Runs [.pollLoop] s (pollLoop k s) := by
  induction k generalizing s with
  | zero => exact .unfolds (if_neg (by bv_omega)) .done
  | succ k ih =>
    refine .unfolds (if_pos (by bv_omega)) ((runs_readDataBit s).cons ?_)
    unfold pollLoop
    split
    · exact .unfolds (if_pos ‹_›) .done
    · refine .unfolds (if_neg ‹_›) (ih _ ?_)
      have hf := readDataBit_frame s
      simp only [State.setPollcnt_pollcnt, State.setPollcnt_cfgAckMax, hf.pollcnt, hf.cfgAckMax]
      bv_omega

theorem runs_ackPoll (s : State) : Runs [.pollInit] s (ackPoll s) :=
  .unfolds rfl (runs_pollLoop s.pollBound (s.setPollcnt 0) (by simp [State.pollBound]))

theorem runs_writeByte (value : Byte) (s : State) : Runs [.op (.writeByte value)] s (writeByte value s) :=
  .unfolds rfl <| runs_bitLoop 8 ((s.setSr value).setBitcnt 0) _ rfl <|
    (runs_clockLow _).cons <| (runs_dataHigh _).cons <| (runs_clockHigh _).cons <| runs_ackPoll _

/-- BITCNT counts the bits of READBYTE up to eight (R155). -/
theorem runs_readLoop (k : Nat) (v : Byte) (s : State) (hk : s.bitcnt.toNat + k = 8) :
    Runs [.readLoop v] s (readLoop k v s) := by
  induction k generalizing v s with
  | zero => exact .unfolds (if_pos (BitVec.eq_of_toNat_eq hk)) .done
  | succ k ih =>
    have hne : s.bitcnt ≠ 8 := by rintro h; simp [h] at hk
    have hbit : (clockLow (readDataBit (clockCycle s))).bitcnt = s.bitcnt := by
      rw [(clockLow_frame _).bitcnt, (readDataBit_frame _).bitcnt, (clockCycle_frame _).bitcnt]
    have htake : Runs [.readTake v] (readDataBit (clockCycle s)) (readLoop (k + 1) v s) := by
      refine .unfolds rfl ((runs_clockLow _).cons (.unfolds rfl (ih _ _ ?_)))
      simp only [State.setBitcnt_bitcnt, hbit]
      bv_omega
    exact .unfolds (if_neg hne) ((runs_clockCycle s).cons ((runs_readDataBit _).cons htake))

theorem runs_readByte (s : State) : Runs [.op .readByte] s (readByte s) :=
  .unfolds rfl ((runs_dataHigh s).cons (.unfolds rfl (runs_readLoop 8 0 _ rfl)))

/-! The acknowledgment driver and the framing (spec/43_acknowledge.md, spec/44_framing.md). -/

theorem runs_sendAck (s : State) : Runs [.op .sendAck] s (sendAck s) :=
  .unfolds rfl ((runs_dataLow s).cons ((runs_clockCycle _).cons (runs_clockLow _)))

theorem runs_sendNak (s : State) : Runs [.op .sendNak] s (sendNak s) :=
  .unfolds rfl ((runs_dataHigh s).cons ((runs_clockCycle _).cons (runs_clockLow _)))

theorem runs_start (s : State) : Runs [.op .start] s (start s) :=
  .unfolds rfl <| (runs_clockLow s).cons <| (runs_dataHigh _).cons <| .act <| (runs_clockHigh _).cons <| .act <|
    (runs_dataLow _).cons <| .act <| (runs_clockLow _).cons <| .act .done

theorem runs_stop (s : State) : Runs [.op .stop] s (stop s) :=
  .unfolds rfl <| (runs_clockLow s).cons <| (runs_dataLow _).cons <| (runs_clockHigh _).cons <| .act <|
    (runs_dataHigh _).cons <| .act .done

theorem runs_finish (r : Result) (s : State) : Runs [.finish r] s (finish r s) := .unfolds rfl .done

theorem runs_powerOn (s : State) : Runs [.op .powerOn] s (powerOn s) :=
  .unfolds rfl <| (runs_dataHigh s).cons <| (runs_clockLow _).cons <| (runs_clockCycles _ _).cons <|
    runs_finish _ _

/-! The frame level (spec/45_frame_operations.md). -/

theorem tryFirst_frame (s : State) : writeOnly s (tryFirst s) := (start_frame s).bits.write.trans (writeByte_frame _ _)

theorem runs_tryFirst {s t : State} (h : Runs [.tryTest] (tryFirst s) t) : Runs [.tryLoop] s t :=
  .unfolds rfl ((runs_start s).cons (.unfolds rfl ((runs_writeByte _ _).cons h)))

/-- TRYCNT counts the failed attempts up to their bound, where the loop ends (R191, R192). -/
theorem runs_tryLoop (k : Nat) (s t : State) (hk : k = (s.cfgStartMax - 1 - s.trycnt).toNat + 1)
    (hok : (tryLoop k s).acked = true → Runs [.cmdLoop] ((tryLoop k s).setIdx 1) t)
    (hfail : (tryLoop k s).acked = false → Runs [.finish .startFailure] (tryLoop k s) t) : Runs [.tryLoop] s t := by
  induction k generalizing s with
  | zero => omega
  | succ k ih =>
    have hf := tryFirst_frame s
    refine runs_tryFirst ?_
    by_cases hack : (tryFirst s).acked = true
    · have he : tryLoop (k + 1) s = tryFirst s := if_pos hack
      rw [he] at hok
      exact .unfolds (if_pos hack) (hok hack)
    · by_cases hlast : (tryFirst s).trycnt + 1 = (tryFirst s).cfgStartMax
      · have he : tryLoop (k + 1) s = (tryFirst s).setTrycnt ((tryFirst s).trycnt + 1) :=
          (if_neg hack).trans (if_pos hlast)
        rw [he] at hfail
        exact .unfolds ((if_neg hack).trans (if_pos hlast)) (hfail (Bool.eq_false_iff.2 hack))
      · have he : tryLoop (k + 1) s = tryLoop k ((tryFirst s).setTrycnt ((tryFirst s).trycnt + 1)) :=
          (if_neg hack).trans (if_neg hlast)
        rw [he] at hok hfail
        refine .unfolds ((if_neg hack).trans (if_neg hlast)) (ih _ ?_ hok hfail)
        rw [hf.trycnt, hf.cfgStartMax] at hlast
        rw [State.setTrycnt_trycnt, State.setTrycnt_cfgStartMax, hf.trycnt, hf.cfgStartMax]
        bv_omega

theorem tryLoop_len (k : Nat) (s : State) : (tryLoop k s).len = s.len := by
  induction k generalizing s with
  | zero => rfl
  | succ k ih =>
    have hf := (tryFirst_frame s).len
    simp only [tryLoop]
    repeat' split
    · exact hf
    · exact hf
    · exact (ih _).trans hf

/-- IDX counts the bytes of SENDCOMMAND and of SENDDATA up to LEN (R191, R195). The two loops differ in what follows
them: `ok` where every byte was acknowledged, `bad` after the first that was not. -/
theorem runs_sendLoop {head test : Stmt} {ok bad : List Stmt}
    (hhead : ∀ s, unfold head s = if s.idx = s.len then (s, ok) else (s, [.op (.writeByte s.byteAtIdx), test]))
    (htest : ∀ s, unfold test s = if s.acked then (s.setIdx (s.idx + 1), [head]) else (s, bad))
    (hh : ∀ a, head ≠ .act a) (ht : ∀ a, test ≠ .act a) (k : Nat) (s t : State)
    (hk : s.idx.toNat + k = s.len.toNat) (h : Runs (if (sendLoop k s).1 then ok else bad) (sendLoop k s).2 t) :
    Runs [head] s t := by
  induction k generalizing s with
  | zero => exact .unfolds ((hhead s).trans (if_pos (BitVec.eq_of_toNat_eq hk))) h hh
  | succ k ih =>
    have hne : s.idx ≠ s.len := by rintro h; rw [h] at hk; omega
    have hf := writeByte_frame s.byteAtIdx s
    refine .unfolds ((hhead s).trans (if_neg hne)) ((runs_writeByte _ s).cons ?_) hh
    by_cases hack : (writeByte s.byteAtIdx s).acked = true
    · have he : sendLoop (k + 1) s = sendLoop k (writeByte s.byteAtIdx s).nextIdx := if_pos hack
      rw [he] at h
      refine .unfolds ((htest _).trans (if_pos hack)) (ih _ ?_ h) ht
      rw [State.setIdx_idx, State.setIdx_len, hf.idx, hf.len]
      bv_omega
    · have he : sendLoop (k + 1) s = (false, writeByte s.byteAtIdx s) := if_neg hack
      rw [he] at h
      exact .unfolds ((htest _).trans (if_neg hack)) h ht

theorem runs_cmdLoop (k : Nat) (s t : State) (hk : s.idx.toNat + k = s.len.toNat)
    (h : Runs [.finish (if (sendLoop k s).1 then .success else .cmdByteFailure)] (sendLoop k s).2 t) :
    Runs [.cmdLoop] s t :=
  runs_sendLoop (head := .cmdLoop) (test := .cmdTest) (fun _ => rfl) (fun _ => rfl) nofun nofun k s t hk
    (by rwa [← apply_ite (fun r => [Stmt.finish r])])

theorem runs_dataLoop (k : Nat) (s t : State) (hk : s.idx.toNat + k = s.len.toNat)
    (h : Runs [.op .stop, .finish (if (sendLoop k s).1 then .success else .dataWriteFailure)] (sendLoop k s).2 t) :
    Runs [.dataLoop] s t :=
  runs_sendLoop (head := .dataLoop) (test := .dataTest) (fun _ => rfl) (fun _ => rfl) nofun nofun k s t hk
    (by rwa [← apply_ite (fun r => [Stmt.op .stop, Stmt.finish r])])

theorem sendCommand_eq (len : Byte) (s : State) :
    sendCommand len s =
      let u := tryLoop ((s.setLen len).setTrycnt 0).tryBound ((s.setLen len).setTrycnt 0)
      let v := sendLoop (len.toNat - 1) (u.setIdx 1)
      if u.acked then finish (if v.1 then .success else .cmdByteFailure) v.2 else finish .startFailure u := by
  unfold sendCommand
  dsimp only
  split
  · split <;> rename_i hv <;> rw [hv] <;> rfl
  · rfl

theorem sendData_eq (len : Byte) (s : State) :
    sendData len s =
      let v := sendLoop len.toNat ((s.setLen len).setIdx 0)
      finish (if v.1 then .success else .dataWriteFailure) (stop v.2) := by
  unfold sendData
  split <;> rename_i hv <;> rw [hv] <;> rfl

theorem runs_sendCommand (len : Byte) (s : State) (hlen : len ≠ 0) :
    Runs [.op (.sendCommand len)] s (sendCommand len s) := by
  have hl := tryLoop_len ((s.setLen len).setTrycnt 0).tryBound ((s.setLen len).setTrycnt 0)
  rw [sendCommand_eq]
  refine .unfolds (if_neg hlen) (runs_tryLoop ((s.setLen len).setTrycnt 0).tryBound _ _ (by simp [State.tryBound])
    (fun hack => ?_) fun hack => ?_)
  · simp only [hack, if_true]
    refine runs_cmdLoop (len.toNat - 1) _ _ ?_ (runs_finish _ _)
    rw [State.setIdx_len, hl]
    show 1 + (len.toNat - 1) = len.toNat
    bv_omega
  · simp only [hack, Bool.false_eq_true, if_false]
    exact runs_finish _ _

theorem runs_sendData (len : Byte) (s : State) : Runs [.op (.sendData len)] s (sendData len s) := by
  rw [sendData_eq]
  exact .unfolds rfl (runs_dataLoop len.toNat _ _ (by simp) ((runs_stop _).cons (runs_finish _ _)))

theorem runs_answerByte (s : State) :
    Runs [if s.idx + 1 ≠ s.len then .op .sendAck else .op .sendNak] s (answerByte s) := by
  unfold answerByte
  split
  · exact runs_sendAck s
  · exact runs_sendNak s

@[simp] theorem State.storeAtIdx_idx (s : State) (v : Byte) : (s.storeAtIdx v).idx = s.idx := rfl

@[simp] theorem State.storeAtIdx_len (s : State) (v : Byte) : (s.storeAtIdx v).len = s.len := rfl

/-- A received byte is stored and answered, and IDX moves on (R197). -/
theorem runs_recvStore {s t : State} (h : Runs [.recvLoop] (answerByte (s.storeAtIdx s.rxdata)).nextIdx t) :
    Runs [.recvStore] s t := by
  refine .unfolds rfl ((runs_answerByte (s.storeAtIdx s.rxdata)).cons ?_)
  exact .unfolds rfl h

/-- IDX counts the bytes of RECEIVEDATA up to LEN (R197). -/
theorem runs_recvLoop (k : Nat) (s t : State) (hk : s.idx.toNat + k = s.len.toNat)
    (h : Runs [.op .stop, .finish .success] (receiveLoop k s) t) : Runs [.recvLoop] s t := by
  induction k generalizing s with
  | zero => exact .unfolds (if_pos (BitVec.eq_of_toNat_eq hk)) h
  | succ k ih =>
    have hne : s.idx ≠ s.len := by rintro h; rw [h] at hk; omega
    have hnext : Runs [.recvLoop] (answerByte ((readByte s).storeAtIdx (readByte s).rxdata)).nextIdx t := by
      refine ih _ ?_ h
      have hr := readByte_frame s
      have ha := answerByte_frame ((readByte s).storeAtIdx (readByte s).rxdata)
      rw [State.nextIdx, State.setIdx_idx, State.setIdx_len, ha.idx, ha.len, State.storeAtIdx_idx,
        State.storeAtIdx_len, hr.idx, hr.len]
      bv_omega
    exact .unfolds (if_neg hne) ((runs_readByte s).cons (runs_recvStore hnext))

theorem runs_receiveData (len : Byte) (s : State) : Runs [.op (.receiveData len)] s (receiveData len s) :=
  .unfolds rfl (runs_recvLoop len.toNat ((s.setLen len).setIdx 0) _ (by simp) ((runs_stop _).cons (runs_finish _ _)))

/-- LOOPC counts the iterations of WAITCLOCK down (R200). -/
theorem runs_waitLoop (k : Nat) (s t : State) (hk : s.loopc.toNat = k)
    (h : Runs [.finish .success] (waitLoop k s) t) : Runs [.waitLoop] s t := by
  induction k generalizing s with
  | zero => exact .unfolds (if_pos (BitVec.eq_of_toNat_eq hk)) h
  | succ k ih =>
    have hne : s.loopc ≠ 0 := by rintro h; simp [h] at hk
    have hf : (stop (clockCycles Config.waitClocks (start s))).loopc = s.loopc :=
      (((start_frame s).cycles.trans (clockCycles_frame _ _)).trans (stop_frame _).cycles).loopc
    refine .unfolds (if_neg hne) ((runs_start s).cons ((runs_clockCycles _ _).cons ((runs_stop _).cons ?_)))
    exact .unfolds rfl (ih _ (toNat_sub_one (by rw [hf, hk])) h)

theorem runs_waitClock (loopCount : Byte) (s : State) :
    Runs [.op (.waitClock loopCount)] s (waitClock loopCount s) := by
  have hf : (dataLow (s.setLoopc loopCount)).loopc = loopCount := (dataLow_frame _).cycles.loopc
  exact .unfolds rfl ((runs_dataLow _).cons (runs_waitLoop _ _ _ (congrArg BitVec.toNat hf) (runs_finish _ _)))

/-- What `exec` answers is where the operation's statements end. -/
theorem exec_runs (i : Instr) (s : State) : ∃ t, exec i s = .next t ∧ Runs [.op i] s t := by
  cases i with
  | float l => exact ⟨_, rfl, .unfolds rfl (.act .done)⟩
  | driveLow l => exact ⟨_, rfl, .unfolds rfl (.act .done)⟩
  | sample l => exact ⟨_, rfl, .unfolds rfl (.act .done)⟩
  | clockHigh => exact ⟨_, rfl, runs_clockHigh s⟩
  | clockLow => exact ⟨_, rfl, runs_clockLow s⟩
  | clockCycle => exact ⟨_, rfl, runs_clockCycle s⟩
  | clockCycles n => exact ⟨_, rfl, runs_clockCycles n s⟩
  | dataHigh => exact ⟨_, rfl, runs_dataHigh s⟩
  | dataLow => exact ⟨_, rfl, runs_dataLow s⟩
  | readDataBit => exact ⟨_, rfl, runs_readDataBit s⟩
  | writeByte value => exact ⟨_, rfl, runs_writeByte value s⟩
  | readByte => exact ⟨_, rfl, runs_readByte s⟩
  | sendAck => exact ⟨_, rfl, runs_sendAck s⟩
  | sendNak => exact ⟨_, rfl, runs_sendNak s⟩
  | start => exact ⟨_, rfl, runs_start s⟩
  | stop => exact ⟨_, rfl, runs_stop s⟩
  | powerOn => exact ⟨_, rfl, runs_powerOn s⟩
  | sendCommand len =>
    by_cases hlen : len = 0
    · exact ⟨_, if_pos hlen, .unfolds (if_pos hlen) .done⟩
    · exact ⟨_, if_neg hlen, runs_sendCommand len s hlen⟩
  | sendData len => exact ⟨_, rfl, runs_sendData len s⟩
  | receiveData len => exact ⟨_, rfl, runs_receiveData len s⟩
  | waitClock loopCount => exact ⟨_, rfl, runs_waitClock loopCount s⟩

/-- An operation does not move `upc`. -/
theorem exec_upc {i : Instr} {s t : State} (h : exec i s = .next t) : t.upc = s.upc := by
  obtain ⟨-, rfl⟩ | ⟨-, hop⟩ := exec_frame i s t h
  · rfl
  · exact hop.upc

/-- Settles O22: the operation's statements end in what `exec` answers, and the engine goes where they end. -/
theorem engineRunsToWhatExecAnswers : Obligations.EngineRunsToWhatExecAnswers := by
  intro i s hidle
  obtain ⟨t, hexec, hruns⟩ := exec_runs i s
  have hupc : t.upc = [] := (exec_upc hexec).trans hidle
  obtain ⟨n, hnow, hrun, hbusy⟩ := hruns.engineRun
  have hn : t.now - s.now = n := by omega
  refine ⟨t, hexec, by omega, ?_, hupc, ?_⟩
  · rw [hn, accept, hrun, ← hupc]
    rfl
  · rw [hn]
    exact hbusy

/-! One engine step. -/

/-- A step does the first action of the list, which is then no longer listed. -/
theorem step_of_host_cons {s : State} {a : HostAct} {rest : List HostAct} (h : s.host = a :: rest) :
    step s = hostStep a (s.setHost rest) := by
  rw [step, machineStep, h]

theorem busy_eq_false_iff (s : State) : s.busy = false ↔ s.upc = [] := by simp [State.busy]

/-- Settling leaves the lines, the record and the instant as they are. -/
theorem settle_frame (s : State) :
    (settle s).now = s.now ∧ (settle s).trace = s.trace ∧ (settle s).dirClock = s.dirClock ∧
      (settle s).dirData = s.dirData := by
  obtain ⟨_, _, _, _, _, _, _, _, _, _, _, _, _, _, ht, -, -⟩ := settle_silent s
  rw [ht]
  exact ⟨rfl, rfl, rfl, rfl⟩

/-- While the engine is busy the host's wait keeps its place in the list, and the engine takes a step (R37). -/
theorem step_waitIdle {s : State} {rest : List HostAct} (h : s.host = .waitIdle :: rest) :
    step s = .next (if s.upc = [] then s.setHost rest else engineStep s) := by
  have hback : (s.setHost rest).setHost (.waitIdle :: rest) = s := by rw [← h]; rfl
  rw [step_of_host_cons h, hostStep, State.setHost_host, hback]
  by_cases hidle : s.upc = [] <;> simp [State.busy, hidle]

/-- Settles O21: a busy engine performs its micro-action and settles, an idle one does nothing. -/
theorem engineStepIsOneMicroAction : Obligations.EngineStepIsOneMicroAction := by
  refine ⟨fun s a rest hupc => ?_, fun s hidle => engineStep_idle hidle, fun s hhost => ?_,
    fun s rest => ⟨fun hhost => ?_, fun hhost => step_waitIdle hhost⟩⟩
  · rw [engineStep_act hupc]
    obtain ⟨hnow, htrace, hclock, hdata⟩ := settle_frame ((perform a s).setUpc rest)
    exact ⟨hnow.trans (perform_spec a s).1, htrace, hclock, hdata, settle_settled _⟩
  · rw [step, machineStep, hhost]
  · exact step_of_host_cons hhost

end Sys2Proof.Machine
end

section
/-! SUPPORT. The host port, action by action: what a write and a read of a register do, what a move of the environment
leaves alone, and which steps can clear a STATUS flag or move a bound. -/

namespace Sys2Proof.Machine

/-! Writes (R35, R36, R39). -/

theorem writeCfg_idle (zeroAllowed : Bool) (set : Byte → State → State) (v : Byte) {s : State} (h : s.upc = []) :
    writeCfg zeroAllowed set v s = if v = 0 ∧ zeroAllowed = false then s.markIllegal else set v s := by
  simp [writeCfg, (busy_eq_false_iff s).2 h]

theorem hostWriteBuf_idle (i v : Byte) {s : State} (h : s.upc = []) : hostWriteBuf i v s = s.bufWrite i v := by
  simp [hostWriteBuf, (busy_eq_false_iff s).2 h]

/-- A byte written to the port is the byte a CFG register takes. -/
theorem portByte_setWidth (v : Byte) : portByte (v.setWidth 16) = v := by
  simp [portByte]

/-- The read-only and the reserved registers ignore a write (R36). -/
theorem writeReg_ignored {r : BitVec 4} (v : CmdWord) (s : State) (hcmd : r ≠ 0x0) (hack : r ≠ 0x8) (hstart : r ≠ 0x9)
    (hpwr : r ≠ 0xA) : writeReg r v s = s := by
  unfold writeReg
  split <;> rename_i hr
  · exact absurd (BitVec.eq_of_toNat_eq hr) hcmd
  · exact absurd (BitVec.eq_of_toNat_eq hr) hack
  · exact absurd (BitVec.eq_of_toNat_eq hr) hstart
  · exact absurd (BitVec.eq_of_toNat_eq hr) hpwr
  · rfl

/-- A write to a CFG register while idle, whichever register it is (R35). -/
theorem step_writeCfg {r : BitVec 4} {zeroAllowed : Bool} {set : Byte → State → State}
    (hr : ∀ w t, writeReg r w t = writeCfg zeroAllowed set (portByte w) t) {s : State} {v : Byte} {rest : List HostAct}
    (hidle : s.upc = []) (hhost : s.host = .writeReg r (v.setWidth 16) :: rest) :
    step s = .next (if v = 0 ∧ zeroAllowed = false then (s.setHost rest).markIllegal else set v (s.setHost rest)) := by
  rw [step_of_host_cons hhost, hostStep, hr, portByte_setWidth]
  exact congrArg Host.Outcome.next (writeCfg_idle zeroAllowed set v (s := s.setHost rest) hidle)

/-- Settles O10: each CFG register by the write it stands for, the others by ignoring the write. -/
theorem cfgWritesWhileIdle : Obligations.CfgWritesWhileIdle := by
  refine ⟨fun s v rest hidle => ⟨fun hhost => ?_, fun hhost => ?_, fun hhost => ?_⟩,
    fun s r v rest hcmd hack hstart hpwr hhost => ?_⟩
  · rw [step_writeCfg (set := fun b t => t.setCfgAckMax b) (fun _ _ => rfl) hidle hhost]
    by_cases hv : v = 0 <;> simp [hv] <;> rfl
  · rw [step_writeCfg (set := fun b t => t.setCfgStartMax b) (fun _ _ => rfl) hidle hhost]
    by_cases hv : v = 0 <;> simp [hv] <;> rfl
  · rw [step_writeCfg (set := fun b t => t.setCfgPwrClks b) (fun _ _ => rfl) hidle hhost]
    simp
    rfl
  · rw [step_of_host_cons hhost, hostStep, writeReg_ignored v _ hcmd hack hstart hpwr]
    rfl

/-- A read of a byte of BUF answers it, idle or busy (R39, R256). -/
theorem step_readBuf {s : State} {i : Byte} {rest : List HostAct} (h : s.host = .readBuf i :: rest) :
    step s = .next ((s.setHost rest).reply ((s.bufRead i).setWidth 16)) := step_of_host_cons h

/-- Settles O12: the byte written reads back, and every other index as before. -/
theorem hostOwnsTheIdleBuffer : Obligations.HostOwnsTheIdleBuffer := by
  intro s i v rest hhost hidle
  have hwrite := hostWriteBuf_idle i v (s := s.setHost (.readBuf i :: rest)) hidle
  have hread := fun j => bufRead_bufWrite (s.setHost (.readBuf i :: rest)) i j v
  refine ⟨(s.setHost (.readBuf i :: rest)).bufWrite i v, ?_, hread, rfl, ?_⟩
  · rw [step_of_host_cons hhost, hostStep, hwrite]
  · have hi : ((s.setHost (.readBuf i :: rest)).bufWrite i v).bufRead i = v := by simp [hread]
    rw [step_readBuf rfl, hi]
    rfl

/-! Reads (R36, R37). -/

/-- STATUS at the port: BUSY, ILL and OVR in bits 0, 1 and 2, the others 0 (R33). -/
theorem status_bits (busy ill ovr : Bool) :
    let v : CmdWord := (flagAt busy 0 ||| flagAt ill 1 ||| flagAt ovr 2).setWidth 16
    v.getLsbD 0 = busy ∧ v.getLsbD 1 = ill ∧ v.getLsbD 2 = ovr ∧ v >>> 3 = 0 := by
  revert busy ill ovr
  decide

/-- PINDIR at the port: the two directions in bits 0 and 1, the others 0 (R23). -/
theorem pindir_bits (clock data : Bool) :
    let v : CmdWord := (flagAt clock 0 ||| flagAt data 1).setWidth 16
    v.getLsbD 0 = clock ∧ v.getLsbD 1 = data ∧ v >>> 2 = 0 := by
  revert clock data
  decide

/-- The reserved registers read 0 (R36). -/
theorem readReg_reserved {r : BitVec 4} (s : State) (h : 0xB ≤ r) : readReg r s = 0 := by
  have hr : 11 ≤ r.toNat := h
  unfold readReg
  split
  case h_11 => rfl
  all_goals omega

theorem pinoutReg_eq_zero (s : State) : s.pinoutReg = 0 := by simp [State.pinoutReg, State.outl, flagAt]

/-- Settles O11: each register by its row of the table, a byte of BUF by its index. -/
theorem hostReadsReturnTheRegisters : Obligations.HostReadsReturnTheRegisters := by
  refine ⟨fun s i rest hhost => step_readBuf hhost,
    fun s r rest hhost => ⟨readReg r s, step_of_host_cons hhost, ?_⟩⟩
  refine ⟨?cmd, ?status, ?result, ?ackcnt, ?rxdata, ?bitv, ?pindir, ?pinout, ?ackMax, ?startMax, ?pwrClks,
    readReg_reserved s⟩ <;> rintro rfl
  case status => exact status_bits s.busy s.ill s.ovr
  case result =>
    show s.result.code.setWidth 16 = _
    cases s.result <;> rfl
  case pindir => exact pindir_bits (s.dirClock == .output) (s.dirData == .output)
  case pinout => exact congrArg (BitVec.setWidth 16) (pinoutReg_eq_zero s)
  all_goals rfl

/-- Settles O16, field by field of the reset state. -/
theorem resetLeavesTheSpecifiedState : Obligations.ResetLeavesTheSpecifiedState :=
  ⟨rfl, rfl, rfl, rfl, rfl, rfl, rfl, rfl, rfl, rfl, rfl, rfl, rfl, rfl⟩

/-! The lines and the environment (R22, R40, R41). -/

theorem startTo_self (a : Levels) : a.startTo a = false := by
  unfold Levels.startTo
  cases h : a.data == 1 <;> simp_all

theorem stopTo_self (a : Levels) : a.stopTo a = false := by
  unfold Levels.stopTo
  cases h : a.data == 1 <;> simp_all

/-- A line that TWBB drives is pulled to 0, one that it floats is not driven at all (R22). -/
theorem State.pin_eq (s : State) (l : Line) : s.pin l = if s.dir l = .output then some 0 else none := by
  unfold State.pin
  cases l <;> cases s.dir _ <;> rfl

theorem newEvents_of_trace_cons {s t : State} {e : Event} (h : t.trace = e :: s.trace) : newEvents s t = [e] := by
  simp [newEvents, h]

/-- Between the levels before a mark of the environment and those after it there is one change. -/
theorem countChanges_mark (p : Levels → Levels → Bool) (hp : ∀ a, p a a = false) (before after : Levels) :
    countChanges p [after, after, before] = if p before after then 1 else 0 := by
  simp [countChanges, hp]

/-- Settles O20: the latch is 0, and a move of the environment enters one mark, between the levels before and after. -/
theorem linesAreOpenDrain : Obligations.LinesAreOpenDrain := by
  refine ⟨fun s l => ⟨?_, ?_, ?_, ?_, ?_, State.level_eq_one s l⟩, fun s p rest hhost => ?_⟩
  · intro h; simp [State.pin_eq, h]
  · intro h; simp [State.pin_eq, h]
  · rw [State.pin_eq]; split <;> simp
  · cases l <;> rfl
  · simp [State.level_eq, or_iff_not_imp_left]
  · obtain ⟨henv, htrace, -⟩ := moveEnvironment_spec p (s.setHost rest)
    have hnew : newEvents s (moveEnvironment p (s.setHost rest)) =
        [⟨.environment, s.levels, (moveEnvironment p (s.setHost rest)).levels⟩] :=
      newEvents_of_trace_cons htrace
    refine ⟨moveEnvironment p (s.setHost rest), step_of_host_cons hhost, henv, rfl, ?_, ?_,
      moveEnvironment_tokens p _, ?_, ?_, ?_⟩
    · rw [startCount, levelsBetween, hnew]
      exact countChanges_mark _ startTo_self _ _
    · rw [stopCount, levelsBetween, hnew]
      exact countChanges_mark _ stopTo_self _ _
    all_goals rw [hnew]; rfl

end Sys2Proof.Machine
end

section
/-! SUPPORT. What a step can do to the STATUS flags, to EXPOSE_INTERNAL and to the bounds: no operation and no engine
step clears a flag or moves a setting, and of the host's actions only a reset clears a flag, and only it and a write to
a CFG register move a bound. -/

namespace Sys2Proof.Machine

/-- STATUS.ILL and STATUS.OVR stay set where they were, and EXPOSE_INTERNAL stays as it was (R33, R97). -/
def FlagsKept (s t : State) : Prop :=
  (s.ill = true → t.ill = true) ∧ (s.ovr = true → t.ovr = true) ∧ t.exposeInternal = s.exposeInternal

/-- The three bounds stay as they were (R35). -/
def BoundsKept (s t : State) : Prop :=
  t.cfgAckMax = s.cfgAckMax ∧ t.cfgStartMax = s.cfgStartMax ∧ t.cfgPwrClks = s.cfgPwrClks

/-- Both: what every step keeps that is neither a reset nor a write to a CFG register. -/
def SettingsKept (s t : State) : Prop := FlagsKept s t ∧ BoundsKept s t

theorem SettingsKept.refl (s : State) : SettingsKept s s := ⟨⟨id, id, rfl⟩, rfl, rfl, rfl⟩

theorem SettingsKept.trans {s t u : State} (h : SettingsKept s t) (k : SettingsKept t u) : SettingsKept s u := by
  obtain ⟨⟨hill, hovr, hexp⟩, hack, hstart, hpwr⟩ := h
  obtain ⟨⟨kill, kovr, kexp⟩, kack, kstart, kpwr⟩ := k
  exact ⟨⟨kill ∘ hill, kovr ∘ hovr, kexp.trans hexp⟩, kack.trans hack, kstart.trans hstart, kpwr.trans hpwr⟩

/-- The bounds are kept under any condition. -/
theorem SettingsKept.both {s t : State} {p : Prop} (h : SettingsKept s t) : FlagsKept s t ∧ (p → BoundsKept s t) :=
  ⟨h.1, fun _ => h.2⟩

theorem markIllegal_settings (s : State) : SettingsKept s s.markIllegal := ⟨⟨fun _ => rfl, id, rfl⟩, rfl, rfl, rfl⟩

theorem markOverrun_settings (s : State) : SettingsKept s s.markOverrun := ⟨⟨id, fun _ => rfl, rfl⟩, rfl, rfl, rfl⟩

/-! Operations and the sequencer. -/

theorem operationOnly.settings {s t : State} (h : operationOnly s t) : SettingsKept s t := by
  obtain ⟨_, _, _, _, _, _, _, _, _, _, _, _, _, _, _, _, _, _, rfl, _⟩ := h
  exact .refl s

theorem silentOnly.settings {s t : State} (h : silentOnly s t) : SettingsKept s t := by
  obtain ⟨_, _, _, _, _, _, _, _, _, _, _, _, _, rfl, -, hill⟩ := h
  exact ⟨⟨hill, id, rfl⟩, rfl, rfl, rfl⟩

theorem setUpc_settings (s : State) (u : List Stmt) : SettingsKept s (s.setUpc u) := .refl s

theorem setHost_settings (s : State) (acts : List HostAct) : SettingsKept s (s.setHost acts) := .refl s

theorem perform_settings (a : Act) (s : State) : SettingsKept s (perform a s) := by
  obtain ⟨-, -, hframe⟩ := perform_spec a s
  exact hframe.op.settings

theorem exec_settings {i : Instr} {s t : State} (h : exec i s = .next t) : SettingsKept s t := by
  obtain ⟨-, rfl⟩ | ⟨-, hop⟩ := exec_frame i s t h
  · exact markIllegal_settings s
  · exact hop.settings

theorem settle_settings (s : State) : SettingsKept s (settle s) := by
  obtain ⟨u, hu⟩ := settle_silent s
  exact (setUpc_settings s u).trans hu.settings

theorem engineStep_settings (s : State) : SettingsKept s (engineStep s) := by
  obtain ⟨-, hsame | ⟨u, hsilent⟩ | ⟨a, u, hact⟩⟩ := engineStep_spec s
  · rw [hsame]; exact .refl s
  · exact (setUpc_settings s u).trans hsilent.settings
  · exact ((perform_settings a s).trans (setUpc_settings _ u)).trans hact.settings

theorem accept_settings (i : Instr) (s : State) : SettingsKept s (accept i s) :=
  (setUpc_settings s [.op i]).trans (settle_settings _)

/-! The host port. -/

theorem writeCmd_settings (cw : CmdWord) (s : State) : SettingsKept s (writeCmd cw s) := by
  unfold writeCmd
  split
  · exact markOverrun_settings s
  · dsimp only
    split
    · exact accept_settings _ (s.setCmd cw)
    · exact markIllegal_settings (s.setCmd cw)

theorem callCmd_settings {cw : CmdWord} {s t : State} (h : callCmd cw s = .next t) : SettingsKept s t := by
  unfold callCmd at h
  split at h
  · cases h
    exact markOverrun_settings s
  · split at h
    · exact exec_settings (s := s.setCmd cw) h
    · cases h
      exact markIllegal_settings (s.setCmd cw)

theorem hostWriteBuf_settings (i v : Byte) (s : State) : SettingsKept s (hostWriteBuf i v s) := by
  unfold hostWriteBuf
  split
  · exact markOverrun_settings s
  · exact .refl s

/-- A write to a CFG register clears no flag, whatever it does to the register. -/
theorem writeCfg_flags (zeroAllowed : Bool) (set : Byte → State → State) (v : Byte) {s : State}
    (hset : FlagsKept s (set v s)) : FlagsKept s (writeCfg zeroAllowed set v s) := by
  obtain he | he | ⟨-, he⟩ := writeCfg_cases zeroAllowed set v s <;> rw [he]
  · exact (markOverrun_settings s).1
  · exact (markIllegal_settings s).1
  · exact hset

/-- A write to a host register clears no flag, and moves a bound only where it is to a CFG register. -/
theorem writeReg_settings (r : BitVec 4) (v : CmdWord) (s : State) :
    FlagsKept s (writeReg r v s) ∧ (r ≠ 0x8 → r ≠ 0x9 → r ≠ 0xA → BoundsKept s (writeReg r v s)) := by
  by_cases hcmd : r = 0x0
  · subst hcmd
    obtain ⟨hflags, hbounds⟩ := writeCmd_settings v s
    exact ⟨hflags, fun _ _ _ => hbounds⟩
  by_cases hack : r = 0x8
  · subst hack
    exact ⟨writeCfg_flags _ _ _ ⟨id, id, rfl⟩, fun h => absurd rfl h⟩
  by_cases hstart : r = 0x9
  · subst hstart
    exact ⟨writeCfg_flags _ _ _ ⟨id, id, rfl⟩, fun _ h => absurd rfl h⟩
  by_cases hpwr : r = 0xA
  · subst hpwr
    exact ⟨writeCfg_flags _ _ _ ⟨id, id, rfl⟩, fun _ _ h => absurd rfl h⟩
  rw [writeReg_ignored v s hcmd hack hstart hpwr]
  obtain ⟨hflags, hbounds⟩ := SettingsKept.refl s
  exact ⟨hflags, fun _ _ _ => hbounds⟩

/-- A step that is no reset clears no flag, and moves a bound only where it is a write to a CFG register. -/
theorem hostStep_settings {a : HostAct} {s t : State} (ha : a ≠ .reset) (h : hostStep a s = .next t) :
    FlagsKept s t ∧ ((∀ v, a ≠ .writeReg 0x8 v ∧ a ≠ .writeReg 0x9 v ∧ a ≠ .writeReg 0xA v) → BoundsKept s t) := by
  cases a with
  | reset => exact absurd rfl ha
  | writeReg r v =>
    cases h
    obtain ⟨hflags, hbounds⟩ := writeReg_settings r v s
    refine ⟨hflags, fun hw => hbounds ?_ ?_ ?_⟩ <;> rintro rfl <;> obtain ⟨h8, h9, hA⟩ := hw v
    · exact h8 rfl
    · exact h9 rfl
    · exact hA rfl
  | call cw => exact (callCmd_settings h).both
  | readReg r => cases h; exact (SettingsKept.refl s).both
  | writeBuf i v => cases h; exact (hostWriteBuf_settings i v s).both
  | readBuf i => cases h; exact (SettingsKept.refl s).both
  | waitIdle =>
    cases h
    split
    · exact ((setHost_settings s _).trans (engineStep_settings _)).both
    · exact (SettingsKept.refl s).both
  | tick => cases h; exact (engineStep_settings s).both
  | environment p => cases h; exact (SettingsKept.refl s).both

theorem step_settings {s t : State} (h : step s = .next t) (hreset : s.host.head? ≠ some .reset) :
    FlagsKept s t ∧ ((∀ v, s.host.head? ≠ some (.writeReg 0x8 v) ∧ s.host.head? ≠ some (.writeReg 0x9 v) ∧
        s.host.head? ≠ some (.writeReg 0xA v)) → BoundsKept s t) := by
  cases hhost : s.host with
  | nil =>
    rw [step, machineStep, hhost] at h
    cases h
    exact (engineStep_settings s).both
  | cons a rest =>
    rw [step_of_host_cons hhost] at h
    rw [hhost] at hreset
    obtain ⟨hflags, hbounds⟩ := hostStep_settings (s := s.setHost rest) (by simpa using hreset) h
    exact ⟨hflags, fun hw => hbounds (by simpa using hw)⟩

/-- Settles O14, from what a step keeps that is no reset. -/
theorem illAndOvrAreSticky : Obligations.IllAndOvrAreSticky := by
  intro s t h hreset
  obtain ⟨⟨hill, hovr, -⟩, -⟩ := step_settings h hreset
  exact ⟨hill, hovr⟩

/-- A reset keeps the launch parameter (R250). -/
theorem step_exposeInternal {s t : State} (h : step s = .next t) : t.exposeInternal = s.exposeInternal := by
  by_cases hreset : s.host.head? = some .reset
  · obtain ⟨rest, hhost⟩ := List.head?_eq_some_iff.1 hreset
    rw [step_of_host_cons hhost] at h
    cases h
    rfl
  · obtain ⟨⟨-, -, hexp⟩, -⟩ := step_settings h hreset
    exact hexp

/-- Settles O15, from what a step keeps that is neither a reset nor a write to a CFG register. -/
theorem onlyTheHostChangesTheBounds : Obligations.OnlyTheHostChangesTheBounds := by
  intro s t h
  refine ⟨step_exposeInternal h, fun hwrite hreset => ?_⟩
  obtain ⟨-, hbounds⟩ := step_settings h hreset
  exact hbounds hwrite

end Sys2Proof.Machine
end

section
/-! SUPPORT. The result kinds: an internal operation never comes to `finish`, and a public one ends there (R30,
R221). -/

namespace Sys2Proof.Machine

theorem cyclesOnly.result {s t : State} (h : cyclesOnly s t) : t.result = s.result := by
  obtain ⟨_, _, _, _, _, rfl⟩ := h; rfl

theorem writeOnly.result {s t : State} (h : writeOnly s t) : t.result = s.result := by
  obtain ⟨_, _, _, _, _, _, _, _, _, _, rfl⟩ := h; rfl

theorem readOnly.result {s t : State} (h : readOnly s t) : t.result = s.result := by
  obtain ⟨_, _, _, _, _, _, _, _, rfl⟩ := h; rfl

@[simp] theorem finish_result (r : Result) (s : State) : (finish r s).result = r := rfl

/-- An internal operation leaves RESULT (R30, R97). -/
theorem exec_internal_result {i : Instr} {s t : State} (h : exec i s = .next t) (hi : isPublic i = false) :
    t.result = s.result := by
  cases i with
  | float l => cases h; exact (floatLine_frame l s).cycles.result
  | driveLow l => cases h; exact (driveLine_frame l s).cycles.result
  | sample l => cases h; exact (sampleLine_frame l s).write.result
  | clockHigh => cases h; exact (clockHigh_frame s).cycles.result
  | clockLow => cases h; exact (clockLow_frame s).cycles.result
  | clockCycle => cases h; exact (clockCycle_frame s).cycles.result
  | clockCycles n => cases h; exact (clockCycles_frame n s).result
  | dataHigh => cases h; exact (dataHigh_frame s).cycles.result
  | dataLow => cases h; exact (dataLow_frame s).cycles.result
  | readDataBit => cases h; exact (readDataBit_frame s).write.result
  | writeByte value => cases h; exact (writeByte_frame value s).result
  | readByte => cases h; exact (readByte_frame s).result
  | sendAck => cases h; exact (sendAck_frame s).cycles.result
  | sendNak => cases h; exact (sendNak_frame s).cycles.result
  | start => cases h; exact (start_frame s).cycles.result
  | stop => cases h; exact (stop_frame s).cycles.result
  | powerOn | sendCommand _ | sendData _ | receiveData _ | waitClock _ => cases hi

theorem sendCommand_result (len : Byte) (s : State) : (sendCommand len s).result ≠ .dataWriteFailure := by
  rw [sendCommand_eq]
  dsimp only
  split
  · rw [finish_result]; split <;> decide
  · rw [finish_result]; decide

theorem sendData_result (len : Byte) (s : State) :
    (sendData len s).result = .success ∨ (sendData len s).result = .dataWriteFailure := by
  rw [sendData_eq, finish_result]
  split
  · exact .inl rfl
  · exact .inr rfl

/-- Settles O58: the internal operations by their frames, each public one by the `finish` it ends in. -/
theorem resultKindsByOperation : Obligations.ResultKindsByOperation := by
  intro i s t h hwf
  refine ⟨exec_internal_result h, ?_, ?_, ?_, ?_, ?_⟩
  · rintro rfl; cases h; exact finish_result _ _
  · rintro len rfl
    have hlen : len ≠ 0 := by simpa [Instr.wellFormed] using hwf
    rw [exec, execSendCommand, if_neg hlen] at h
    cases h
    exact sendCommand_result len s
  · rintro len rfl; cases h; exact sendData_result len s
  · rintro len rfl; cases h; exact finish_result _ _
  · rintro k rfl; cases h; exact finish_result _ _

end Sys2Proof.Machine
end

section
/-! SUPPORT. What a scripted device presents (log entry 7): its bits reach RXDATA through the bit loop of READBYTE, and
its bytes reach BUF through the byte loop of RECEIVEDATA (R155, R197). -/

namespace Sys2Proof.Machine

/-- READDATABIT samples the bit the device presents. -/
theorem readDataBit_answering {s : State} {b : Bit} {ps : List EnvPhase} (h : s.env = answering b :: ps) :
    (readDataBit s).bitv = b := by
  rw [readDataBit_scripted h]
  rcases BitVec.eq_zero_or_eq_one b with rfl | rfl <;> rfl

/-- The bit loop of READBYTE places the presented bits one after another, and takes no more of the script. -/
theorem readLoop_presented (bits : List Bit) (v : Byte) (s : State) (rest : List EnvPhase)
    (h : s.env = bits.map answering ++ rest) :
    (readLoop bits.length v s).rxdata = placeBits v s.bitcnt bits ∧ (readLoop bits.length v s).env = rest := by
  induction bits generalizing v s with
  | nil => exact ⟨rfl, h⟩
  | cons b bs ih =>
    have henv : s.env = answering b :: (bs.map answering ++ rest) := h
    have hbit : (readDataBit (clockCycle s)).bitv = b := readDataBit_answering ((clockCycle_env s).trans henv)
    have hcnt : (readDataBit (clockCycle s)).bitcnt = s.bitcnt := by
      rw [(readDataBit_frame _).bitcnt, (clockCycle_frame _).bitcnt]
    have hlow : (clockLow (readDataBit (clockCycle s))).bitcnt = s.bitcnt := by
      rw [(clockLow_frame _).bitcnt, hcnt]
    simp only [List.length_cons, readLoop, placeBits, hbit, hcnt, hlow]
    exact ih _ ((clockLow (readDataBit (clockCycle s))).setBitcnt (s.bitcnt + 1)) (by simp [henv])

@[simp] theorem bitsOfByte_length (v : Byte) : (bitsOfByte v).length = 8 := rfl

/-- The bits of a byte make the byte again. -/
theorem byteOfBits_bitsOfByte (v : Byte) : byteOfBits (bitsOfByte v) = v := by
  revert v
  decide

/-- READBYTE returns the byte whose bits the device presents, and takes those from the script (R64, R155). -/
theorem readByte_presented {value : Byte} {s : State} {rest : List EnvPhase}
    (h : s.env = (bitsOfByte value).map answering ++ rest) :
    (readByte s).rxdata = value ∧ (readByte s).env = rest := by
  obtain ⟨hrx, henv⟩ := readLoop_presented (bitsOfByte value) 0 ((dataHigh s).setBitcnt 0) rest (by simpa using h)
  rw [bitsOfByte_length] at hrx henv
  rw [State.setBitcnt_bitcnt, placeBits_eight _ (bitsOfByte_length value), byteOfBits_bitsOfByte] at hrx
  exact ⟨hrx, henv⟩

@[simp] theorem State.storeAtIdx_env (s : State) (v : Byte) : (s.storeAtIdx v).env = s.env := rfl

@[simp] theorem State.nextIdx_bufRead (s : State) (j : Byte) : s.nextIdx.bufRead j = s.bufRead j := rfl

@[simp] theorem finish_env (r : Result) (s : State) : (finish r s).env = s.env := rfl

@[simp] theorem finish_bufRead (r : Result) (s : State) (j : Byte) : (finish r s).bufRead j = s.bufRead j := rfl

/-- One byte of RECEIVEDATA: read, stored at IDX, answered, IDX moved on (R197). -/
def receiveOne (s : State) : State := (answerByte ((readByte s).storeAtIdx (readByte s).rxdata)).nextIdx

theorem receiveLoop_succ (k : Nat) (s : State) : receiveLoop (k + 1) s = receiveLoop k (receiveOne s) := rfl

theorem receiveOne_idx (s : State) : (receiveOne s).idx = s.idx + 1 := by
  rw [receiveOne, State.nextIdx, State.setIdx_idx, (answerByte_frame _).idx, State.storeAtIdx_idx,
    (readByte_frame s).idx]

theorem receiveOne_env (s : State) : (receiveOne s).env = (readByte s).env := by
  rw [receiveOne, State.nextIdx, State.setIdx_env, (answerByte_frame _).env, State.storeAtIdx_env]

/-- Of BUF, one byte of RECEIVEDATA writes the index IDX alone. -/
theorem receiveOne_bufRead (s : State) (j : Byte) :
    (receiveOne s).bufRead j = if j = s.idx then (readByte s).rxdata else s.bufRead j := by
  rw [receiveOne, State.nextIdx_bufRead, (answerByte_frame _).bits.bufRead, State.storeAtIdx, bufRead_bufWrite,
    (readByte_frame s).idx, (readByte_frame s).bufRead]

/-- The byte loop of RECEIVEDATA, from an IDX it does not wrap: the presented bytes stand from IDX up, those below are
as before, and no more of the script is taken. -/
theorem receiveLoop_presented (bytes : List Byte) (s : State) (rest : List EnvPhase)
    (hlen : s.idx.toNat + bytes.length < 256) (h : s.env = (bytes.flatMap bitsOfByte).map answering ++ rest) :
    (receiveLoop bytes.length s).env = rest ∧
      (∀ j < s.idx, (receiveLoop bytes.length s).bufRead j = s.bufRead j) ∧
      ∀ (j v : Byte), s.idx ≤ j → bytes[j.toNat - s.idx.toNat]? = some v →
        (receiveLoop bytes.length s).bufRead j = v := by
  induction bytes generalizing s with
  | nil => exact ⟨h, fun _ _ => rfl, fun _ _ _ hv => by simp at hv⟩
  | cons b bs ih =>
    rw [List.length_cons] at hlen ⊢
    rw [receiveLoop_succ]
    obtain ⟨hrx, henv⟩ := readByte_presented (s := s) (value := b)
      (rest := (bs.flatMap bitsOfByte).map answering ++ rest) (by simpa using h)
    have hread := receiveOne_bufRead s
    rw [hrx] at hread
    have hidx : (receiveOne s).idx.toNat = s.idx.toNat + 1 := by rw [receiveOne_idx]; bv_omega
    obtain ⟨ihenv, ihbelow, ihfrom⟩ := ih (receiveOne s) (by omega) ((receiveOne_env s).trans henv)
    refine ⟨ihenv, fun j hj => ?_, fun j v hj hv => ?_⟩
    · rw [ihbelow j (by bv_omega), hread, if_neg (by bv_omega)]
    · by_cases hji : j = s.idx
      · have hbv : b = v := by simpa [hji] using hv
        rw [ihbelow j (by bv_omega), hread, if_pos hji, hbv]
      · have hsub : j.toNat - s.idx.toNat = j.toNat - (receiveOne s).idx.toNat + 1 := by bv_omega
        refine ihfrom j v (by bv_omega) ?_
        rwa [hsub, List.getElem?_cons_succ] at hv

/-- Settles O53: the byte loop from IDX 0 stores what is presented, and STOP leaves BUF and the script alone. -/
theorem receiveDataStoresThePresentedBytes : Obligations.ReceiveDataStoresThePresentedBytes := by
  intro len s bytes rest hlen h
  obtain ⟨henv, -, hfrom⟩ := receiveLoop_presented bytes ((s.setLen len).setIdx 0) rest
    (by rw [State.setIdx_idx, hlen]; bv_omega) h
  rw [hlen] at henv hfrom
  have hstop := stop_frame (receiveLoop len.toNat ((s.setLen len).setIdx 0))
  refine ⟨receiveData len s, rfl, ?_, fun j v hv => ?_⟩
  · rw [receiveData, finish_env, hstop.env, henv]
  · rw [receiveData, finish_bufRead, hstop.bits.bufRead]
    exact hfrom j v (by rw [State.setIdx_idx]; bv_omega) hv

end Sys2Proof.Machine
end

section
/-! SUPPORT. Command words: the decoder and the encoder are inverse to each other, and a word selects the row of the
operation it decodes to (R90 to R94, R100). -/

namespace Sys2Proof

/-! The decoder, format by format (R91). -/

theorem decodeNone_eq_ok {i j : Instr} {op imm : Byte} (h : decodeNone j op imm = .ok i) : i = j ∧ imm = 0 := by
  unfold decodeNone at h
  split at h
  · rename_i himm
    cases h
    exact ⟨rfl, himm⟩
  · cases h

theorem decodeLine_eq_ok {f : Line → Instr} {i : Instr} {op imm : Byte} (h : decodeLine f op imm = .ok i) :
    ∃ l, i = f l ∧ imm = immOfLine l := by
  unfold decodeLine at h
  split at h
  · rename_i himm
    cases h
    exact ⟨lineOfImm imm, rfl, (immOfLine_lineOfImm imm himm).symm⟩
  · cases h

/-- What decodes carries the operation's opcode and its operand (R92). -/
theorem fields_of_decodeFields {op imm : Byte} {i : Instr} (h : decodeFields op imm = .ok i) :
    op = opcodeOf i ∧ imm = operandOf i := by
  unfold decodeFields at h
  split at h <;> rename_i hop
  case h_1 | h_2 | h_3 =>
    obtain ⟨l, rfl, himm⟩ := decodeLine_eq_ok h
    exact ⟨BitVec.eq_of_toNat_eq hop, himm⟩
  case h_7 | h_11 | h_18 | h_19 | h_20 | h_21 =>
    cases h
    exact ⟨BitVec.eq_of_toNat_eq hop, rfl⟩
  case h_22 => cases h
  all_goals
    obtain ⟨rfl, himm⟩ := decodeNone_eq_ok h
    exact ⟨BitVec.eq_of_toNat_eq hop, himm⟩

theorem decodeFields_opcodeOf (i : Instr) : decodeFields (opcodeOf i) (operandOf i) = .ok i := by
  cases i with
  | float l | driveLow l | sample l => cases l <;> rfl
  | _ => rfl

@[simp] theorem decode_packWord (op imm : Byte) : decode (packWord op imm) = decodeFields op imm := by
  simp [decode]

/-- Settles O1: the fields of the word are the opcode and the operand, and these two decode to the operation. -/
theorem decodeOfEncodeIsTheOperation : Obligations.DecodeOfEncodeIsTheOperation := by
  intro i
  rw [encode, decode_packWord, decodeFields_opcodeOf]

/-- Settles O2: the fields of a word that decodes are the opcode and the operand, which pack to the word again. -/
theorem encodeOfDecodeIsTheWord : Obligations.EncodeOfDecodeIsTheWord := by
  intro cw i h
  obtain ⟨hop, himm⟩ := fields_of_decodeFields h
  rw [encode, ← hop, ← himm, packWord_fields]

/-- Settles O4: ten of the words are encodings, and of the other three the decoder names what is wrong. -/
theorem printedWordsDecode : Obligations.PrintedWordsDecode :=
  have decodes := decodeOfEncodeIsTheOperation
  ⟨decodes (.float .data), decodes (.driveLow .clock), decodes (.sample .data), decodes (.clockCycles 2),
    decodes (.writeByte 0xA5), decodes .readByte, decodes .sendNak, decodes .powerOn, decodes (.sendCommand 3),
    decodes (.waitClock 1), rfl, rfl, rfl⟩

/-! The rows (R91). -/

/-- The bits of the operand a format fixes to 0 (R91). -/
def Format.operandMask : Format → Byte
  | .n => 0xFF
  | .l => 0xFE
  | .i => 0x00

/-- A row fixes the opcode and the bits of the operand that its format fixes. -/
theorem rowOf_fields (i : Instr) :
    (rowOf i).mask = packWord 0xFF (rowOf i).format.operandMask ∧ (rowOf i).pattern = packWord (opcodeOf i) 0 := by
  cases i <;> simp only [rowOf, opcodeOf] <;> decide

@[simp] theorem opField_and (v w : CmdWord) : opField (v &&& w) = opField v &&& opField w := BitVec.extractLsb'_and

@[simp] theorem immField_and (v w : CmdWord) : immField (v &&& w) = immField v &&& immField w := BitVec.extractLsb'_and

/-- A word that selects an operation's row has its opcode, and 0 in the operand bits that the format fixes. -/
theorem fields_of_selects {i : Instr} {cw : CmdWord} (h : (rowOf i).selects cw = true) :
    opField cw = opcodeOf i ∧ immField cw &&& (rowOf i).format.operandMask = 0 := by
  obtain ⟨hmask, hpattern⟩ := rowOf_fields i
  have hword : cw &&& packWord 0xFF (rowOf i).format.operandMask = packWord (opcodeOf i) 0 := by
    simpa [OpcodeRow.selects, hmask, hpattern] using h
  have hop := congrArg opField hword
  have himm := congrArg immField hword
  simp only [opField_and, immField_and, opField_packWord, immField_packWord] at hop himm
  exact ⟨(BitVec.and_allOnes).symm.trans hop, himm⟩

/-- The operand bits above the line bit are the ones format `L` fixes. -/
theorem extractLsb'_eq_zero_of_lineMask (imm : Byte) (h : imm &&& Format.l.operandMask = 0) :
    imm.extractLsb' 1 7 = 0 := by
  revert imm
  decide

/-- Every operand that a row's format allows is some operation's of the row. -/
theorem exists_operation_of_operand (j : Instr) (imm : Byte) (h : imm &&& (rowOf j).format.operandMask = 0) :
    ∃ i, rowOf i = rowOf j ∧ opcodeOf i = opcodeOf j ∧ operandOf i = imm := by
  have hline := fun hl => immOfLine_lineOfImm imm (extractLsb'_eq_zero_of_lineMask imm hl)
  have hnone : imm &&& Format.n.operandMask = 0 → 0 = imm := fun hn => hn.symm.trans BitVec.and_allOnes
  cases j with
  | float _ => exact ⟨.float (lineOfImm imm), rfl, rfl, hline h⟩
  | driveLow _ => exact ⟨.driveLow (lineOfImm imm), rfl, rfl, hline h⟩
  | sample _ => exact ⟨.sample (lineOfImm imm), rfl, rfl, hline h⟩
  | clockCycles _ => exact ⟨.clockCycles imm, rfl, rfl, rfl⟩
  | writeByte _ => exact ⟨.writeByte imm, rfl, rfl, rfl⟩
  | sendCommand _ => exact ⟨.sendCommand imm, rfl, rfl, rfl⟩
  | sendData _ => exact ⟨.sendData imm, rfl, rfl, rfl⟩
  | receiveData _ => exact ⟨.receiveData imm, rfl, rfl, rfl⟩
  | waitClock _ => exact ⟨.waitClock imm, rfl, rfl, rfl⟩
  | _ => exact ⟨_, rfl, rfl, hnone h⟩

/-- An operation's command word selects its row. -/
theorem selects_encode (i : Instr) : (rowOf i).selects (encode i) = true := by
  rw [OpcodeRow.selects, beq_iff_eq]
  exact match i with
    | .float l => Laws.EncodesRow.float l
    | .driveLow l => Laws.EncodesRow.driveLow l
    | .sample l => Laws.EncodesRow.sample l
    | .clockHigh => Laws.EncodesRow.clockHigh
    | .clockLow => Laws.EncodesRow.clockLow
    | .clockCycle => Laws.EncodesRow.clockCycle
    | .clockCycles n => Laws.EncodesRow.clockCycles n
    | .dataHigh => Laws.EncodesRow.dataHigh
    | .dataLow => Laws.EncodesRow.dataLow
    | .readDataBit => Laws.EncodesRow.readDataBit
    | .writeByte value => Laws.EncodesRow.writeByte value
    | .readByte => Laws.EncodesRow.readByte
    | .sendAck => Laws.EncodesRow.sendAck
    | .sendNak => Laws.EncodesRow.sendNak
    | .start => Laws.EncodesRow.start
    | .stop => Laws.EncodesRow.stop
    | .powerOn => Laws.EncodesRow.powerOn
    | .sendCommand len => Laws.EncodesRow.sendCommand len
    | .sendData len => Laws.EncodesRow.sendData len
    | .receiveData len => Laws.EncodesRow.receiveData len
    | .waitClock loopCount => Laws.EncodesRow.waitClock loopCount

/-- A word selects an operation's row exactly when it decodes to an operation of the row. -/
theorem selects_rowOf_iff (j : Instr) (cw : CmdWord) :
    (rowOf j).selects cw = true ↔ ∃ i, decode cw = .ok i ∧ rowOf i = rowOf j := by
  constructor
  · intro h
    obtain ⟨hop, himm⟩ := fields_of_selects h
    obtain ⟨i, hrow, hopcode, hoperand⟩ := exists_operation_of_operand j (immField cw) himm
    have hword : encode i = cw := by rw [encode, hopcode, hoperand, ← hop, packWord_fields]
    exact ⟨i, hword ▸ decodeOfEncodeIsTheOperation i, hrow⟩
  · rintro ⟨i, hdecode, hrow⟩
    rw [← hrow, ← encodeOfDecodeIsTheWord cw i hdecode]
    exact selects_encode i

/-- Settles O3: a row is some operation's, and two rows differ in the opcode. -/
theorem wordSelectsItsOnlyRow : Obligations.WordSelectsItsOnlyRow := by
  refine ⟨fun cw r hr => ?_, ?_⟩
  · obtain ⟨j, -, rfl⟩ := List.mem_map.1 hr
    exact selects_rowOf_iff j cw
  · have hopcodes : rowSamples.Pairwise (fun i j => opcodeOf i ≠ opcodeOf j) := by decide
    refine List.pairwise_map.2 (hopcodes.imp ?_)
    rintro i j hne cw ⟨hi, hj⟩
    exact hne ((fields_of_selects hi).1.symm.trans (fields_of_selects hj).1)

end Sys2Proof
end

section
/-! SUPPORT. A word at the host port (R96 to R98): which operation it issues, what the two forms of the write then do,
and where accepting an operation leaves the sequencer. -/

namespace Sys2Proof.Machine

/-! The operation a word issues. -/

theorem issued_eq_some_iff (s : State) (i : Instr) :
    issued s = some i ↔
      decode s.cmd = .ok i ∧ i.wellFormed = true ∧ (isPublic i = true ∨ s.exposeInternal = true) := by
  rw [← Bool.or_eq_true, ← Bool.and_eq_true, ← legal, issued]
  cases decode s.cmd with
  | error e => simp
  | ok j =>
    by_cases hj : legal s j = true
    · simp only [hj, if_true, Option.some.injEq, Except.ok.injEq]
      exact ⟨fun h => ⟨h, h ▸ hj⟩, And.left⟩
    · simp only [hj, Bool.false_eq_true, if_false, reduceCtorEq, Except.ok.injEq, false_iff]
      rintro ⟨rfl, h⟩
      exact hj h

/-- A word is illegal if the decoder rejects it, if it is an internal operation's that the port does not accept, or if
it is SENDCOMMAND 0 (R97, R98). -/
theorem issued_eq_none {s : State}
    (h : (∃ e, decode s.cmd = .error e) ∨
      (∃ i, decode s.cmd = .ok i ∧ isPublic i = false ∧ s.exposeInternal = false) ∨ s.cmd = 0x5000) :
    issued s = none := by
  rw [Option.eq_none_iff_forall_ne_some]
  intro j hj
  obtain ⟨hdecode, hwf, hclass⟩ := (issued_eq_some_iff s j).1 hj
  obtain ⟨e, he⟩ | ⟨i, hi, hpublic, hexpose⟩ | hcmd := h
  · simp [he] at hdecode
  · obtain rfl : i = j := Except.ok.inj (hi.symm.trans hdecode)
    simp [hpublic, hexpose] at hclass
  · obtain rfl : .sendCommand 0 = j := Except.ok.inj (by rw [← hdecode, hcmd]; rfl)
    simp [Instr.wellFormed] at hwf

/-! The two forms of the write, while idle. -/

theorem callCmd_of_issued {cw : CmdWord} {s : State} {i : Instr} (hidle : s.upc = [])
    (h : issued (s.setCmd cw) = some i) : callCmd cw s = exec i (s.setCmd cw) := by
  simp [callCmd, (busy_eq_false_iff s).2 hidle, h]

theorem callCmd_of_illegal {cw : CmdWord} {s : State} (hidle : s.upc = []) (h : issued (s.setCmd cw) = none) :
    callCmd cw s = .next (s.setCmd cw).markIllegal := by
  simp [callCmd, (busy_eq_false_iff s).2 hidle, h]

theorem writeCmd_of_issued {cw : CmdWord} {s : State} {i : Instr} (hidle : s.upc = [])
    (h : issued (s.setCmd cw) = some i) : writeCmd cw s = accept i (s.setCmd cw) := by
  simp [writeCmd, (busy_eq_false_iff s).2 hidle, h]

theorem writeCmd_of_illegal {cw : CmdWord} {s : State} (hidle : s.upc = []) (h : issued (s.setCmd cw) = none) :
    writeCmd cw s = (s.setCmd cw).markIllegal := by
  simp [writeCmd, (busy_eq_false_iff s).2 hidle, h]

/-- Register 0x0 is CMD (R36). -/
theorem step_writeCmd {s : State} {cw : CmdWord} {rest : List HostAct} (h : s.host = .writeReg 0 cw :: rest) :
    step s = .next (writeCmd cw (s.setHost rest)) := step_of_host_cons h

/-- Settles O5: the word is issued, and the blocking call of an issued word runs its operation. -/
theorem stepRunsTheDecodedOperation : Obligations.StepRunsTheDecodedOperation := by
  intro s cw i rest hhost hidle hdecode hwf hclass
  have hissued : issued ((s.setHost rest).setCmd cw) = some i := (issued_eq_some_iff _ i).2 ⟨hdecode, hwf, hclass⟩
  rw [step_of_host_cons hhost, hostStep]
  exact callCmd_of_issued (s := s.setHost rest) hidle hissued

/-- Settles O7: no operation is issued, and either form of the write then only marks the word illegal. -/
theorem illegalWordOnlySetsIll : Obligations.IllegalWordOnlySetsIll := by
  intro s cw h rest hform hhost hidle hillegal
  have hnone : issued ((s.setHost rest).setCmd cw) = none := issued_eq_none hillegal
  obtain rfl | rfl := hform
  · rw [step_of_host_cons hhost, hostStep, callCmd_of_illegal (s := s.setHost rest) hidle hnone]
    rfl
  · rw [step_writeCmd hhost, writeCmd_of_illegal (s := s.setHost rest) hidle hnone]
    rfl

/-! The placed word. -/

@[simp] theorem tableWord_sixteen (w : Nat) : tableWord 16 w = BitVec.ofNat 16 w := by
  apply BitVec.eq_of_toNat_eq
  simp [tableWord]

theorem decodeTableWord_eq_some {nbits w : Nat} {i : Instr} (h : decodeTableWord nbits w = some i) :
    decode (tableWord nbits w) = .ok i := by
  unfold decodeTableWord at h
  split at h
  · rename_i hj
    cases h
    exact hj
  · cases h

/-- A word that decodes is placed with EXPOSE_INTERNAL set where its operation is internal (R97). -/
theorem placeCall_of_decode {cw : CmdWord} {i : Instr} (s : State) (h : decode cw = .ok i) :
    placeCall cw s = { s with
      upc := [], host := .call cw :: s.host, exposeInternal := if isPublic i then s.exposeInternal else true } := by
  rw [placeCall, h]
  cases hi : isPublic i <;> simp [hi] <;> rfl

/-- Settles O6: the placed word stands as the call that O5 speaks of. -/
theorem placedWordRunsNext : Obligations.PlacedWordRunsNext := by
  intro s w i hdecode hwf
  have hword : decode (BitVec.ofNat 16 w) = .ok i := by
    rw [← tableWord_sixteen]
    exact decodeTableWord_eq_some hdecode
  rw [State.withFetchWord, tableWord_sixteen, placeCall_of_decode s hword]
  refine stepRunsTheDecodedOperation _ _ i s.host rfl rfl hword hwf ?_
  cases hi : isPublic i <;> simp

/-! Accepting an operation. A `sure` statement leads to a micro-action of its own, and to no write of BUF or RESULT
before it. -/

/-- The engine is busy, and BUF and RESULT are as they were. -/
def Begun (s t : State) : Prop := t.busy = true ∧ t.buf = s.buf ∧ t.result = s.result

/-- A sure statement that is no micro-action stands for others, the first of them sure. -/
theorem unfold_sure {st : Stmt} (s : State) (hsure : sure st = true) (hst : ∀ a, st ≠ .act a) :
    (∃ next sts, (unfold st s).2 = next :: sts ∧ sure next = true) ∧
      (unfold st s).1.buf = s.buf ∧ (unfold st s).1.result = s.result := by
  cases st with
  | act a => exact absurd rfl (hst a)
  | op i =>
    cases i with
    | clockCycles _ | sendCommand _ => cases hsure
    | _ => exact ⟨⟨_, _, rfl, rfl⟩, rfl, rfl⟩
  | bitLoop | dataLoop | recvLoop =>
    simp only [unfold]
    split <;> exact ⟨⟨_, _, rfl, rfl⟩, rfl, rfl⟩
  | _ => cases hsure

theorem settleFor_sure (k : Nat) {s : State} {st : Stmt} {sts : List Stmt} (hupc : s.upc = st :: sts)
    (hsure : sure st = true) : Begun s (settleFor k s) := by
  have hbusy : s.busy = true := by simp [State.busy, hupc]
  induction k generalizing s st sts with
  | zero => exact ⟨hbusy, rfl, rfl⟩
  | succ k ih =>
    by_cases hst : ∃ a, st = .act a
    · obtain ⟨a, rfl⟩ := hst
      rw [settleFor_of_settled _ (by rw [hupc]; rfl)]
      exact ⟨hbusy, rfl, rfl⟩
    · have hsilent : ∀ a, st ≠ .act a := fun a ha => hst ⟨a, ha⟩
      obtain ⟨⟨next, new, hnew, hnext⟩, hbuf, hresult⟩ := unfold_sure (s.setUpc sts) hsure hsilent
      rw [settleFor_silent_cons k hupc hsilent, hnew]
      have hrest := ih (s := (unfold st (s.setUpc sts)).1.setUpc (next :: new ++ sts)) rfl hnext rfl
      obtain ⟨hbusy', hbuf', hresult'⟩ := hrest
      exact ⟨hbusy', hbuf'.trans hbuf, hresult'.trans hresult⟩

theorem settle_sure (s : State) {st : Stmt} (sts : List Stmt) (hsure : sure st = true) :
    Begun s (settle (s.setUpc (st :: sts))) := settleFor_sure _ (s := s.setUpc (st :: sts)) rfl hsure

/-- CLOCKCYCLES stands before its first cycle, and is over where it has none (R133). -/
theorem accept_clockCycles (n : Byte) (s : State) :
    accept (.clockCycles n) s =
      settle ((s.setCyc n).setUpc (if n = 0 then [] else [.op .clockCycle, .cycNext])) := by
  have hop := settle_silent_cons s (st := .op (.clockCycles n)) [] nofun
  have hloop := settle_silent_cons (s.setCyc n) (st := .cycLoop) [] nofun
  refine (hop.trans hloop).trans ?_
  rw [unfold, State.setCyc_cyc]
  split <;> rfl

/-- SENDCOMMAND stands before the START of its first try (R191). -/
theorem accept_sendCommand (len : Byte) (s : State) (hlen : len ≠ 0) :
    accept (.sendCommand len) s = settle (((s.setLen len).setTrycnt 0).setUpc [.op .start, .tryByte]) := by
  have hop := settle_silent_cons s (st := .op (.sendCommand len)) [] nofun
  rw [unfold, if_neg hlen] at hop
  exact hop.trans (settle_silent_cons ((s.setLen len).setTrycnt 0) (st := .tryLoop) [] nofun)

/-- Every operation with a micro-action begins when it is accepted (R96). -/
theorem accept_begun {i : Instr} (s : State) (hwf : i.wellFormed = true) (hi : i ≠ .clockCycles 0) :
    Begun s (accept i s) := by
  cases i with
  | clockCycles n =>
    rw [accept_clockCycles, if_neg (by simpa using hi)]
    exact settle_sure (s.setCyc n) _ rfl
  | sendCommand len =>
    rw [accept_sendCommand len s (by simpa [Instr.wellFormed] using hwf)]
    exact settle_sure ((s.setLen len).setTrycnt 0) _ rfl
  | _ => exact settle_sure s [] rfl

theorem accept_spec {i : Instr} (s : State) (hwf : i.wellFormed = true) :
    ((accept i s).busy = true ↔ i ≠ .clockCycles 0) ∧ (accept i s).buf = s.buf ∧
      (accept i s).result = s.result := by
  by_cases hi : i = .clockCycles 0
  · subst hi
    rw [accept_clockCycles, if_pos rfl, settle_of_settled rfl]
    exact ⟨by simp [State.busy], rfl, rfl⟩
  · obtain ⟨hbusy, hkept⟩ := accept_begun s hwf hi
    exact ⟨iff_of_true hbusy hi, hkept⟩

theorem accept_host (i : Instr) (s : State) : (accept i s).host = s.host := by
  obtain ⟨_, _, _, _, _, _, _, _, _, _, _, _, _, _, ht, -, -⟩ := settle_silent (s.setUpc [.op i])
  rw [accept, ht]
  rfl

/-- Settles O8: the word is issued, and its operation begins, with no micro-action performed. -/
theorem legalWordIsAccepted : Obligations.LegalWordIsAccepted := by
  intro s cw i rest hhost hidle hdecode hwf hclass
  have hissued : issued ((s.setHost rest).setCmd cw) = some i := (issued_eq_some_iff _ i).2 ⟨hdecode, hwf, hclass⟩
  obtain ⟨hbusy, hbuf, hresult⟩ := accept_spec ((s.setHost rest).setCmd cw) hwf
  obtain ⟨hnow, htrace, hclock, hdata⟩ := settle_frame (((s.setHost rest).setCmd cw).setUpc [.op i])
  refine ⟨accept i ((s.setHost rest).setCmd cw), ?_, rfl, settle_settled _, hbusy, htrace, hnow, hclock, hdata, hbuf,
    hresult, accept_host i _⟩
  rw [step_writeCmd hhost, writeCmd_of_issued (s := s.setHost rest) hidle hissued]

end Sys2Proof.Machine
end

section
/-! SUPPORT. The line operations, and what every other operation samples: the data line alone, and that only while TWBB
floats it (R124, R125). The statements of the sequencer are read for it: a list in which a Sample of data stands only
after a Float of data with no DriveLow of it between stays such a list as it is run. -/

namespace Sys2Proof.Machine

/-! FLOAT, DRIVELOW and SAMPLE (R120 to R123). -/

theorem floatLine_dir (l k : Line) (s : State) : (floatLine l s).dir k = if k = l then .input else s.dir k :=
  s.dir_setDir l k .input

theorem driveLine_dir (l k : Line) (s : State) : (driveLine l s).dir k = if k = l then .output else s.dir k :=
  s.dir_setDir l k .output

/-- A Float of a line that floats changes only the record of what happened (R123). -/
theorem floatLine_floated {l : Line} {s : State} (h : s.dir l = .input) :
    floatLine l s = { s with now := (floatLine l s).now, trace := (floatLine l s).trace } := by
  cases s
  cases l <;> cases h <;> rfl

/-- A DriveLow of a line that is driven changes only the record of what happened (R123). -/
theorem driveLine_driven {l : Line} {s : State} (h : s.dir l = .output) :
    driveLine l s = { s with now := (driveLine l s).now, trace := (driveLine l s).trace } := by
  cases s
  cases l <;> cases h <;> rfl

theorem State.sampleValue_driven {s : State} {l : Line} (h : s.dir l = .output) : s.sampleValue l = s.draw l := by
  simp [State.sampleValue, h]

/-- Settles O23: the line after a Float by `floatLine_dir`, a second one by `floatLine_floated`. -/
theorem floatReleasesTheLine : Obligations.FloatReleasesTheLine := by
  intro l s
  have hdir : (floatLine l s).dir l = .input := by simp [floatLine_dir]
  refine ⟨by cases l <;> rfl, floatLine l s, floatLine l (floatLine l s), rfl, hdir, ?_, ?_, floatLine_tokens l s,
    floatLine_frame l s, (floatLine_frame l s).bits.bufRead, rfl, floatLine_floated hdir, floatLine_tokens l _⟩
  · intro k hk
    rw [floatLine_dir, if_neg hk]
  · simp [State.level_eq, hdir]

/-- Settles O24: the line after a DriveLow by `driveLine_dir`, a second one by `driveLine_driven`. -/
theorem driveLowPullsTheLine : Obligations.DriveLowPullsTheLine := by
  intro l s
  have hdir : (driveLine l s).dir l = .output := by simp [driveLine_dir]
  refine ⟨by cases l <;> rfl, driveLine l s, driveLine l (driveLine l s), rfl, hdir, ?_, ?_, by cases l <;> rfl,
    driveLine_tokens l s, driveLine_frame l s, (driveLine_frame l s).bits.bufRead, rfl, driveLine_driven hdir,
    driveLine_tokens l _⟩
  · intro k hk
    rw [driveLine_dir, if_neg hk]
  · simp [State.level_eq, hdir]

/-- Settles O25: what a Sample returns, line floated and line driven. -/
theorem sampleReadsTheLine : Obligations.SampleReadsTheLine := by
  intro l s
  refine ⟨by cases l <;> rfl, sampleLine l s, rfl, fun hdir => ?_, fun hdir => ?_, rfl, rfl, sampleLine_tokens l s,
    sampleLine_frame l s, (sampleLine_frame l s).bufRead⟩
  · have hlevel : (sampleLine l s).bitv = s.level l := State.sampleValue_floated hdir
    exact ⟨hlevel, hlevel.trans (by simp [State.level_eq, hdir])⟩
  · exact State.sampleValue_driven hdir

/-! Lists of statements that sample only a floated data line. -/

/-- DIR[data] after a micro-action. -/
def Act.dirDataAfter (d : Dir) : Act → Dir
  | .float .data => .input
  | .driveLow .data => .output
  | _ => d

/-- With DIR[data] as given, the micro-action is no Sample but of a floated data line. -/
def Act.samplesOnlyFloatedData (d : Dir) : Act → Bool
  | .sample .clock => false
  | .sample .data => d == .input
  | _ => true

/-- With DIR[data] as given, no micro-action of the list samples the clock or a driven data line. DIR[data] is not
relied on past a silent statement, whose own micro-actions may drive the line. -/
def samplesOnlyFloatedData : Dir → List Stmt → Bool
  | _, [] => true
  | d, .act a :: sts => a.samplesOnlyFloatedData d && samplesOnlyFloatedData (a.dirDataAfter d) sts
  | _, .op (.sample _) :: _ => false
  | _, _ :: sts => samplesOnlyFloatedData .output sts

theorem perform_dirData (a : Act) (s : State) : (perform a s).dirData = a.dirDataAfter s.dirData := by
  cases a with
  | float l => cases l <;> rfl
  | driveLow l => cases l <;> rfl
  | sample l => rfl
  | delay d => rfl

theorem unfold_dirData (st : Stmt) (s : State) : (unfold st s).1.dirData = s.dirData := by
  obtain ⟨_, _, _, _, _, _, _, _, _, _, _, _, _, hs, -, -⟩ := unfold_silent st s
  rw [hs]

theorem samplesOnlyFloatedData_silent_cons {st : Stmt} (hst : ∀ a, st ≠ .act a) (hop : ∀ l, st ≠ .op (.sample l))
    (d : Dir) (sts : List Stmt) : samplesOnlyFloatedData d (st :: sts) = samplesOnlyFloatedData .output sts := by
  cases st with
  | act a => exact absurd rfl (hst a)
  | op i =>
    cases i with
    | sample l => exact absurd rfl (hop l)
    | _ => rfl
  | _ => rfl

/-- A micro-action either sets DIR[data], whatever it was, or leaves it. -/
theorem Act.dirDataAfter_cases (a : Act) : (∀ d e, a.dirDataAfter d = a.dirDataAfter e) ∨ ∀ d, a.dirDataAfter d = d := by
  cases a with
  | float l | driveLow l =>
    cases l
    · exact .inr fun _ => rfl
    · exact .inl fun _ _ => rfl
  | sample l | delay t => exact .inr fun _ => rfl

theorem Act.samplesOnlyFloatedData_of_output {a : Act} (h : a.samplesOnlyFloatedData .output = true) (d : Dir) :
    a.samplesOnlyFloatedData d = true := by
  cases a with
  | sample l => cases l <;> cases h
  | _ => rfl

/-- A list that may be run with data driven may be run with data floated. -/
theorem samplesOnlyFloatedData_of_output (d : Dir) {sts : List Stmt} (h : samplesOnlyFloatedData .output sts = true) :
    samplesOnlyFloatedData d sts = true := by
  induction sts with
  | nil => rfl
  | cons st sts ih =>
    cases st with
    | act a =>
      simp only [samplesOnlyFloatedData, Bool.and_eq_true] at h ⊢
      obtain ⟨ha, hsts⟩ := h
      refine ⟨Act.samplesOnlyFloatedData_of_output ha d, ?_⟩
      rcases a.dirDataAfter_cases with hset | hleave
      · rwa [hset d .output]
      · rw [hleave] at hsts ⊢
        exact ih hsts
    | op i => cases i <;> exact h
    | _ => exact h

theorem samplesOnlyFloatedData_append {d : Dir} {xs ys : List Stmt} (hx : samplesOnlyFloatedData d xs = true)
    (hy : samplesOnlyFloatedData .output ys = true) : samplesOnlyFloatedData d (xs ++ ys) = true := by
  induction xs generalizing d with
  | nil => exact samplesOnlyFloatedData_of_output d hy
  | cons x xs ih =>
    cases x with
    | act a =>
      simp only [List.cons_append, samplesOnlyFloatedData, Bool.and_eq_true] at hx ⊢
      obtain ⟨hact, hrest⟩ := hx
      exact ⟨hact, ih hrest⟩
    | op i =>
      cases i with
      | sample l => cases hx
      | _ => exact ih (d := .output) hx
    | _ => exact ih (d := .output) hx

/-- The pseudocode of every operation but SAMPLE, cut at its calls, floats data before it samples it (R125, R136). -/
theorem unfold_samplesOnlyFloatedData {st : Stmt} (hst : ∀ a, st ≠ .act a) (hop : ∀ l, st ≠ .op (.sample l))
    (s : State) : samplesOnlyFloatedData .output (unfold st s).2 = true := by
  cases st with
  | act a => exact absurd rfl (hst a)
  | op i =>
    cases i with
    | sample l => exact absurd rfl (hop l)
    | sendCommand len => simp only [unfold]; split <;> rfl
    | _ => rfl
  | bitSend | recvStore => simp only [unfold]; split <;> rfl
  | cycLoop | bitLoop | pollLoop | readLoop v | cmdLoop | dataLoop | recvLoop | waitLoop | pollTest | cmdTest
  | dataTest => simp only [unfold]; split <;> rfl
  | tryTest =>
    simp only [unfold]
    split
    · rfl
    · split <;> rfl
  | _ => rfl

/-- Running a silent statement keeps such a list one. -/
theorem samplesOnlyFloatedData_unfold {d : Dir} {st : Stmt} {sts : List Stmt} (s : State) (hst : ∀ a, st ≠ .act a)
    (h : samplesOnlyFloatedData d (st :: sts) = true) : samplesOnlyFloatedData d ((unfold st s).2 ++ sts) = true := by
  have hop : ∀ l, st ≠ .op (.sample l) := by rintro l rfl; cases h
  rw [samplesOnlyFloatedData_silent_cons hst hop] at h
  exact samplesOnlyFloatedData_append
    (samplesOnlyFloatedData_of_output d (unfold_samplesOnlyFloatedData hst hop s)) h

/-- Performing the micro-action at its head keeps such a list one. -/
theorem samplesOnlyFloatedData_perform {a : Act} {sts : List Stmt} {s : State}
    (h : samplesOnlyFloatedData s.dirData (.act a :: sts) = true) :
    a.samplesOnlyFloatedData s.dirData = true ∧ samplesOnlyFloatedData (perform a s).dirData sts = true := by
  rw [perform_dirData]
  simpa [samplesOnlyFloatedData] using h

theorem samplesOnlyFloatedData_op {i : Instr} (hi : ∀ l, i ≠ .sample l) (d : Dir) :
    samplesOnlyFloatedData d [.op i] = true :=
  samplesOnlyFloatedData_silent_cons (st := .op i) nofun (by rintro l ⟨rfl⟩; exact hi l rfl) d []

/-! No Sample of the clock (R125). -/

/-- The full trace only grows, and by no Sample of the clock. -/
def NoClockSample (s t : State) : Prop := ∃ new, t.tokens = s.tokens ++ new ∧ ∀ v, Token.sample .clock v ∉ new

theorem NoClockSample.refl (s : State) : NoClockSample s s := ⟨[], by simp, by simp⟩

theorem NoClockSample.trans {s t u : State} (h : NoClockSample s t) (k : NoClockSample t u) : NoClockSample s u := by
  obtain ⟨xs, hxs, hx⟩ := h
  obtain ⟨ys, hys, hy⟩ := k
  exact ⟨xs ++ ys, by rw [hys, hxs, List.append_assoc], fun v => by simp [hx v, hy v]⟩

theorem perform_noClockSample {a : Act} (ha : a ≠ .sample .clock) (s : State) : NoClockSample s (perform a s) := by
  cases a with
  | float l => exact ⟨_, floatLine_tokens l s, by simp⟩
  | driveLow l => exact ⟨_, driveLine_tokens l s, by simp⟩
  | sample l =>
    cases l with
    | clock => exact absurd rfl ha
    | data => exact ⟨_, sampleLine_tokens .data s, by simp⟩
  | delay d => exact ⟨_, delay_tokens d s, by simp⟩

theorem unfold_tokens (st : Stmt) (s : State) : (unfold st s).1.tokens = s.tokens := by
  obtain ⟨_, _, _, _, _, _, _, _, _, _, _, _, _, hs, -, -⟩ := unfold_silent st s
  exact State.tokens_congr (by rw [hs])

theorem Runs.noClockSample {sts : List Stmt} {s t : State} (h : Runs sts s t)
    (hsts : samplesOnlyFloatedData s.dirData sts = true) : NoClockSample s t := by
  induction h with
  | done => exact .refl _
  | act _ ih =>
    obtain ⟨ha, hrest⟩ := samplesOnlyFloatedData_perform hsts
    exact (perform_noClockSample (by rintro rfl; cases ha) _).trans (ih hrest)
  | silent hst _ ih =>
    have hnew := ih (by rw [unfold_dirData]; exact samplesOnlyFloatedData_unfold _ hst hsts)
    rwa [NoClockSample, unfold_tokens] at hnew

/-- Settles O59: SAMPLE data by its one micro-action, every other operation by the statements it runs. -/
theorem noCompositeOperationSamplesTheClock : Obligations.NoCompositeOperationSamplesTheClock := by
  intro i s t v hexec hi
  have hnone : NoClockSample s t := by
    by_cases hdata : i = .sample .data
    · subst hdata
      cases hexec
      exact perform_noClockSample (a := .sample .data) nofun s
    · obtain ⟨t', hexec', hruns⟩ := exec_runs i s
      obtain rfl : t = t' := by simpa [hexec] using hexec'
      refine hruns.noClockSample (samplesOnlyFloatedData_op ?_ _)
      rintro (_ | _) rfl
      · exact hi rfl
      · exact hdata rfl
  obtain ⟨new, hnew, hv⟩ := hnone
  exact ⟨⟨new, hnew.symm⟩, by simpa [newTokens, hnew] using hv v⟩

/-! No draw of a driven line (R42, R124). -/

/-- The state with other draws in the script: what a Sample of a driven line would return (R42). -/
def State.redraw (s : State) (draws : EnvPhase → Bit) : State :=
  { s with env := s.env.map (fun p => { p with draw := draws p }) }

theorem State.redraw_envLow (s : State) (draws : EnvPhase → Bit) (l : Line) :
    (s.redraw draws).envLow l = s.envLow l := by
  unfold State.envLow State.redraw
  cases s.env with
  | nil => rfl
  | cons p ps => cases l <;> rfl

theorem State.redraw_dir (s : State) (draws : EnvPhase → Bit) (l : Line) : (s.redraw draws).dir l = s.dir l := by
  cases l <;> rfl

theorem State.redraw_level (s : State) (draws : EnvPhase → Bit) (l : Line) : (s.redraw draws).level l = s.level l := by
  rw [State.level_eq, State.level_eq, State.redraw_envLow, State.redraw_dir]

theorem State.redraw_levels (s : State) (draws : EnvPhase → Bit) : (s.redraw draws).levels = s.levels := by
  rw [State.levels, State.levels, State.redraw_level, State.redraw_level]

theorem State.redraw_record (s : State) (draws : EnvPhase → Bit) (t : Token) (b : Levels) :
    (s.redraw draws).record t b = (s.record t b).redraw draws := by
  rw [State.record, State.redraw_levels]
  rfl

theorem State.redraw_setDir (s : State) (draws : EnvPhase → Bit) (l : Line) (d : Dir) :
    (s.redraw draws).setDir l d = (s.setDir l d).redraw draws := by
  cases l <;> rfl

theorem State.redraw_setBitv (s : State) (draws : EnvPhase → Bit) (b : Bit) :
    (s.redraw draws).setBitv b = (s.setBitv b).redraw draws := rfl

theorem State.redraw_nextPhase (s : State) (draws : EnvPhase → Bit) :
    (s.redraw draws).nextPhase = s.nextPhase.redraw draws := by
  simp [State.nextPhase, State.redraw]

theorem State.redraw_sampleValue {s : State} (draws : EnvPhase → Bit) {l : Line} (h : s.dir l = .input) :
    (s.redraw draws).sampleValue l = s.sampleValue l := by
  rw [State.sampleValue_floated ((s.redraw_dir draws l).trans h), State.redraw_level, State.sampleValue_floated h]

/-- A micro-action but a Sample of a driven line does the same whatever the draws are. -/
theorem perform_redraw (draws : EnvPhase → Bit) {a : Act} {s : State} (ha : a.samplesOnlyFloatedData s.dirData = true) :
    perform a (s.redraw draws) = (perform a s).redraw draws := by
  cases a with
  | float l =>
    rw [perform, floatLine, State.redraw_levels, State.redraw_setDir, State.redraw_record]
    rfl
  | driveLow l =>
    rw [perform, driveLine, State.redraw_levels, State.redraw_setDir, State.redraw_record]
    rfl
  | sample l =>
    cases l with
    | clock => cases ha
    | data =>
      have hdir : s.dir .data = .input := by simpa [Act.samplesOnlyFloatedData] using ha
      rw [perform, sampleLine, State.redraw_sampleValue draws hdir, State.redraw_levels, State.redraw_setBitv,
        State.redraw_record, State.redraw_nextPhase]
      rfl
  | delay d =>
    rw [perform, delay, State.redraw_levels, State.redraw_record]
    rfl

theorem unfold_redraw (draws : EnvPhase → Bit) (st : Stmt) (s : State) :
    unfold st (s.redraw draws) = (unfold st s).map (State.redraw · draws) id := by
  cases st with
  | op i =>
    cases i with
    | sendCommand len => simp only [unfold, apply_ite (Prod.map _ _)]; rfl
    | _ => rfl
  | cycLoop | bitLoop | pollLoop | readLoop v | cmdLoop | dataLoop | recvLoop | waitLoop
  | pollTest | cmdTest | dataTest | tryTest =>
    simp only [unfold, apply_ite (Prod.map _ _)]
    rfl
  | _ => rfl

theorem Runs.redraw (draws : EnvPhase → Bit) {sts : List Stmt} {s t : State} (h : Runs sts s t)
    (hsts : samplesOnlyFloatedData s.dirData sts = true) : Runs sts (s.redraw draws) (t.redraw draws) := by
  induction h with
  | done => exact .done
  | act _ ih =>
    obtain ⟨ha, hrest⟩ := samplesOnlyFloatedData_perform hsts
    exact .act (by rw [perform_redraw draws ha]; exact ih hrest)
  | silent hst _ ih =>
    have hnew := ih (by rw [unfold_dirData]; exact samplesOnlyFloatedData_unfold _ hst hsts)
    exact .silent hst (by rwa [unfold_redraw])

/-- Statements begun in one state end in one state. -/
theorem Runs.unique {sts : List Stmt} {s t u : State} (h : Runs sts s t) (k : Runs sts s u) : t = u := by
  induction h with
  | done => cases k; rfl
  | act _ ih =>
    cases k with
    | act hk => exact ih hk
    | silent hst _ => exact absurd rfl (hst _)
  | silent hst _ ih =>
    cases k with
    | act _ => exact absurd rfl (hst _)
    | silent _ hk => exact ih hk

/-- Settles O60: the statements of the operation run to the same end, draw for draw, and `exec` answers that end. -/
theorem drivenDrawsReachNoCompositeOperation : Obligations.DrivenDrawsReachNoCompositeOperation := by
  intro i s t draws hexec hi
  obtain ⟨t', hexec', hruns⟩ := exec_runs i s
  obtain rfl : t = t' := by simpa [hexec] using hexec'
  obtain ⟨u, hexecu, hrunsu⟩ := exec_runs i (s.redraw draws)
  have hu : u = t.redraw draws := hrunsu.unique (hruns.redraw draws (samplesOnlyFloatedData_op hi _))
  exact hexecu.trans (congrArg Host.Outcome.next hu)

end Sys2Proof.Machine
end

section
/-! SUPPORT. The timed bit primitives (spec/41_bit_primitives.md): how the events of a sequence are put together from
its parts, and the instants, pin actions and clock edges that each sequence adds. -/

namespace Sys2Proof

/-- The two fields of a command word do not overlap, so that its operand is added to its opcode (R91). -/
theorem packWord_eq_add (op imm : Byte) : packWord op imm = (op.setWidth 16 <<< 8) + imm.setWidth 16 := by
  refine (BitVec.add_eq_or_of_and_eq_zero _ _ (BitVec.eq_of_getLsbD_eq fun i hi => ?_)).symm
  by_cases h : i < 8
  · simp [h]
  · simp [BitVec.getLsbD_of_ge imm i (by omega)]

end Sys2Proof

namespace Sys2Proof.Machine

/-! The pin trace and the events of a sequence, from those of its parts. -/

theorem State.pinTrace_of_tokens {s t : State} {new : List Token} (h : t.tokens = s.tokens ++ new) :
    t.pinTrace = s.pinTrace ++ new.filter Token.isPin := by
  simp [State.pinTrace, h]

theorem newEvents_of_trace_append {s t : State} {es : List Event} (h : t.trace = es ++ s.trace) : newEvents s t = es := by
  simp [newEvents, h]

theorem newEvents_trans {s t u : State} (hst : s.trace <:+ t.trace) (htu : t.trace <:+ u.trace) :
    newEvents s u = newEvents t u ++ newEvents s t := by
  obtain ⟨es, hes⟩ := hst
  obtain ⟨fs, hfs⟩ := htu
  rw [newEvents_of_trace_append hes.symm, newEvents_of_trace_append hfs.symm,
    newEvents_of_trace_append (es := fs ++ es) (by rw [List.append_assoc, hes, hfs])]

@[simp] theorem riseCount_append (es fs : List Event) : riseCount (es ++ fs) = riseCount es + riseCount fs :=
  List.countP_append

@[simp] theorem fallCount_append (es fs : List Event) : fallCount (es ++ fs) = fallCount es + fallCount fs :=
  List.countP_append

@[simp] theorem riseCount_cons (e : Event) (es : List Event) :
    riseCount (e :: es) = riseCount es + if e.isRise then 1 else 0 :=
  List.countP_cons

@[simp] theorem fallCount_cons (e : Event) (es : List Event) :
    fallCount (e :: es) = fallCount es + if e.isFall then 1 else 0 :=
  List.countP_cons

@[simp] theorem riseCount_nil : riseCount [] = 0 := rfl

@[simp] theorem fallCount_nil : fallCount [] = 0 := rfl

/-- An event that leaves the levels as they were, a Delay's among them, is no rising edge (R11). -/
@[simp] theorem Event.isRise_still (t : Token) (a : Levels) : Event.isRise ⟨t, a, a⟩ = false := by
  rcases BitVec.eq_zero_or_eq_one a.clock with h | h <;> simp [Event.isRise, h]

@[simp] theorem Event.isFall_still (t : Token) (a : Levels) : Event.isFall ⟨t, a, a⟩ = false := by
  rcases BitVec.eq_zero_or_eq_one a.clock with h | h <;> simp [Event.isFall, h]

/-! The clock edges of CLOCKLOW and CLOCKHIGH (R131, R132). -/

/-- The clock level while the script leaves the clock alone (log entry 7). -/
theorem State.level_clock_of_scripted {s : State} {p : EnvPhase} {ps : List EnvPhase} (h : s.env = p :: ps)
    (hp : p.clockLow = false) : s.level .clock = if s.dirClock = .output then 0 else 1 := by
  simp [State.level_eq, State.envLow, h, EnvPhase.low, hp]

theorem clockLow_newEvents (s : State) :
    newEvents s (clockLow s) =
      [⟨.delay .clB, (delay .clA (driveLine .clock s)).levels, (delay .clA (driveLine .clock s)).levels⟩,
        ⟨.delay .clA, (driveLine .clock s).levels, (driveLine .clock s).levels⟩,
        ⟨.driveLow .clock, s.levels, (s.setDir .clock .output).levels⟩] :=
  newEvents_of_trace_append rfl

theorem clockHigh_newEvents (s : State) :
    newEvents s (clockHigh s) =
      [⟨.delay .chPost, (floatLine .clock (delay .chPre s)).levels, (floatLine .clock (delay .chPre s)).levels⟩,
        ⟨.float .clock, (delay .chPre s).levels, ((delay .chPre s).setDir .clock .input).levels⟩,
        ⟨.delay .chPre, s.levels, s.levels⟩] :=
  newEvents_of_trace_append rfl

/-- CLOCKLOW makes a falling edge exactly when the clock was high, whatever the environment does. -/
theorem clockLow_edges (s : State) :
    riseCount (newEvents s (clockLow s)) = 0 ∧
      fallCount (newEvents s (clockLow s)) = if s.level .clock = 1 then 1 else 0 := by
  have hlow : (s.setDir .clock .output).level .clock = 0 := rfl
  have hrise : Event.isRise ⟨.driveLow .clock, s.levels, (s.setDir .clock .output).levels⟩ = false := by
    simp [Event.isRise, State.levels, hlow]
  have hfall : Event.isFall ⟨.driveLow .clock, s.levels, (s.setDir .clock .output).levels⟩ =
      (s.level .clock == 1) := by
    simp [Event.isFall, State.levels, hlow]
  simp [clockLow_newEvents, hrise, hfall]

/-- CLOCKHIGH makes a rising edge exactly when TWBB drove the clock that nobody else pulls low. -/
theorem clockHigh_edges {s : State} {p : EnvPhase} {ps : List EnvPhase} (h : s.env = p :: ps)
    (hp : p.clockLow = false) :
    riseCount (newEvents s (clockHigh s)) = (if s.dirClock = .output then 1 else 0) ∧
      fallCount (newEvents s (clockHigh s)) = 0 := by
  have hbefore : (delay .chPre s).level .clock = if s.dirClock = .output then 0 else 1 :=
    State.level_clock_of_scripted h hp
  have hafter : ((delay .chPre s).setDir .clock .input).level .clock = 1 := State.level_clock_of_scripted h hp
  have hrise : Event.isRise ⟨.float .clock, (delay .chPre s).levels, ((delay .chPre s).setDir .clock .input).levels⟩ =
      (s.dirClock == .output) := by
    cases hdir : s.dirClock <;> simp [Event.isRise, State.levels, hbefore, hafter, hdir]
  have hfall : Event.isFall ⟨.float .clock, (delay .chPre s).levels, ((delay .chPre s).setDir .clock .input).levels⟩ =
      false := by
    simp [Event.isFall, State.levels, hafter]
  simp [clockHigh_newEvents, hrise, hfall]

theorem clockCycle_newEvents (s : State) :
    newEvents s (clockCycle s) = newEvents (clockLow s) (clockHigh (clockLow s)) ++ newEvents s (clockLow s) :=
  newEvents_trans ⟨[_, _, _], rfl⟩ ⟨[_, _, _], rfl⟩

/-- CLOCKCYCLE has one rising edge, and one falling edge if TWBB floated the clock (R132). -/
theorem clockCycle_edges {s : State} {p : EnvPhase} {ps : List EnvPhase} (h : s.env = p :: ps)
    (hp : p.clockLow = false) :
    riseCount (newEvents s (clockCycle s)) = 1 ∧
      fallCount (newEvents s (clockCycle s)) = if s.dirClock = .input then 1 else 0 := by
  obtain ⟨hlowRise, hlowFall⟩ := clockLow_edges s
  obtain ⟨hhighRise, hhighFall⟩ := clockHigh_edges ((clockLow_env s).trans h) hp
  rw [clockCycle_newEvents, riseCount_append, fallCount_append, hlowRise, hlowFall, hhighRise, hhighFall,
    State.level_clock_of_scripted h hp]
  cases s.dirClock <;> simp

/-! The instants, the pin actions and CYC of the loop of CLOCKCYCLES (R133). -/

@[simp] theorem clockCycle_now (s : State) : (clockCycle s).now = s.now + 6 := rfl

theorem cycleLoop_now (k : Nat) (s : State) : (cycleLoop k s).now = s.now + 6 * k := by
  induction k generalizing s with
  | zero => rfl
  | succ k ih =>
    rw [cycleLoop, ih, State.setCyc_now, clockCycle_now]
    omega

/-- The loop ends with CYC 0 where CYC counts its iterations. -/
theorem cycleLoop_cyc (k : Nat) (s : State) (hk : s.cyc.toNat = k) : (cycleLoop k s).cyc = 0 := by
  induction k generalizing s with
  | zero => exact BitVec.eq_of_toNat_eq hk
  | succ k ih =>
    have hcyc : (clockCycle s).cyc = s.cyc := (clockCycle_frame s).cyc
    exact ih _ (toNat_sub_one (by rw [hcyc, hk]))

theorem traceCycles_succ (n : Nat) : traceCycles (n + 1) = traceClockCycle ++ traceCycles n := by
  simp [traceCycles, List.replicate_succ]

/-- Each clock cycle is two pin actions, the DriveLow and the Float (R132). -/
theorem traceCycles_pins_length (n : Nat) : ((traceCycles n).filter Token.isPin).length = 2 * n := by
  induction n with
  | zero => rfl
  | succ n ih =>
    have hcycle : (traceClockCycle.filter Token.isPin).length = 2 := rfl
    rw [traceCycles_succ, List.filter_append, List.length_append, hcycle, ih]
    omega

theorem clockCycles_tokens (n : Byte) (s : State) : (clockCycles n s).tokens = s.tokens ++ traceCycles n.toNat :=
  cycleLoop_tokens n.toNat (s.setCyc n)

theorem clockCycles_dirClock (n : Byte) (s : State) :
    (clockCycles n s).dirClock = if n = 0 then s.dirClock else .input := by
  have hzero : n.toNat = 0 ↔ n = 0 := by bv_omega
  simp [clockCycles, cycleLoop_dirClock, hzero]

theorem cyclesOnly.bufRead {s t : State} (h : cyclesOnly s t) (j : Byte) : t.bufRead j = s.bufRead j := by
  obtain ⟨_, _, _, _, _, rfl⟩ := h
  rfl

/-- Settles O29: the loop's tokens, instants, lines and CYC, each by induction on the number of cycles. -/
theorem clockCyclesRepeatsTheCycle : Obligations.ClockCyclesRepeatsTheCycle := by
  intro n s
  have htokens := clockCycles_tokens n s
  refine ⟨packWord_eq_add 0x13 n, clockCycles n s, rfl, htokens, cycleLoop_now _ _, ?_, cycleLoop_cyc _ _ rfl,
    clockCycles_dirClock n s, cycleLoop_dirData _ _, clockCycles_frame n s, (clockCycles_frame n s).bufRead⟩
  rw [State.pinTrace_of_tokens htokens, List.length_append, traceCycles_pins_length]

/-! The other primitives. -/

/-- Settles O26, by the trace and the frame of CLOCKHIGH; the level is that of a floated line. -/
theorem clockHighFloatsTheClock : Obligations.ClockHighFloatsTheClock :=
  ⟨rfl, fun s => ⟨clockHigh s, rfl, rfl, rfl, by simp [State.level_eq], clockHigh_tokens s, clockHigh_frame s,
    (clockHigh_frame s).bits.bufRead⟩⟩

/-- Settles O27, by the trace and the frame of CLOCKLOW; the level is that of a driven line. -/
theorem clockLowDrivesTheClock : Obligations.ClockLowDrivesTheClock :=
  ⟨rfl, fun s => ⟨clockLow s, rfl, rfl, rfl, by simp [State.level_eq], clockLow_tokens s, clockLow_frame s,
    (clockLow_frame s).bits.bufRead⟩⟩

/-- Settles O28: its edges are those of its two halves (`clockCycle_edges`). -/
theorem clockCycleIsLowThenHigh : Obligations.ClockCycleIsLowThenHigh :=
  ⟨rfl, fun s => ⟨clockCycle s, clockLow s, rfl, rfl, rfl, rfl, rfl, clockCycle_tokens s, clockCycle_frame s,
    (clockCycle_frame s).bits.bufRead, fun _ _ henv hp => clockCycle_edges henv hp⟩⟩

/-- Settles O30, by the trace and the frame of DATAHIGH; the level is that of a floated line. -/
theorem dataHighFloatsTheData : Obligations.DataHighFloatsTheData :=
  ⟨rfl, fun s => ⟨dataHigh s, rfl, rfl, rfl, by simp [State.level_eq], dataHigh_tokens s, dataHigh_frame s,
    (dataHigh_frame s).bits.bufRead⟩⟩

/-- Settles O31, by the trace and the frame of DATALOW; the level is that of a driven line. -/
theorem dataLowDrivesTheData : Obligations.DataLowDrivesTheData :=
  ⟨rfl, fun s => ⟨dataLow s, rfl, rfl, rfl, by simp [State.level_eq], dataLow_tokens s, dataLow_frame s,
    (dataLow_frame s).bits.bufRead⟩⟩

/-- What the environment does depends on its script and on the instant alone. -/
theorem State.envLow_congr {s t : State} (l : Line) (henv : t.env = s.env) (hnow : t.now = s.now) :
    t.envLow l = s.envLow l := by
  simp [State.envLow, henv, hnow]

/-- READDATABIT's answer is the level the environment gives the floated data line two micro-actions on (R136, R42). -/
theorem readDataBit_bitv (s : State) :
    (readDataBit s).bitv = if { s with now := s.now + 2 }.envLow .data then 0 else 1 := by
  have hlevel : (readDataBit s).bitv = (delay .rd (floatLine .data s)).level .data :=
    State.sampleValue_floated (s := delay .rd (floatLine .data s)) (l := .data) rfl
  have henv : (delay .rd (floatLine .data s)).envLow .data = { s with now := s.now + 2 }.envLow .data :=
    State.envLow_congr .data rfl rfl
  simp [hlevel, State.level_eq, henv]

/-- Settles O32: the Sample is of a line that READDATABIT has just floated (`readDataBit_bitv`). -/
theorem readDataBitSamplesTheFloatedData : Obligations.ReadDataBitSamplesTheFloatedData :=
  ⟨rfl, fun s => ⟨readDataBit s, rfl, rfl, rfl, readDataBit_bitv s, readDataBit_tokens s, readDataBit_frame s,
    (readDataBit_frame s).bufRead⟩⟩

end Sys2Proof.Machine
end

section
/-! SUPPORT. The byte serializer (spec/42_byte_serializer.md): the instants a sequence takes, what the wire carries at
its rising clock edges, and from these WRITEBYTE and READBYTE. -/

namespace Sys2Proof.Machine

/-! Instants: each micro-action is one token of the full trace and takes one instant (R10). -/

theorem perform_tokens_length (a : Act) (s : State) : (perform a s).tokens.length = s.tokens.length + 1 := by
  cases a <;> simp [perform]

theorem unfold_now (st : Stmt) (s : State) : (unfold st s).1.now = s.now := by
  obtain ⟨_, _, _, _, _, _, _, _, _, _, _, _, _, hs, -, -⟩ := unfold_silent st s
  rw [hs]

/-- As many instants pass as tokens enter the full trace. -/
theorem Runs.now_of_tokens {sts : List Stmt} {s t : State} (h : Runs sts s t) {new : List Token}
    (ht : t.tokens = s.tokens ++ new) : t.now = s.now + new.length := by
  have hcount : t.now + s.tokens.length = s.now + t.tokens.length := by
    clear ht
    induction h with
    | done => rfl
    | @act a _ s _ _ ih =>
      rw [perform_tokens_length, (perform_spec a s).1] at ih
      omega
    | silent _ _ ih => rwa [unfold_tokens, unfold_now] at ih
  rw [ht, List.length_append] at hcount
  omega

/-! The wire (R157). -/

theorem wire_append (es fs : List Event) : wire (es ++ fs) = wire fs ++ wire es := by
  simp [wire]

theorem wire_length (es : List Event) : (wire es).length = riseCount es := by
  simp [wire, riseCount, List.countP_eq_length_filter]

/-- From `s` to `t` the wire carries `bits`: `t` has more events than `s`, and these are the data levels at their
rising clock edges, oldest first. -/
def Carries (s t : State) (bits : List Bit) : Prop := ∃ es, t.trace = es ++ s.trace ∧ wire es = bits

theorem Carries.of_trace {s t : State} (h : t.trace = s.trace) : Carries s t [] := ⟨[], h, rfl⟩

theorem Carries.trans {s t u : State} {bs cs : List Bit} (h : Carries s t bs) (k : Carries t u cs) :
    Carries s u (bs ++ cs) := by
  obtain ⟨es, hes, rfl⟩ := h
  obtain ⟨fs, hfs, rfl⟩ := k
  exact ⟨fs ++ es, by rw [hfs, hes, List.append_assoc], wire_append fs es⟩

theorem Carries.wire_newEvents {s t : State} {bits : List Bit} (h : Carries s t bits) :
    wire (newEvents s t) = bits := by
  obtain ⟨es, hes, rfl⟩ := h
  rw [newEvents_of_trace_append hes]

theorem Carries.riseCount {s t : State} {bits : List Bit} (h : Carries s t bits) :
    riseCount (newEvents s t) = bits.length := by
  rw [← wire_length, h.wire_newEvents]

theorem carries_of_event {s t : State} {e : Event} (h : t.trace = e :: s.trace) :
    Carries s t (if e.isRise then [e.after.data] else []) := by
  refine ⟨[e], h, ?_⟩
  cases he : e.isRise <;> simp [wire, he]

/-- An event after which the clock is low, or as it was, is no rising edge (R11). -/
theorem Event.isRise_eq_false {e : Event} (h : e.after.clock = 0 ∨ e.after.clock = e.before.clock) :
    e.isRise = false := by
  rcases BitVec.eq_zero_or_eq_one e.before.clock with hb | hb <;> rcases h with h | h <;>
    simp [Event.isRise, h, hb]

theorem carries_of_still_event {s t : State} {e : Event} (h : t.trace = e :: s.trace)
    (hclock : e.after.clock = 0 ∨ e.after.clock = e.before.clock) : Carries s t [] := by
  simpa [Event.isRise_eq_false hclock] using carries_of_event h

/-- No micro-action but the Float of the clock raises it. -/
theorem perform_carries (a : Act) (s : State) (ha : a ≠ .float .clock := by decide) : Carries s (perform a s) [] := by
  cases a with
  | float l =>
    cases l with
    | clock => exact absurd rfl ha
    | data => exact carries_of_still_event rfl (.inr rfl)
  | driveLow l =>
    cases l with
    | clock => exact carries_of_still_event rfl (.inl rfl)
    | data => exact carries_of_still_event rfl (.inr rfl)
  | sample l => exact carries_of_still_event rfl (.inr rfl)
  | delay d => exact carries_of_still_event rfl (.inr rfl)

theorem clockLow_carries (s : State) : Carries s (clockLow s) [] :=
  ((perform_carries (.driveLow .clock) s).trans
    (perform_carries (.delay .clA) _)).trans (perform_carries (.delay .clB) _)

theorem dataHigh_carries (s : State) : Carries s (dataHigh s) [] :=
  (perform_carries (.float .data) s).trans (perform_carries (.delay .dh) _)

theorem dataLow_carries (s : State) : Carries s (dataLow s) [] :=
  (perform_carries (.driveLow .data) s).trans (perform_carries (.delay .dl) _)

theorem readDataBit_carries (s : State) : Carries s (readDataBit s) [] :=
  ((perform_carries (.float .data) s).trans
    (perform_carries (.delay .rd) _)).trans (perform_carries (.sample .data) _)

/-- The level of a data line that TWBB floats to send a 1 and drives to send a 0, in the scripted stretch `p`. -/
def EnvPhase.sentLevel (p : EnvPhase) (one : Bool) : Bit := if one && !p.dataLow then 1 else 0

theorem State.level_data_of_scripted {s : State} {p : EnvPhase} {ps : List EnvPhase} (h : s.env = p :: ps) :
    s.level .data = p.sentLevel (s.dirData == .input) := by
  cases hdir : s.dirData <;> cases hlow : p.dataLow <;>
    simp [State.level_eq, State.envLow, h, EnvPhase.low, EnvPhase.sentLevel, hdir, hlow]

/-- The Float of a clock that TWBB drove and nobody else pulls low raises it, and shows the data level (R11, R157). -/
theorem floatClock_carries {s : State} {p : EnvPhase} {ps : List EnvPhase} (h : s.env = p :: ps)
    (hp : p.clockLow = false) (hdriven : s.dirClock = .output) :
    Carries s (floatLine .clock s) [p.sentLevel (s.dirData == .input)] := by
  have hbefore : s.level .clock = 0 := by rw [State.level_clock_of_scripted h hp, if_pos hdriven]
  have hafter : (s.setDir .clock .input).level .clock = 1 := State.level_clock_of_scripted h hp
  have hdata : (s.setDir .clock .input).level .data = p.sentLevel (s.dirData == .input) :=
    State.level_data_of_scripted h
  have htrace : (floatLine .clock s).trace =
      ⟨.float .clock, s.levels, (s.setDir .clock .input).levels⟩ :: s.trace := rfl
  simpa [Event.isRise, State.levels, hbefore, hafter, hdata] using carries_of_event htrace

theorem clockHigh_carries {s : State} {p : EnvPhase} {ps : List EnvPhase} (h : s.env = p :: ps)
    (hp : p.clockLow = false) (hdriven : s.dirClock = .output) :
    Carries s (clockHigh s) [p.sentLevel (s.dirData == .input)] :=
  ((perform_carries (.delay .chPre) s).trans (floatClock_carries (s := delay .chPre s) h hp hdriven)).trans
    (perform_carries (.delay .chPost) _)

theorem clockCycle_carries {s : State} {p : EnvPhase} {ps : List EnvPhase} (h : s.env = p :: ps)
    (hp : p.clockLow = false) : Carries s (clockCycle s) [p.sentLevel (s.dirData == .input)] :=
  (clockLow_carries s).trans (clockHigh_carries ((clockLow_env s).trans h) hp rfl)

/-! Phase 1 of WRITEBYTE (R150, R151). -/

theorem sendBit_carries (s : State) : Carries s (sendBit s) [] := by
  unfold sendBit
  split
  · exact dataHigh_carries s
  · exact dataLow_carries s

theorem sendBit_dirClock (s : State) : (sendBit s).dirClock = s.dirClock := by
  unfold sendBit
  split <;> rfl

theorem sendBit_floats (s : State) : ((sendBit s).dirData == .input) = s.sendsOne := by
  unfold sendBit
  split <;> simp_all

/-- One turn of the bit loop. -/
def sendOneBit (s : State) : State := s |> clockLow |> sendBit |> clockHigh |> shiftBit

theorem writeLoop_succ (k : Nat) (s : State) : writeLoop (k + 1) s = writeLoop k (sendOneBit s) := rfl

theorem sendOneBit_sr (s : State) : (sendOneBit s).sr = s.sr <<< 1 := (writeLoop_spec 1 s).2.1

theorem sendOneBit_env (s : State) : (sendOneBit s).env = s.env := writeLoop_env 1 s

theorem sendOneBit_carries {s : State} {p : EnvPhase} {ps : List EnvPhase} (h : s.env = p :: ps)
    (hp : p.clockLow = false) : Carries s (sendOneBit s) [p.sentLevel (s.sr.getLsbD 7)] := by
  have hset : Carries s (sendBit (clockLow s)) [] := (clockLow_carries s).trans (sendBit_carries _)
  have hrise := clockHigh_carries (s := sendBit (clockLow s)) (by rw [sendBit_env, clockLow_env, h]) hp
    (by rw [sendBit_dirClock, clockLow_dirClock])
  have hone : (clockLow s).sendsOne = s.sr.getLsbD 7 := by rw [State.sendsOne, (clockLow_frame s).sr]
  rw [sendBit_floats, hone] at hrise
  exact (hset.trans hrise).trans (.of_trace rfl)

theorem writeLoop_carries (k : Nat) {s : State} {p : EnvPhase} {ps : List EnvPhase} (h : s.env = p :: ps)
    (hp : p.clockLow = false) :
    Carries s (writeLoop k s) ((List.range k).map fun j => p.sentLevel ((s.sr <<< j).getLsbD 7)) := by
  induction k generalizing s with
  | zero => exact .of_trace rfl
  | succ k ih =>
    have hshift : ∀ j, s.sr <<< 1 <<< j = s.sr <<< (j + 1) := fun j => by rw [← BitVec.shiftLeft_add, Nat.add_comm]
    have hrest := ih ((sendOneBit_env s).trans h)
    simp only [sendOneBit_sr, hshift] at hrest
    rw [writeLoop_succ, List.range_succ_eq_map, List.map_cons, List.map_map, BitVec.shiftLeft_zero]
    exact (sendOneBit_carries h hp).trans hrest

/-- Settles O35: SR has moved up `k` places after `k` bits (`writeLoop_spec`). -/
theorem shiftSendsMostSignificantFirst : Obligations.ShiftSendsMostSignificantFirst := by
  rintro value s k rfl
  refine ⟨fun hk => ?_, ?_⟩
  · have hle : ¬ 7 < k := by omega
    rw [State.sendsOne, (writeLoop_spec k s).2.1, BitVec.getLsbD_shiftLeft]
    simp [hle]
  · rw [(writeLoop_spec 8 s).2.1]
    simp

/-! The acknowledgment detector (R152). -/

theorem AckedPolls.zero_mem {max : Byte} {polls : List Bit} (h : AckedPolls max polls) : 0 ∈ polls := by
  obtain ⟨k, -, rfl⟩ := h
  simp

theorem AckedPolls.length_bounds {max : Byte} {polls : List Bit} (h : AckedPolls max polls) :
    1 ≤ polls.length ∧ polls.length ≤ max.toNat := by
  obtain ⟨k, hk, rfl⟩ := h
  rw [List.length_append, List.length_replicate]
  exact ⟨Nat.le_add_left 1 k, hk⟩

theorem FailedPolls.zero_notMem {max : Byte} {polls : List Bit} (h : FailedPolls max polls) : 0 ∉ polls := by
  simp [show polls = _ from h, List.mem_replicate]

theorem FailedPolls.length_eq {max : Byte} {polls : List Bit} (h : FailedPolls max polls) :
    polls.length = max.toNat := by
  rw [show polls = _ from h, List.length_replicate]

theorem bitsOnly.sr {s t : State} (h : bitsOnly s t) : t.sr = s.sr := by
  obtain ⟨_, _, _, _, _, _, rfl⟩ := h
  rfl

/-- The polls leave the registers of the bit loop. -/
theorem pollLoop_bit_registers (k : Nat) (s : State) :
    (pollLoop k s).sr = s.sr ∧ (pollLoop k s).bitcnt = s.bitcnt := by
  induction k generalizing s with
  | zero => exact ⟨rfl, rfl⟩
  | succ k ih =>
    have hread := readDataBit_frame s
    unfold pollLoop
    split
    · exact ⟨hread.sr, hread.bitcnt⟩
    · obtain ⟨hsr, hbitcnt⟩ := ih ((readDataBit s).setPollcnt ((readDataBit s).pollcnt + 1))
      exact ⟨hsr.trans hread.sr, hbitcnt.trans hread.bitcnt⟩

theorem pollLoop_carries (k : Nat) (s : State) : Carries s (pollLoop k s) [] := by
  induction k generalizing s with
  | zero => exact .of_trace rfl
  | succ k ih =>
    unfold pollLoop
    split
    · exact (readDataBit_carries s).trans (.of_trace rfl)
    · exact ((readDataBit_carries s).trans (.of_trace rfl)).trans (ih _)

theorem ackPoll_carries (s : State) : Carries s (ackPoll s) [] := by
  have hinit : Carries s (s.setPollcnt 0) [] := .of_trace rfl
  exact hinit.trans (pollLoop_carries _ _)

/-- An answer 1 costs an attempt and an entry of the script. -/
theorem pollLoop_answering_one (k : Nat) {s : State} {ps : List EnvPhase} (h : s.env = answering 1 :: ps) :
    ∃ u, pollLoop (k + 1) s = pollLoop k u ∧ u.env = ps ∧ u.pollcnt = s.pollcnt + 1 := by
  have hbit := readDataBit_answering h
  refine ⟨(readDataBit s).setPollcnt ((readDataBit s).pollcnt + 1), ?_, ?_, ?_⟩
  · simp [pollLoop, State.readLow, hbit]
  · simp [h]
  · rw [State.setPollcnt_pollcnt, (readDataBit_frame s).pollcnt]

/-- The answer 0 ends the polls, however many came before it. -/
theorem pollLoop_acknowledged (j k : Nat) {s : State} {rest : List EnvPhase}
    (h : s.env = List.replicate j (answering 1) ++ answering 0 :: rest) (hjk : j < k) :
    (pollLoop k s).ackcnt = 0 ∧ (pollLoop k s).pollcnt = s.pollcnt + BitVec.ofNat 8 j ∧ (pollLoop k s).env = rest := by
  obtain ⟨k, rfl⟩ := Nat.exists_eq_add_one_of_ne_zero (Nat.ne_zero_of_lt hjk)
  induction j generalizing k s with
  | zero =>
    have henv : s.env = answering 0 :: rest := h
    have hlow : (readDataBit s).readLow = true := by simp [State.readLow, readDataBit_answering henv]
    simp [pollLoop, hlow, henv, (readDataBit_frame s).pollcnt]
  | succ j ih =>
    obtain ⟨u, hu, henv, hpoll⟩ := pollLoop_answering_one k (h.trans (by rw [List.replicate_succ, List.cons_append]))
    obtain ⟨k, rfl⟩ := Nat.exists_eq_add_one_of_ne_zero (show k ≠ 0 by omega)
    obtain ⟨hack, hcnt, hrest⟩ := ih henv k (by omega)
    rw [hu]
    refine ⟨hack, ?_, hrest⟩
    rw [hcnt, hpoll]
    bv_omega

/-- A device that answers 1 to every attempt is polled to the bound. -/
theorem pollLoop_unanswered (k : Nat) {s : State} {rest : List EnvPhase}
    (h : s.env = List.replicate k (answering 1) ++ rest) :
    (pollLoop k s).ackcnt = s.pollcnt + BitVec.ofNat 8 k ∧ (pollLoop k s).env = rest := by
  induction k generalizing s with
  | zero => exact ⟨(BitVec.add_zero _).symm, h⟩
  | succ k ih =>
    obtain ⟨u, hu, henv, hpoll⟩ := pollLoop_answering_one k (h.trans (by rw [List.replicate_succ, List.cons_append]))
    obtain ⟨hack, hrest⟩ := ih henv
    rw [hu]
    refine ⟨?_, hrest⟩
    rw [hack, hpoll]
    bv_omega

/-- Settles O34: the script of the polls is the one WRITEBYTE began with, since its bits take no Sample
(`writeByte_polls`). -/
theorem writeByteSeesTheScriptedAcknowledge : Obligations.WriteByteSeesTheScriptedAcknowledge := by
  intro value s k rest
  obtain ⟨u, hpolls, -, hpollcnt, -, -, -, -, henv, -⟩ := writeByte_polls value s
  refine ⟨fun hk hscript => ?_, fun hscript => ?_⟩
  · obtain ⟨hack, hcnt, hrest⟩ := pollLoop_acknowledged k s.cfgAckMax.toNat (henv.trans hscript) hk
    rw [hpollcnt, zero_add] at hcnt
    rw [← hpolls] at hack hcnt hrest
    refine ⟨writeByte value s, rfl, hack, ?_, hrest⟩
    rw [hcnt, BitVec.toNat_ofNat]
    exact Nat.mod_eq_of_lt (hk.trans s.cfgAckMax.isLt)
  · obtain ⟨hack, hrest⟩ := pollLoop_unanswered s.cfgAckMax.toNat (henv.trans hscript)
    rw [hpollcnt, zero_add, BitVec.ofNat_toNat, BitVec.setWidth_eq] at hack
    rw [← hpolls] at hack hrest
    exact ⟨writeByte value s, rfl, hack, hrest⟩

/-! WRITEBYTE (R150, R153, R154). -/

/-- All that the polls of WRITEBYTE can do: an attempt reads 0, or all of them read 1. -/
theorem writeByte_outcome (value : Byte) (s : State) :
    ∃ polls, (writeByte value s).tokens = s.tokens ++ traceWriteByte value polls ∧
      ((AckedPolls s.cfgAckMax polls ∧ (writeByte value s).ackcnt = 0 ∧
          (writeByte value s).pollcnt.toNat + 1 = polls.length) ∨
        (FailedPolls s.cfgAckMax polls ∧ (writeByte value s).ackcnt = s.cfgAckMax ∧
          (writeByte value s).pollcnt = s.cfgAckMax)) ∧
      (s.cfgAckMax ≠ 0 → polls.getLast? = some (writeByte value s).bitv) := by
  obtain ⟨u, hpolls, htokens, hpollcnt, -, -, -, -, -, -⟩ := writeByte_polls value s
  have hzero : u.pollcnt.toNat = 0 := by rw [hpollcnt]; rfl
  obtain ⟨polls, hnew, hcases, hlast, -, -⟩ :=
    pollLoop_spec s.cfgAckMax.toNat u (by rw [hzero, Nat.zero_add]; exact s.cfgAckMax.isLt)
  rw [← hpolls] at hnew hcases hlast
  rw [hzero] at hcases
  refine ⟨polls, ?_, ?_, fun hne => hlast (by bv_omega)⟩
  · rw [hnew, htokens, traceWriteByte]
    simp only [List.append_assoc]
  · rcases hcases with ⟨j, hj, rfl, hack, hcnt⟩ | ⟨rfl, hack, hcnt⟩
    · exact .inl ⟨⟨j, hj, rfl⟩, hack, by simp [hcnt]⟩
    · exact .inr ⟨rfl, BitVec.eq_of_toNat_eq (by simpa using hack), BitVec.eq_of_toNat_eq (by simpa using hcnt)⟩

theorem writeByte_lines (value : Byte) (s : State) :
    (writeByte value s).dirClock = .input ∧ (writeByte value s).dirData = .input := by
  obtain ⟨u, hpolls, -, hpollcnt, -, -, hclock, hdata, -, -⟩ := writeByte_polls value s
  obtain ⟨-, -, -, -, hc, hd⟩ :=
    pollLoop_spec s.cfgAckMax.toNat u (by rw [hpollcnt]; simpa using s.cfgAckMax.isLt)
  rw [hpolls, hc, hd, hclock, hdata, ite_self]
  exact ⟨rfl, rfl⟩

theorem writeByte_bit_registers (value : Byte) (s : State) :
    (writeByte value s).sr = 0 ∧ (writeByte value s).bitcnt = 8 := by
  obtain ⟨u, hpolls, -, -, hsr, hbitcnt, -, -, -, -⟩ := writeByte_polls value s
  rw [hpolls, (pollLoop_bit_registers _ u).1, (pollLoop_bit_registers _ u).2]
  exact ⟨hsr, hbitcnt⟩

/-- Settles O33: the polls' outcome (`writeByte_outcome`) says whether a 0 is among their answers. -/
theorem writeByteSendsAndPolls : Obligations.WriteByteSendsAndPolls := by
  intro value s
  obtain ⟨polls, htokens, hcases, hlast⟩ := writeByte_outcome value s
  obtain ⟨hclock, hdata⟩ := writeByte_lines value s
  obtain ⟨hsr, hbitcnt⟩ := writeByte_bit_registers value s
  refine ⟨packWord_eq_add 0x20 value, writeByte value s, polls, rfl, htokens, hcases, fun hne => ?_, hclock, hdata, hsr,
    hbitcnt, writeByte_frame value s, (writeByte_frame value s).bufRead⟩
  rcases hcases with ⟨hacked, hack, -⟩ | ⟨hfailed, hack, -⟩
  · exact ⟨hacked.length_bounds.1, iff_of_true hack hacked.zero_mem, hlast hne⟩
  · refine ⟨?_, iff_of_false (hack ▸ hne) hfailed.zero_notMem, hlast hne⟩
    rw [hfailed.length_eq]
    bv_omega

theorem traceReadBits_length (polls : List Bit) :
    (polls.flatMap traceReadBit).length = 3 * polls.length ∧
      ((polls.flatMap traceReadBit).filter Token.isPin).length = 2 * polls.length := by
  have hread : ∀ b, (traceReadBit b).length = 3 ∧ ((traceReadBit b).filter Token.isPin).length = 2 :=
    fun _ => ⟨rfl, rfl⟩
  simp [List.length_flatMap, List.filter_flatMap, hread, Nat.mul_comm]

/-- A bit takes eight micro-actions, three of them pin actions, whichever it is. -/
theorem traceSendBit_length (one : Bool) :
    (traceSendBit one).length = 8 ∧ ((traceSendBit one).filter Token.isPin).length = 3 := by
  cases one <;> exact ⟨rfl, rfl⟩

theorem traceWriteByte_length (value : Byte) (polls : List Bit) :
    (traceWriteByte value polls).length = 72 + 3 * polls.length ∧
      ((traceWriteByte value polls).filter Token.isPin).length = 27 + 2 * polls.length := by
  have hbits : (traceSendBits value).length = 64 ∧ ((traceSendBits value).filter Token.isPin).length = 24 := by
    simp [traceSendBits, traceSendBit_length]
  have hwindow : (traceClockLow ++ traceDataHigh ++ traceClockHigh).length = 8 ∧
      ((traceClockLow ++ traceDataHigh ++ traceClockHigh).filter Token.isPin).length = 3 := ⟨rfl, rfl⟩
  simp only [traceWriteByte, List.filter_append, List.length_append] at hwindow ⊢
  rw [hbits.1, hbits.2, (traceReadBits_length polls).1, (traceReadBits_length polls).2]
  omega

/-- The wire of WRITEBYTE: the byte, bit 7 first, and the floated data line of the acknowledge window (R150, R157). -/
theorem writeByte_carries (value : Byte) {s : State} {p : EnvPhase} {ps : List EnvPhase} (h : s.env = p :: ps)
    (hp : p.clockLow = false) :
    Carries s (writeByte value s)
      ([7, 6, 5, 4, 3, 2, 1, 0].map (fun i => p.sentLevel (value.getLsbD i)) ++ [p.sentLevel true]) := by
  have hbits := writeLoop_carries 8 (s := (s.setSr value).setBitcnt 0) h hp
  have henv := (writeLoop_env 8 ((s.setSr value).setBitcnt 0)).trans h
  have hw : writeByte value s =
      ackPoll (clockHigh (dataHigh (clockLow (writeLoop 8 ((s.setSr value).setBitcnt 0))))) := rfl
  have hsent : ((List.range 8).map fun j => p.sentLevel ((value <<< j).getLsbD 7)) =
      [7, 6, 5, 4, 3, 2, 1, 0].map (fun i => p.sentLevel (value.getLsbD i)) := by
    simp [List.range_succ]
  rw [State.setBitcnt_sr, State.setSr_sr, hsent] at hbits
  generalize writeLoop 8 ((s.setSr value).setBitcnt 0) = w at hbits henv hw
  have hset : Carries w (dataHigh (clockLow w)) [] := (clockLow_carries w).trans (dataHigh_carries _)
  have hrise : Carries (dataHigh (clockLow w)) (clockHigh (dataHigh (clockLow w))) [p.sentLevel true] :=
    clockHigh_carries (by rw [dataHigh_env, clockLow_env, henv]) hp rfl
  have hpoll : Carries (clockHigh (dataHigh (clockLow w))) (writeByte value s) [] := by
    rw [hw]
    exact ackPoll_carries _
  have hstart : Carries s ((s.setSr value).setBitcnt 0) [] := .of_trace rfl
  simpa using (hstart.trans hbits).trans ((hset.trans hrise).trans hpoll)

/-- Settles O36: the sizes are those of the trace, and each bit and the acknowledge window raise the clock once. -/
theorem writeByteHasNineRisingEdges : Obligations.WriteByteHasNineRisingEdges := by
  intro value s hne hscript hclock
  obtain ⟨p, ps, henv⟩ : ∃ p ps, s.env = p :: ps := List.exists_cons_of_length_pos (by bv_omega)
  obtain ⟨polls, htokens, hcases, -⟩ := writeByte_outcome value s
  obtain ⟨hall, hpins⟩ := traceWriteByte_length value polls
  have hbounds : 1 ≤ polls.length ∧ polls.length ≤ s.cfgAckMax.toNat := by
    rcases hcases with ⟨hacked, -⟩ | ⟨hfailed, -⟩
    · exact hacked.length_bounds
    · rw [hfailed.length_eq]
      bv_omega
  refine ⟨writeByte value s, polls.length, rfl, hbounds.1, hbounds.2, ?_, ?_, ?_⟩
  · rw [State.pinTrace_of_tokens htokens, List.length_append, hpins, Nat.add_assoc]
  · rw [(runs_writeByte value s).now_of_tokens htokens, hall, Nat.add_assoc]
  · exact (writeByte_carries value henv (hclock p (by simp [henv]))).riseCount

/-! READBYTE (R155, R156). -/

theorem traceReadByte_length (bits : List Bit) :
    (traceReadByte bits).length = 2 + 12 * bits.length ∧
      ((traceReadByte bits).filter Token.isPin).length = 1 + 5 * bits.length := by
  have hhigh : traceDataHigh.length = 2 ∧ (traceDataHigh.filter Token.isPin).length = 1 := ⟨rfl, rfl⟩
  have hbit : ∀ b, (traceClockCycle ++ traceReadBit b ++ traceClockLow).length = 12 ∧
      ((traceClockCycle ++ traceReadBit b ++ traceClockLow).filter Token.isPin).length = 5 := fun _ => ⟨rfl, rfl⟩
  rw [traceReadByte, List.filter_append, List.length_append, List.length_append, hhigh.1, hhigh.2,
    List.filter_flatMap, List.length_flatMap, List.length_flatMap]
  simp only [hbit, List.map_const', List.sum_replicate_nat, Nat.mul_comm, and_self]

/-- Settles O37: the bit loop of READBYTE (`readLoop_spec`) places eight samples; the sizes are those of the trace. -/
theorem readByteAssemblesEightSamples : Obligations.ReadByteAssemblesEightSamples := by
  refine ⟨rfl, fun s => ?_⟩
  obtain ⟨bits, hlength, hnew, hrx, hbitcnt, hlast, hclock, hdata⟩ := readLoop_spec 8 0 ((dataHigh s).setBitcnt 0)
  have htokens : (readByte s).tokens = s.tokens ++ traceReadByte bits :=
    hnew.trans (by rw [State.tokens_setBitcnt, dataHigh_tokens, traceReadByte, List.append_assoc])
  obtain ⟨hall, hpins⟩ := traceReadByte_length bits
  refine ⟨readByte s, bits, rfl, hlength, htokens, hrx.trans (placeBits_eight bits hlength), hlast (by decide), hclock,
    hdata, hbitcnt, ?_, ?_, readByte_frame s, (readByte_frame s).bufRead⟩
  · rw [State.pinTrace_of_tokens htokens, List.length_append, hpins, hlength]
  · rw [(runs_readByte s).now_of_tokens htokens, hall, hlength]

/-- One turn of the bit loop of READBYTE, but for the byte it assembles. -/
def readOneBit (s : State) : State :=
  let t := clockLow (readDataBit (clockCycle s))
  t.setBitcnt (t.bitcnt + 1)

theorem readLoop_succ (k : Nat) (v : Byte) (s : State) :
    readLoop (k + 1) v s =
      readLoop k (placeBit v (readDataBit (clockCycle s)).bitcnt (readDataBit (clockCycle s)).bitv) (readOneBit s) :=
  rfl

theorem readOneBit_env (s : State) : (readOneBit s).env = s.env.tail := by simp [readOneBit]

theorem readOneBit_carries {s : State} {p : EnvPhase} {ps : List EnvPhase} (h : s.env = p :: ps)
    (hp : p.clockLow = false) : Carries s (readOneBit s) [p.sentLevel (s.dirData == .input)] := by
  have hread : Carries (clockCycle s) (clockLow (readDataBit (clockCycle s))) [] :=
    (readDataBit_carries _).trans (clockLow_carries _)
  exact ((clockCycle_carries h hp).trans hread).trans (.of_trace rfl)

/-- Each bit that READBYTE takes while the script leaves the clock alone raises the clock once. -/
theorem readLoop_carries (phases : List EnvPhase) (v : Byte) {s : State} {rest : List EnvPhase}
    (h : s.env = phases ++ rest) (hclock : ∀ p ∈ phases, p.clockLow = false) :
    ∃ bits, bits.length = phases.length ∧ Carries s (readLoop phases.length v s) bits := by
  induction phases generalizing v s with
  | nil => exact ⟨[], rfl, .of_trace rfl⟩
  | cons p ps ih =>
    obtain ⟨hp, hps⟩ := List.forall_mem_cons.1 hclock
    obtain ⟨bits, hlength, hrest⟩ :=
      ih (placeBit v (readDataBit (clockCycle s)).bitcnt (readDataBit (clockCycle s)).bitv) (s := readOneBit s)
        (by rw [readOneBit_env, h, List.cons_append, List.tail_cons]) hps
    rw [List.length_cons, readLoop_succ]
    exact ⟨_, by rw [← hlength]; rfl, (readOneBit_carries h hp).trans hrest⟩

/-- Settles O38: the byte by `readByte_presented`, the edges by `readLoop_carries`. -/
theorem readByteReturnsThePresentedByte : Obligations.ReadByteReturnsThePresentedByte := by
  intro value s rest henv
  obtain ⟨hrx, hrest⟩ := readByte_presented henv
  obtain ⟨bits, hlength, hwire⟩ :=
    readLoop_carries ((bitsOfByte value).map answering) 0 (s := (dataHigh s).setBitcnt 0) (rest := rest)
      ((dataHigh_env s).trans henv) (by simp [answering])
  rw [List.length_map, bitsOfByte_length] at hlength hwire
  have hall : Carries s (readByte s) bits := (dataHigh_carries s).trans ((Carries.of_trace rfl).trans hwire)
  exact ⟨readByte s, rfl, hrx, hrest, hall.riseCount.trans hlength⟩

/-- Settles O39: the wire of WRITEBYTE begins with the byte's bits, and READBYTE makes the byte of them. -/
theorem writtenByteReadsBack : Obligations.WrittenByteReadsBack := by
  intro value s p ps henv hclock hdata
  have hbits : [7, 6, 5, 4, 3, 2, 1, 0].map (fun i => p.sentLevel (value.getLsbD i)) = bitsOfByte value := by
    simp [bitsOfByte, EnvPhase.sentLevel, hdata]
  have hwire : (wire (newEvents s (writeByte value s))).take 8 = bitsOfByte value := by
    rw [(writeByte_carries value henv hclock).wire_newEvents, hbits, List.take_left' (bitsOfByte_length value)]
  refine ⟨writeByte value s, rfl, hwire, fun u rest hu => ⟨readByte u, rfl, ?_⟩⟩
  rw [hwire] at hu
  exact (readByte_presented hu).1

end Sys2Proof.Machine
end

section
/-! SUPPORT. The acknowledgment driver (spec/43_acknowledge.md): the answer on the data line, shown by one cycle of the
clock. -/

namespace Sys2Proof.Machine

@[simp] theorem EnvPhase.sentLevel_false (p : EnvPhase) : p.sentLevel false = 0 := rfl

@[simp] theorem EnvPhase.sentLevel_true (p : EnvPhase) : p.sentLevel true = if p.dataLow then 0 else 1 := by
  cases hdata : p.dataLow <;> simp [EnvPhase.sentLevel, hdata]

/-- The cycle of the clock and the CLOCKLOW after it show the data line once (R173). -/
theorem clockLow_clockCycle_carries {s : State} {p : EnvPhase} {ps : List EnvPhase} (h : s.env = p :: ps)
    (hp : p.clockLow = false) :
    Carries s (clockLow (clockCycle s)) [p.sentLevel (s.dirData == .input)] :=
  (clockCycle_carries h hp).trans (clockLow_carries _)

theorem sendAck_carries {s : State} {p : EnvPhase} {ps : List EnvPhase} (h : s.env = p :: ps)
    (hp : p.clockLow = false) : Carries s (sendAck s) [0] := by
  rw [← p.sentLevel_false]
  exact (dataLow_carries s).trans (clockLow_clockCycle_carries ((dataLow_env s).trans h) hp)

theorem sendNak_carries {s : State} {p : EnvPhase} {ps : List EnvPhase} (h : s.env = p :: ps)
    (hp : p.clockLow = false) : Carries s (sendNak s) [if p.dataLow then 0 else 1] := by
  rw [← p.sentLevel_true]
  exact (dataHigh_carries s).trans (clockLow_clockCycle_carries ((dataHigh_env s).trans h) hp)

/-- Settles O40: the cycle of the clock shows the data line driven low (`sendAck_carries`). -/
theorem sendAckDrivesTheAcknowledge : Obligations.SendAckDrivesTheAcknowledge := by
  refine ⟨rfl, fun s => ⟨sendAck s, rfl, sendAck_dirClock s, sendAck_dirData s, sendAck_tokens s, ?_,
    sendAck_frame s, (sendAck_frame s).bits.bufRead, fun p ps henv hclock => ?_⟩⟩
  · exact (runs_sendAck s).now_of_tokens (sendAck_tokens s)
  · exact (sendAck_carries henv hclock).wire_newEvents

/-- Settles O41: the cycle of the clock shows the floated data line (`sendNak_carries`). -/
theorem sendNakReleasesTheData : Obligations.SendNakReleasesTheData := by
  refine ⟨rfl, fun s => ⟨sendNak s, rfl, sendNak_dirClock s, sendNak_dirData s, sendNak_tokens s, ?_,
    sendNak_frame s, (sendNak_frame s).bits.bufRead, fun p ps henv hclock => ?_⟩⟩
  · exact (runs_sendNak s).now_of_tokens (sendNak_tokens s)
  · exact (sendNak_carries henv hclock).wire_newEvents

end Sys2Proof.Machine
end

section
/-! SUPPORT. Transaction framing (spec/44_framing.md): the signatures of a sequence from those of its micro-actions,
while the script of the environment moves no line between them, and from these START, STOP and POWERON. -/

namespace Sys2Proof.Machine

/-! Events without a change of level between them. -/

/-- Events, given newest first, that lead from the levels `a` to the levels `b`, each one from where the one before it
ended: nothing else moves a line between them. -/
inductive Unbroken (a : Levels) : List Event → Levels → Prop where
  | nil : Unbroken a [] a
  | cons {e : Event} {es : List Event} (h : Unbroken a es e.before) : Unbroken a (e :: es) e.after

theorem Unbroken.append {a b c : Levels} {es fs : List Event} (h : Unbroken a es b) (k : Unbroken b fs c) :
    Unbroken a (fs ++ es) c := by
  induction k with
  | nil => exact h
  | cons _ ih => exact ih.cons

/-- In an unbroken list every change of level is some event's own. -/
theorem Unbroken.countChanges_eq {p : Levels → Levels → Bool} (hp : ∀ x, p x x = false) {a b : Levels}
    {es : List Event} (h : Unbroken a es b) :
    countChanges p (b :: levelsOf es) = es.countP (fun e => p e.before e.after) := by
  induction h with
  | nil => rfl
  | cons _ ih =>
    rw [levelsOf_cons, countChanges, countChanges, hp, ih, List.countP_cons]
    simp [Nat.add_comm]

/-! The signatures from one state to another (R11). -/

/-- From `s` to `t` the script stays at its stretch, and unbroken events alone move the bus; `starts` and `stops` are
the tokens of those that make a start and a stop signature, oldest first. -/
def Signatures (s t : State) (starts stops : List Token) : Prop :=
  t.env = s.env ∧ ∃ es, t.trace = es ++ s.trace ∧ Unbroken s.levels es t.levels ∧
    (es.filter Event.isStart).reverse.map Event.token = starts ∧
    (es.filter Event.isStop).reverse.map Event.token = stops

theorem Signatures.refl (s : State) : Signatures s s [] [] := ⟨rfl, [], rfl, .nil, rfl, rfl⟩

theorem Signatures.trans {s t u : State} {as bs cs ds : List Token} (h : Signatures s t as bs)
    (k : Signatures t u cs ds) : Signatures s u (as ++ cs) (bs ++ ds) := by
  obtain ⟨henv, es, hes, hst, rfl, rfl⟩ := h
  obtain ⟨kenv, fs, hfs, htu, rfl, rfl⟩ := k
  exact ⟨kenv.trans henv, fs ++ es, by rw [hfs, hes, List.append_assoc], hst.append htu, by simp, by simp⟩

theorem Signatures.trans_still {s t u : State} {starts stops : List Token} (h : Signatures s t starts stops)
    (k : Signatures t u [] []) : Signatures s u starts stops := by
  simpa using h.trans k

/-- The script stands at the end as at the start. -/
theorem Signatures.scripted {s t : State} {starts stops : List Token} {p : EnvPhase} {ps : List EnvPhase}
    (k : Signatures s t starts stops) (h : s.env = p :: ps) : t.env = p :: ps :=
  k.1.trans h

theorem Signatures.signatureTokens_eq {s t : State} {starts stops : List Token} (h : Signatures s t starts stops) :
    signatureTokens Event.isStart s t = starts ∧ signatureTokens Event.isStop s t = stops := by
  obtain ⟨-, es, hes, -, rfl, rfl⟩ := h
  simp [signatureTokens, newEvents_of_trace_append hes]

/-- The signatures on the bus are those that the events themselves make. -/
theorem Signatures.count_eq {s t : State} {starts stops : List Token} (h : Signatures s t starts stops) :
    startCount s t = starts.length ∧ stopCount s t = stops.length := by
  obtain ⟨-, es, hes, hbus, rfl, rfl⟩ := h
  rw [startCount, stopCount, levelsBetween, newEvents_of_trace_append hes, hbus.countChanges_eq startTo_self,
    hbus.countChanges_eq stopTo_self]
  simp only [List.length_map, List.length_reverse, List.countP_eq_length_filter]
  exact ⟨rfl, rfl⟩

theorem signatures_of_event {s t : State} {k : Token} (henv : t.env = s.env)
    (h : t.trace = ⟨k, s.levels, t.levels⟩ :: s.trace) :
    Signatures s t (if s.levels.startTo t.levels then [k] else []) (if s.levels.stopTo t.levels then [k] else []) := by
  refine ⟨henv, [_], h, .cons .nil, ?_, ?_⟩
  · cases hstart : s.levels.startTo t.levels <;> simp [Event.isStart, hstart]
  · cases hstop : s.levels.stopTo t.levels <;> simp [Event.isStop, hstop]

/-- An event that leaves the data level as it was is no signature. -/
theorem signatures_of_still_data {s t : State} {k : Token} (henv : t.env = s.env)
    (h : t.trace = ⟨k, s.levels, t.levels⟩ :: s.trace) (hdata : t.level .data = s.level .data) :
    Signatures s t [] [] := by
  have hsig := signatures_of_event henv h
  rcases BitVec.eq_zero_or_eq_one (s.level .data) with hd | hd <;>
    simpa [Levels.startTo, Levels.stopTo, State.levels, hdata, hd] using hsig

theorem setCyc_signatures (s : State) (v : Byte) : Signatures s (s.setCyc v) [] [] := .refl s

theorem finish_signatures (r : Result) (s : State) : Signatures s (finish r s) [] [] := .refl s

/-! One micro-action each, while a stretch of the script lasts (log entry 7). -/

/-- Within a stretch of the script the level of a line depends on its direction alone. -/
theorem State.level_congr_of_scripted {s t : State} {p : EnvPhase} {ps : List EnvPhase} {l : Line}
    (h : s.env = p :: ps) (henv : t.env = s.env) (hdir : t.dir l = s.dir l) : t.level l = s.level l := by
  simp [State.level_eq, State.envLow, henv, h, hdir]

theorem State.level_data_eq_one_of_scripted {s : State} {p : EnvPhase} {ps : List EnvPhase} (h : s.env = p :: ps) :
    s.level .data = 1 ↔ s.dirData = .input ∧ p.dataLow = false := by
  rw [State.level_eq_one, State.envLow, h]
  rfl

/-- The instant that passes with an event does not change the levels within a stretch of the script. -/
theorem State.record_levels_of_scripted {s : State} {p : EnvPhase} {ps : List EnvPhase} (h : s.env = p :: ps)
    (k : Token) (before : Levels) : (s.record k before).levels = s.levels := by
  have hlevel : ∀ l, (s.record k before).level l = s.level l := fun l =>
    State.level_congr_of_scripted h rfl (by cases l <;> rfl)
  simp only [State.levels, hlevel]

theorem floatLine_trace_of_scripted {s : State} {p : EnvPhase} {ps : List EnvPhase} (h : s.env = p :: ps) (l : Line) :
    (floatLine l s).trace = ⟨.float l, s.levels, (floatLine l s).levels⟩ :: s.trace := by
  rw [floatLine, State.record_levels_of_scripted (by simpa using h), State.record_trace, State.setDir_trace]

theorem driveLine_trace_of_scripted {s : State} {p : EnvPhase} {ps : List EnvPhase} (h : s.env = p :: ps) (l : Line) :
    (driveLine l s).trace = ⟨.driveLow l, s.levels, (driveLine l s).levels⟩ :: s.trace := by
  rw [driveLine, State.record_levels_of_scripted (by simpa using h), State.record_trace, State.setDir_trace]

theorem delay_trace_of_scripted {s : State} {p : EnvPhase} {ps : List EnvPhase} (h : s.env = p :: ps) (d : Duration) :
    (delay d s).trace = ⟨.delay d, s.levels, (delay d s).levels⟩ :: s.trace := by
  rw [delay, State.record_levels_of_scripted h, State.record_trace]

section
variable {s : State} {p : EnvPhase} {ps : List EnvPhase} (h : s.env = p :: ps)
include h

theorem delay_signatures (d : Duration) : Signatures s (delay d s) [] [] :=
  signatures_of_still_data rfl (delay_trace_of_scripted h d) (State.level_congr_of_scripted h rfl rfl)

theorem floatClock_signatures : Signatures s (floatLine .clock s) [] [] :=
  signatures_of_still_data rfl (floatLine_trace_of_scripted h .clock) (State.level_congr_of_scripted h rfl rfl)

theorem driveClock_signatures : Signatures s (driveLine .clock s) [] [] :=
  signatures_of_still_data rfl (driveLine_trace_of_scripted h .clock) (State.level_congr_of_scripted h rfl rfl)

/-- Driving the data line makes a start signature exactly when the clock was high, and so was the data line. -/
theorem driveData_signatures :
    Signatures s (driveLine .data s)
      (if s.level .clock = 1 ∧ s.dirData = .input ∧ p.dataLow = false then [.driveLow .data] else []) [] := by
  have hclock : (driveLine .data s).level .clock = s.level .clock := State.level_congr_of_scripted h rfl rfl
  have hafter : (driveLine .data s).level .data = 0 := rfl
  have hsig := signatures_of_event (driveLine_env .data s) (driveLine_trace_of_scripted h .data)
  simp only [← State.level_data_eq_one_of_scripted h]
  simpa [Levels.startTo, Levels.stopTo, State.levels, hclock, hafter, and_comm] using hsig

/-- Floating the data line makes a stop signature exactly when the clock was high, and the data line low by TWBB
alone. -/
theorem floatData_signatures :
    Signatures s (floatLine .data s) []
      (if s.level .clock = 1 ∧ s.dirData = .output ∧ p.dataLow = false then [.float .data] else []) := by
  have htrace := floatLine_trace_of_scripted h .data
  cases hdir : s.dirData with
  | input =>
    have hdata : (floatLine .data s).level .data = s.level .data := State.level_congr_of_scripted h rfl hdir.symm
    simpa using signatures_of_still_data (floatLine_env .data s) htrace hdata
  | output =>
    have hclock : (floatLine .data s).level .clock = s.level .clock := State.level_congr_of_scripted h rfl rfl
    have hbefore : s.level .data = 0 := by simp [State.level_eq, hdir]
    have hafter : (floatLine .data s).level .data = 1 ↔ p.dataLow = false := by
      simpa using State.level_data_eq_one_of_scripted ((floatLine_env .data s).trans h)
    have hsig := signatures_of_event (floatLine_env .data s) htrace
    simp only [← hafter]
    simpa [Levels.startTo, Levels.stopTo, State.levels, hclock, hbefore, and_comm] using hsig

/-! The sequences below the framing. -/

theorem clockLow_signatures : Signatures s (clockLow s) [] [] := by
  have hdrive := driveClock_signatures h
  have ha := hdrive.trans_still (delay_signatures (hdrive.scripted h) .clA)
  exact ha.trans_still (delay_signatures (ha.scripted h) .clB)

theorem clockHigh_signatures : Signatures s (clockHigh s) [] [] := by
  have hpre := delay_signatures h .chPre
  have hfloat := hpre.trans_still (floatClock_signatures (hpre.scripted h))
  exact hfloat.trans_still (delay_signatures (hfloat.scripted h) .chPost)

theorem clockCycle_signatures : Signatures s (clockCycle s) [] [] :=
  (clockLow_signatures h).trans_still (clockHigh_signatures ((clockLow_signatures h).scripted h))

theorem dataLow_signatures :
    Signatures s (dataLow s)
      (if s.level .clock = 1 ∧ s.dirData = .input ∧ p.dataLow = false then [.driveLow .data] else []) [] :=
  (driveData_signatures h).trans_still (delay_signatures ((driveData_signatures h).scripted h) .dl)

theorem dataHigh_signatures :
    Signatures s (dataHigh s) []
      (if s.level .clock = 1 ∧ s.dirData = .output ∧ p.dataLow = false then [.float .data] else []) :=
  (floatData_signatures h).trans_still (delay_signatures ((floatData_signatures h).scripted h) .dh)

/-- While TWBB drives the clock, the data line may move without a signature. -/
theorem data_signatures_of_driven_clock (hdriven : s.dirClock = .output) :
    Signatures s (dataLow s) [] [] ∧ Signatures s (dataHigh s) [] [] := by
  have hclock : s.level .clock = 0 := by simp [State.level_eq, hdriven]
  exact ⟨by simpa [hclock] using dataLow_signatures h, by simpa [hclock] using dataHigh_signatures h⟩

/-- While the clock floats and nobody else pulls a line low, driving a floated data line is a start signature. -/
theorem dataLow_signatures_of_idle (hp : p.clockLow = false) (hclock : s.dirClock = .input)
    (hdata : s.dirData = .input) : Signatures s (dataLow s) (if p.dataLow then [] else [.driveLow .data]) [] := by
  have hhigh : s.level .clock = 1 := by simp [State.level_clock_of_scripted h hp, hclock]
  have hsig := dataLow_signatures h
  cases hlow : p.dataLow <;> simpa [hhigh, hdata, hlow] using hsig

/-- While the clock floats and nobody else pulls a line low, floating a driven data line is a stop signature. -/
theorem dataHigh_signatures_of_driven (hp : p.clockLow = false) (hclock : s.dirClock = .input)
    (hdata : s.dirData = .output) : Signatures s (dataHigh s) [] (if p.dataLow then [] else [.float .data]) := by
  have hhigh : s.level .clock = 1 := by simp [State.level_clock_of_scripted h hp, hclock]
  have hsig := dataHigh_signatures h
  cases hlow : p.dataLow <;> simpa [hhigh, hdata, hlow] using hsig

/-- Floating a data line that floats already is no signature. -/
theorem dataHigh_signatures_of_floated (hdata : s.dirData = .input) : Signatures s (dataHigh s) [] [] := by
  simpa [hdata] using dataHigh_signatures h

end

theorem cycleLoop_signatures (k : Nat) {s : State} {p : EnvPhase} {ps : List EnvPhase} (h : s.env = p :: ps) :
    Signatures s (cycleLoop k s) [] [] := by
  induction k generalizing s with
  | zero => exact .refl s
  | succ k ih =>
    have hcycle := (clockCycle_signatures h).trans_still (setCyc_signatures _ ((clockCycle s).cyc - 1))
    exact hcycle.trans_still (ih (hcycle.scripted h))

theorem clockCycles_signatures (n : Byte) {s : State} {p : EnvPhase} {ps : List EnvPhase} (h : s.env = p :: ps) :
    Signatures s (clockCycles n s) [] [] :=
  (setCyc_signatures s n).trans_still (cycleLoop_signatures n.toNat h)

/-! START (R180, R181). -/

/-- START has its one start signature at its DL: its CF has raised the clock, and its DF the data line. -/
theorem start_signatures {s : State} {p : EnvPhase} {ps : List EnvPhase} (h : s.env = p :: ps)
    (hp : p.clockLow = false) : Signatures s (start s) (if p.dataLow then [] else [.driveLow .data]) [] := by
  have hlow := clockLow_signatures h
  have hfloat := hlow.trans_still (data_signatures_of_driven_clock (hlow.scripted h) (clockLow_dirClock s)).2
  have h1 := hfloat.trans_still (delay_signatures (hfloat.scripted h) .st1)
  have hhigh := h1.trans_still (clockHigh_signatures (h1.scripted h))
  have h2 := hhigh.trans_still (delay_signatures (hhigh.scripted h) .st2)
  have hstart := h2.trans (dataLow_signatures_of_idle (h2.scripted h) hp (by simp) (by simp))
  have h3 := hstart.trans_still (delay_signatures (hstart.scripted h) .st3)
  have hend := h3.trans_still (clockLow_signatures (h3.scripted h))
  exact hend.trans_still (delay_signatures (hend.scripted h) .st4)

/-- Settles O42, by the trace and the frame of START. -/
theorem startRunsItsSequence : Obligations.StartRunsItsSequence :=
  ⟨rfl, fun s => ⟨start s, rfl, start_dirClock s, start_dirData s, start_tokens s, start_frame s,
    (start_frame s).bits.bufRead⟩⟩

/-- Settles O43: the signatures on the bus are those of START's own events (`start_signatures`). -/
theorem startHasOneStartSignature : Obligations.StartHasOneStartSignature := by
  intro s p ps henv hclock
  have hsig := start_signatures henv hclock
  obtain ⟨hstarts, hstops⟩ := hsig.count_eq
  refine ⟨start s, rfl, hstops, ?_, hsig.signatureTokens_eq.1⟩
  rw [hstarts]
  cases p.dataLow <;> rfl

/-! STOP (R182, R183). -/

/-- STOP has its one stop signature at its DF: its CF has raised the clock, over a data line that its DL drives. -/
theorem stop_signatures {s : State} {p : EnvPhase} {ps : List EnvPhase} (h : s.env = p :: ps)
    (hp : p.clockLow = false) : Signatures s (stop s) [] (if p.dataLow then [] else [.float .data]) := by
  have hlow := clockLow_signatures h
  have hdrive := hlow.trans_still (data_signatures_of_driven_clock (hlow.scripted h) (clockLow_dirClock s)).1
  have hhigh := hdrive.trans_still (clockHigh_signatures (hdrive.scripted h))
  have h1 := hhigh.trans_still (delay_signatures (hhigh.scripted h) .sp1)
  have hstop := h1.trans (dataHigh_signatures_of_driven (h1.scripted h) hp (by simp) (by simp))
  exact hstop.trans_still (delay_signatures (hstop.scripted h) .sp2)

/-- Settles O44, by the trace and the frame of STOP. -/
theorem stopRunsItsSequence : Obligations.StopRunsItsSequence :=
  ⟨rfl, fun s => ⟨stop s, rfl, stop_dirClock s, stop_dirData s, stop_tokens s, stop_frame s,
    (stop_frame s).bits.bufRead⟩⟩

/-- Settles O45: the signatures on the bus are those of STOP's own events (`stop_signatures`). -/
theorem stopHasOneStopSignature : Obligations.StopHasOneStopSignature := by
  intro s p ps henv hclock
  have hsig := stop_signatures henv hclock
  obtain ⟨hstarts, hstops⟩ := hsig.count_eq
  refine ⟨stop s, rfl, hstarts, ?_, hsig.signatureTokens_eq.2, stop_dirClock s, stop_dirData s⟩
  rw [hstops]
  cases p.dataLow <;> rfl

/-! POWERON (R184, R185). -/

theorem cycleLoop_carries (k : Nat) {s : State} {p : EnvPhase} {ps : List EnvPhase} (h : s.env = p :: ps)
    (hp : p.clockLow = false) :
    Carries s (cycleLoop k s) (List.replicate k (p.sentLevel (s.dirData == .input))) := by
  induction k generalizing s with
  | zero => exact .of_trace rfl
  | succ k ih =>
    have hcount : Carries (clockCycle s) ((clockCycle s).setCyc ((clockCycle s).cyc - 1)) [] := .of_trace rfl
    exact ((clockCycle_carries h hp).trans hcount).trans (ih (s := State.setCyc _ _) ((clockCycle_env s).trans h))

theorem clockCycles_carries (n : Byte) {s : State} {p : EnvPhase} {ps : List EnvPhase} (h : s.env = p :: ps)
    (hp : p.clockLow = false) :
    Carries s (clockCycles n s) (List.replicate n.toNat (p.sentLevel (s.dirData == .input))) := by
  have hset : Carries s (s.setCyc n) [] := .of_trace rfl
  exact hset.trans (cycleLoop_carries n.toNat (s := s.setCyc n) h hp)

/-- The bound is read after DATAHIGH and CLOCKLOW, which leave it alone. -/
theorem powerOn_eq (s : State) :
    powerOn s = finish .success (clockCycles s.cfgPwrClks (clockLow (dataHigh s))) := rfl

theorem powerOn_tokens (s : State) : (powerOn s).tokens = s.tokens ++ tracePowerOn s.cfgPwrClks.toNat := by
  have hfinish : (powerOn s).tokens = (clockCycles s.cfgPwrClks (clockLow (dataHigh s))).tokens := rfl
  simp [hfinish, clockCycles_tokens, tracePowerOn]

theorem traceCycles_length (n : Nat) : (traceCycles n).length = 6 * n := by
  simp [traceCycles, traceClockCycle, Nat.mul_comm]

theorem tracePowerOn_length (n : Nat) :
    (tracePowerOn n).length = 5 + 6 * n ∧ ((tracePowerOn n).filter Token.isPin).length = 2 + 2 * n := by
  obtain ⟨hall, hpins⟩ : (traceDataHigh ++ traceClockLow).length = 5 ∧
      ((traceDataHigh ++ traceClockLow).filter Token.isPin).length = 2 := ⟨rfl, rfl⟩
  rw [tracePowerOn, List.length_append, hall, traceCycles_length, List.filter_append, List.length_append, hpins,
    traceCycles_pins_length]
  exact ⟨rfl, rfl⟩

theorem powerOn_frame (s : State) : powerOnly s (powerOn s) :=
  ((((dataHigh_frame s).trans (clockLow_frame _)).cycles.trans (clockCycles_frame _ _)).power).trans (finish_frame _ _)

theorem powerOnly.bufRead {s t : State} (h : powerOnly s t) (j : Byte) : t.bufRead j = s.bufRead j := by
  obtain ⟨_, _, _, _, _, _, rfl⟩ := h
  rfl

/-- POWERON has no signature where its first DF moves no line. -/
theorem powerOn_signatures {s : State} {p : EnvPhase} {ps : List EnvPhase} (h : s.env = p :: ps)
    (hdata : s.dirData = .input) : Signatures s (powerOn s) [] [] := by
  have hhigh := dataHigh_signatures_of_floated h hdata
  have hlow := hhigh.trans_still (clockLow_signatures (hhigh.scripted h))
  have hcycles := hlow.trans_still (clockCycles_signatures s.cfgPwrClks (hlow.scripted h))
  exact hcycles.trans_still (finish_signatures _ _)

/-- Every priming cycle of POWERON shows the floated data line. -/
theorem powerOn_carries {s : State} {p : EnvPhase} {ps : List EnvPhase} (h : s.env = p :: ps)
    (hp : p.clockLow = false) :
    Carries s (powerOn s) (List.replicate s.cfgPwrClks.toNat (p.sentLevel true)) := by
  have hset : Carries s (clockLow (dataHigh s)) [] := (dataHigh_carries s).trans (clockLow_carries _)
  have hcycles := hset.trans (clockCycles_carries s.cfgPwrClks (((clockLow_env _).trans (dataHigh_env s)).trans h) hp)
  have hfinish : Carries (clockCycles s.cfgPwrClks (clockLow (dataHigh s))) (powerOn s) [] := .of_trace rfl
  simpa using hcycles.trans hfinish

/-- Settles O46: the trace and the frame of POWERON; its signatures and its wire from a data line that floats
(`powerOn_signatures`, `powerOn_carries`). -/
theorem powerOnPrimesTheDevice : Obligations.PowerOnPrimesTheDevice := by
  refine ⟨rfl, fun s => ?_⟩
  have htokens := powerOn_tokens s
  obtain ⟨hall, hpins⟩ := tracePowerOn_length s.cfgPwrClks.toNat
  refine ⟨powerOn s, rfl, htokens, rfl, cycleLoop_cyc _ _ rfl, clockCycles_dirClock _ _, cycleLoop_dirData _ _, ?_,
    ?_, powerOn_frame s, (powerOn_frame s).bufRead, fun p ps henv hclock hdata hfloats => ?_⟩
  · rw [State.pinTrace_of_tokens htokens, List.length_append, hpins, Nat.add_assoc]
  · rw [(runs_powerOn s).now_of_tokens htokens, hall, Nat.add_assoc]
  · obtain ⟨hstarts, hstops⟩ := (powerOn_signatures henv hfloats).count_eq
    refine ⟨hstarts, hstops, ?_⟩
    rw [(powerOn_carries henv hclock).wire_newEvents, EnvPhase.sentLevel_true, hdata]
    rfl

end Sys2Proof.Machine
end

section
/-! SUPPORT. SENDCOMMAND and SENDDATA (spec/45_frame_operations.md): what the loop over the bytes and the loop over the
attempts can do, and from these the retry law, with a device that never acknowledges and one that always does. -/

namespace Sys2Proof.Machine

/-! What the frames of the two loops leave alone. -/

theorem linesOnly.ackcnt {s t : State} (h : linesOnly s t) : t.ackcnt = s.ackcnt := by
  obtain ⟨_, _, _, _, rfl⟩ := h
  rfl

theorem dataOnly.command {s t : State} (h : dataOnly s t) : commandOnly s t := by
  obtain ⟨_, _, _, _, _, _, _, _, _, _, _, _, _, rfl⟩ := h
  exact ⟨_, _, _, _, _, _, _, _, _, _, _, _, _, _, rfl⟩

theorem dataOnly.trycnt {s t : State} (h : dataOnly s t) : t.trycnt = s.trycnt := by
  obtain ⟨_, _, _, _, _, _, _, _, _, _, _, _, _, rfl⟩ := h
  rfl

theorem commandOnly.buf {s t : State} (h : commandOnly s t) : t.buf = s.buf := by
  obtain ⟨_, _, _, _, _, _, _, _, _, _, _, _, _, _, rfl⟩ := h
  rfl

theorem commandOnly.cfgAckMax {s t : State} (h : commandOnly s t) : t.cfgAckMax = s.cfgAckMax := by
  obtain ⟨_, _, _, _, _, _, _, _, _, _, _, _, _, _, rfl⟩ := h
  rfl

theorem commandOnly.cfgStartMax {s t : State} (h : commandOnly s t) : t.cfgStartMax = s.cfgStartMax := by
  obtain ⟨_, _, _, _, _, _, _, _, _, _, _, _, _, _, rfl⟩ := h
  rfl

theorem commandOnly.bufRead {s t : State} (h : commandOnly s t) (j : Byte) : t.bufRead j = s.bufRead j := by
  obtain ⟨_, _, _, _, _, _, _, _, _, _, _, _, _, _, rfl⟩ := h
  rfl

/-! What a step of IDX and the write of RESULT leave alone. -/

@[simp] theorem State.nextIdx_cfgAckMax (s : State) : s.nextIdx.cfgAckMax = s.cfgAckMax := rfl

@[simp] theorem State.nextIdx_tokens (s : State) : s.nextIdx.tokens = s.tokens := rfl

@[simp] theorem State.nextIdx_ackcnt (s : State) : s.nextIdx.ackcnt = s.ackcnt := rfl

@[simp] theorem State.setIdx_bufRead (s : State) (v j : Byte) : (s.setIdx v).bufRead j = s.bufRead j := rfl

@[simp] theorem State.nextIdx_env (s : State) : s.nextIdx.env = s.env := rfl

@[simp] theorem finish_tokens (r : Result) (s : State) : (finish r s).tokens = s.tokens := rfl

@[simp] theorem finish_dirClock (r : Result) (s : State) : (finish r s).dirClock = s.dirClock := rfl

@[simp] theorem finish_dirData (r : Result) (s : State) : (finish r s).dirData = s.dirData := rfl

@[simp] theorem finish_len (r : Result) (s : State) : (finish r s).len = s.len := rfl

@[simp] theorem finish_idx (r : Result) (s : State) : (finish r s).idx = s.idx := rfl

@[simp] theorem finish_ackcnt (r : Result) (s : State) : (finish r s).ackcnt = s.ackcnt := rfl

@[simp] theorem finish_trycnt (r : Result) (s : State) : (finish r s).trycnt = s.trycnt := rfl

/-! The answer to a byte (R152). -/

theorem acked_iff (s : State) : s.acked = true ↔ s.ackcnt = 0 := beq_iff_eq

theorem acked_eq_false {s : State} {v : Byte} (hv : v ≠ 0) (h : s.ackcnt = v) : s.acked = false := by
  rwa [Bool.eq_false_iff, Ne, acked_iff, h]

/-- WRITEBYTE is acknowledged, with polls that end in a 0, or is not, with all its polls at 1 (R152). -/
theorem writeByte_answer (value : Byte) {s : State} (hne : s.cfgAckMax ≠ 0) :
    ∃ polls, (writeByte value s).tokens = s.tokens ++ traceWriteByte value polls ∧
      (((writeByte value s).acked = true ∧ AckedPolls s.cfgAckMax polls) ∨
        ((writeByte value s).acked = false ∧ FailedPolls s.cfgAckMax polls ∧
          (writeByte value s).ackcnt = s.cfgAckMax)) := by
  obtain ⟨polls, htokens, hcases, -⟩ := writeByte_outcome value s
  refine ⟨polls, htokens, ?_⟩
  rcases hcases with ⟨hpolls, hack, -⟩ | ⟨hpolls, hack, -⟩
  · exact .inl ⟨(acked_iff _).2 hack, hpolls⟩
  · exact .inr ⟨acked_eq_false hne hack, hpolls, hack⟩

/-! The loop over the bytes (R191, R195). -/

/-- What the WRITEBYTE of `BUF[IDX]` and the step of IDX each keep, the loop keeps. -/
theorem sendLoop_keeps {P : State → Prop} (hwrite : ∀ s, P s → P (writeByte s.byteAtIdx s))
    (hnext : ∀ s, P s → P s.nextIdx) (k : Nat) {s : State} (h : P s) : P (sendLoop k s).2 := by
  induction k generalizing s with
  | zero => exact h
  | succ k ih =>
    unfold sendLoop
    dsimp only
    split
    · exact ih (hnext _ (hwrite s h))
    · exact hwrite s h

theorem traceBytes_congr {s t : State} (h : ∀ j, t.bufRead j = s.bufRead j) (i : Nat) (polls : List (List Bit)) :
    traceBytes t i polls = traceBytes s i polls := by
  induction polls generalizing i with
  | nil => rfl
  | cons p ps ih => rw [traceBytes, traceBytes, h, ih]

/-- After an acknowledged byte the loop goes on with the next: IDX has moved on, and BUF is as before. -/
theorem sendLoop_of_acked (k : Nat) {i : Nat} {s : State} (hidx : s.idx = BitVec.ofNat 8 i)
    (hack : (writeByte s.byteAtIdx s).acked = true) :
    ∃ u, sendLoop (k + 1) s = sendLoop k u ∧ u.ackcnt = 0 ∧ u.idx = BitVec.ofNat 8 (i + 1) ∧
      u.cfgAckMax = s.cfgAckMax ∧ (∀ j, u.bufRead j = s.bufRead j) ∧
      u.tokens = (writeByte s.byteAtIdx s).tokens ∧ u.env = (writeByte s.byteAtIdx s).env := by
  have hframe := writeByte_frame s.byteAtIdx s
  refine ⟨(writeByte s.byteAtIdx s).nextIdx, if_pos hack, ?_, ?_, ?_, fun j => ?_, State.nextIdx_tokens _,
    State.nextIdx_env _⟩
  · rwa [State.nextIdx_ackcnt, ← acked_iff]
  · rw [State.nextIdx, State.setIdx_idx, hframe.idx, hidx]
    exact (BitVec.ofNat_add i 1).symm
  · rw [State.nextIdx_cfgAckMax, hframe.cfgAckMax]
  · rw [State.nextIdx_bufRead, hframe.bufRead]

theorem State.byteAtIdx_of_idx {s : State} {i : Nat} (h : s.idx = BitVec.ofNat 8 i) :
    s.byteAtIdx = s.bufRead (BitVec.ofNat 8 i) := by
  rw [State.byteAtIdx, h]

/-- All that one turn of the loop can do: its byte, of index `i`, is acknowledged and the loop goes on, or it is not and
the loop ends. -/
theorem sendLoop_succ_cases (k i : Nat) {s : State} (hidx : s.idx = BitVec.ofNat 8 i) (hne : s.cfgAckMax ≠ 0) :
    ∃ u polls, u.tokens = s.tokens ++ traceWriteByte (s.bufRead (BitVec.ofNat 8 i)) polls ∧
      ((sendLoop (k + 1) s = sendLoop k u ∧ AckedPolls s.cfgAckMax polls ∧ u.ackcnt = 0 ∧
          u.idx = BitVec.ofNat 8 (i + 1) ∧ u.cfgAckMax = s.cfgAckMax ∧ ∀ j, u.bufRead j = s.bufRead j) ∨
        (sendLoop (k + 1) s = (false, u) ∧ FailedPolls s.cfgAckMax polls ∧ u.ackcnt = s.cfgAckMax ∧
          u.idx = BitVec.ofNat 8 i)) := by
  obtain ⟨polls, htokens, ⟨hack, hpolls⟩ | ⟨hack, hpolls, hcnt⟩⟩ := writeByte_answer s.byteAtIdx hne
  · obtain ⟨u, hloop, hzero, hnext, hmax, hbuf, hnew, -⟩ := sendLoop_of_acked k hidx hack
    refine ⟨u, polls, ?_, .inl ⟨hloop, hpolls, hzero, hnext, hmax, hbuf⟩⟩
    rw [hnew, htokens, State.byteAtIdx_of_idx hidx]
  · refine ⟨writeByte s.byteAtIdx s, polls, ?_, .inr ⟨if_neg (Bool.eq_false_iff.1 hack), hpolls, hcnt,
      (writeByte_frame s.byteAtIdx s).idx.trans hidx⟩⟩
    rw [htokens, State.byteAtIdx_of_idx hidx]

/-- All that the loop over `k` bytes from index `i` can do: every byte is acknowledged, or those before a byte that is
not. -/
theorem sendLoop_spec (k i : Nat) {s : State} (hidx : s.idx = BitVec.ofNat 8 i) (hne : s.cfgAckMax ≠ 0) :
    ∃ polls, (∀ p ∈ polls, AckedPolls s.cfgAckMax p) ∧
      (sendLoop k s).2.idx = BitVec.ofNat 8 (i + polls.length) ∧
      (((sendLoop k s).1 = true ∧ polls.length = k ∧ (s.ackcnt = 0 → (sendLoop k s).2.ackcnt = 0) ∧
          (sendLoop k s).2.tokens = s.tokens ++ traceBytes s i polls) ∨
        ((sendLoop k s).1 = false ∧ polls.length < k ∧ (sendLoop k s).2.ackcnt = s.cfgAckMax ∧
          ∃ bad, FailedPolls s.cfgAckMax bad ∧
            (sendLoop k s).2.tokens = s.tokens ++ traceBytes s i (polls ++ [bad]))) := by
  induction k generalizing i s with
  | zero => exact ⟨[], by simp, hidx, .inl ⟨rfl, rfl, id, (List.append_nil _).symm⟩⟩
  | succ k ih =>
    obtain ⟨u, q, htokens, ⟨hloop, hq, hack, hidx', hmax, hbuf⟩ | ⟨hloop, hq, hcnt, hidx'⟩⟩ :=
      sendLoop_succ_cases k i hidx hne
    · obtain ⟨polls, hpolls, hend, hcases⟩ := ih (i + 1) hidx' (hmax ▸ hne)
      simp only [hmax, htokens, traceBytes_congr hbuf, List.append_assoc] at hpolls hcases
      rw [hloop]
      refine ⟨q :: polls, List.forall_mem_cons.2 ⟨hq, hpolls⟩, ?_, ?_⟩
      · rw [hend, List.length_cons, Nat.add_assoc, Nat.add_comm 1]
      · rcases hcases with ⟨hok, hlen, hzero, hnew⟩ | ⟨hok, hlen, hcnt, bad, hbad, hnew⟩
        · exact .inl ⟨hok, congrArg (· + 1) hlen, fun _ => hzero hack, hnew⟩
        · exact .inr ⟨hok, Nat.succ_lt_succ hlen, hcnt, bad, hbad, hnew⟩
    · rw [hloop]
      refine ⟨[], by simp, hidx', .inr ⟨rfl, k.succ_pos, hcnt, q, hq, htokens.trans ?_⟩⟩
      exact congrArg (s.tokens ++ ·) (List.append_nil _).symm

/-- From floating lines the loop leaves both floating, since WRITEBYTE does. -/
theorem sendLoop_lines (k : Nat) {s : State} (h : s.dirClock = .input ∧ s.dirData = .input) :
    (sendLoop k s).2.dirClock = .input ∧ (sendLoop k s).2.dirData = .input :=
  sendLoop_keeps (P := fun t => t.dirClock = .input ∧ t.dirData = .input) (fun s _ => writeByte_lines _ s)
    (fun _ => id) k h

theorem sendLoop_len (k : Nat) (s : State) : (sendLoop k s).2.len = s.len :=
  sendLoop_keeps (P := fun t => t.len = s.len) (fun t => (writeByte_frame _ t).len.trans) (fun _ => id) k rfl

/-! SENDDATA (R195, R196). -/

theorem sendData_frame (len : Byte) (s : State) : dataOnly s (sendData len s) := by
  have hset : dataOnly s ((s.setLen len).setIdx 0) := ⟨_, _, _, _, _, _, _, _, _, _, _, _, _, rfl⟩
  rw [sendData_eq]
  have hloop := hset.trans (sendLoop_frame len.toNat _)
  exact (hloop.trans (stop_frame _).bits.write.data).trans ⟨_, _, _, _, _, _, _, _, _, _, _, _, _, rfl⟩

/-- Settles O51: the loop over the bytes from IDX 0 (`sendLoop_spec`), then STOP whichever way it ended. -/
theorem sendDataAlwaysStops : Obligations.SendDataAlwaysStops := by
  intro len s hne
  have hframe := sendData_frame len s
  obtain ⟨polls, hpolls, hidx, hcases⟩ := sendLoop_spec len.toNat 0 (s := (s.setLen len).setIdx 0) rfl hne
  have hlen := sendLoop_len len.toNat ((s.setLen len).setIdx 0)
  simp only [traceBytes_congr (t := (s.setLen len).setIdx 0) (s := s) fun _ => rfl, State.tokens_setIdx,
    State.tokens_setLen, State.setIdx_cfgAckMax, State.setLen_cfgAckMax, Nat.zero_add] at hpolls hcases hidx
  refine ⟨packWord_eq_add 0x51 len, sendData len s, rfl, ?_⟩
  rw [sendData_eq] at hframe ⊢
  dsimp only at hframe ⊢
  generalize sendLoop len.toNat ((s.setLen len).setIdx 0) = v at *
  have hstop := stop_frame v.2
  refine ⟨by rw [finish_dirClock, stop_dirClock], by rw [finish_dirData, stop_dirData],
    by rw [finish_len, hstop.len, hlen, State.setIdx_len, State.setLen_len], hframe, hframe.command.bufRead, ?_⟩
  rw [finish_result, finish_tokens, stop_tokens, finish_idx, finish_ackcnt, hstop.idx, hstop.ackcnt, hidx]
  rcases hcases with ⟨hok, hcount, -, hnew⟩ | ⟨hok, hcount, hack, bad, hbad, hnew⟩
  · exact .inl ⟨if_pos hok, by rw [hcount, BitVec.ofNat_toNat, BitVec.setWidth_eq], polls, hcount, hpolls,
      by rw [hnew]⟩
  · have hsent : (BitVec.ofNat 8 polls.length).toNat = polls.length := by bv_omega
    exact .inr ⟨if_neg (Bool.eq_false_iff.1 hok), by rwa [BitVec.lt_def, hsent], hack, polls, bad, hsent.symm,
      hpolls, hbad, by rw [hnew]⟩

/-! The loop over the attempts (R191, R192). -/

/-- An attempt that is not acknowledged, counted in TRYCNT. -/
def failFirst (s : State) : State := (tryFirst s).setTrycnt ((tryFirst s).trycnt + 1)

theorem failFirst_frame (s : State) : commandOnly s (failFirst s) :=
  (tryFirst_frame s).command.trans ⟨_, _, _, _, _, _, _, _, _, _, _, _, _, _, rfl⟩

theorem failFirst_trycnt (s : State) : (failFirst s).trycnt = s.trycnt + 1 := by
  rw [failFirst, State.setTrycnt_trycnt, (tryFirst_frame s).trycnt]

theorem failFirst_ackcnt (s : State) : (failFirst s).ackcnt = (tryFirst s).ackcnt := rfl

theorem failFirst_tokens (s : State) : (failFirst s).tokens = (tryFirst s).tokens := rfl

theorem tryFirst_lines (s : State) : (tryFirst s).dirClock = .input ∧ (tryFirst s).dirData = .input :=
  writeByte_lines (start s).firstByte (start s)

theorem failFirst_lines (s : State) : (failFirst s).dirClock = .input ∧ (failFirst s).dirData = .input := by
  rw [failFirst, State.setTrycnt_dirClock, State.setTrycnt_dirData]
  exact tryFirst_lines s

/-- The first byte is that of BUF before START, which leaves BUF alone. -/
theorem tryFirst_eq (s : State) : tryFirst s = writeByte (s.bufRead 0) (start s) :=
  congrArg (writeByte · (start s)) ((start_frame s).bits.bufRead 0)

/-- All that an attempt can do: START, and the first byte acknowledged or not. -/
theorem tryFirst_answer {s : State} (hne : s.cfgAckMax ≠ 0) :
    ∃ polls, (tryFirst s).tokens = s.tokens ++ (traceStart ++ traceWriteByte (s.bufRead 0) polls) ∧
      (((tryFirst s).acked = true ∧ AckedPolls s.cfgAckMax polls) ∨
        ((tryFirst s).acked = false ∧ FailedPolls s.cfgAckMax polls ∧ (tryFirst s).ackcnt = s.cfgAckMax)) := by
  have hmax := (start_frame s).cfgAckMax
  obtain ⟨polls, htokens, hcases⟩ := writeByte_answer (s.bufRead 0) (s := start s) (hmax ▸ hne)
  rw [hmax, ← tryFirst_eq] at hcases
  rw [← tryFirst_eq, start_tokens, List.append_assoc] at htokens
  exact ⟨polls, htokens, hcases⟩

theorem tryLoop_acked (k : Nat) {s : State} (h : (tryFirst s).acked = true) : tryLoop (k + 1) s = tryFirst s := if_pos h

theorem tryLoop_of_unacked (k : Nat) {s : State} (h : (tryFirst s).acked = false) :
    tryLoop (k + 1) s =
      if (failFirst s).trycnt = (failFirst s).cfgStartMax then failFirst s else tryLoop k (failFirst s) :=
  if_neg (Bool.eq_false_iff.1 h)

/-- An attempt that fails leaves the attempts below the bound, which TRYCNT meets with the last of them. -/
theorem tryLoop_unacked {k : Nat} {s : State} (h : (tryFirst s).acked = false)
    (hk : s.trycnt.toNat + (k + 1) = s.cfgStartMax.toNat) : tryLoop (k + 1) s = tryLoop k (failFirst s) := by
  rw [tryLoop_of_unacked k h, failFirst_trycnt, (failFirst_frame s).cfgStartMax]
  split
  · obtain rfl : k = 0 := by bv_omega
    rfl
  · rfl

theorem traceFailedTries_succ (s : State) (n : Nat) {polls : List Bit} (h : FailedPolls s.cfgAckMax polls) :
    traceFailedTries s (n + 1) = traceStart ++ traceWriteByte (s.bufRead 0) polls ++ traceFailedTries s n := by
  obtain rfl : polls = _ := h
  simp only [traceFailedTries, List.replicate_succ, List.flatten_cons]

theorem traceFailedTries_congr {s t : State} (h : commandOnly s t) (n : Nat) :
    traceFailedTries t n = traceFailedTries s n := by
  rw [traceFailedTries, h.bufRead, h.cfgAckMax, traceFailedTries]

/-- All that the loop can do with `k` attempts left up to the bound: some fail and the next is acknowledged, or all of
them fail. What is asked for `k` = 0 is what the attempts before have left. -/
theorem tryLoop_spec (k : Nat) {s : State} (hk : s.trycnt.toNat + k = s.cfgStartMax.toNat) (hne : s.cfgAckMax ≠ 0)
    (hzero : k = 0 → s.ackcnt = s.cfgAckMax ∧ s.dirClock = .input ∧ s.dirData = .input) :
    ((tryLoop k s).dirClock = .input ∧ (tryLoop k s).dirData = .input) ∧
      (((tryLoop k s).ackcnt = 0 ∧ ∃ f polls, f < k ∧ (tryLoop k s).trycnt.toNat = s.trycnt.toNat + f ∧
          AckedPolls s.cfgAckMax polls ∧ (tryLoop k s).tokens =
            s.tokens ++ (traceFailedTries s f ++ (traceStart ++ traceWriteByte (s.bufRead 0) polls))) ∨
        ((tryLoop k s).ackcnt = s.cfgAckMax ∧ (tryLoop k s).trycnt = s.cfgStartMax ∧
          (tryLoop k s).tokens = s.tokens ++ traceFailedTries s k)) := by
  induction k generalizing s with
  | zero =>
    obtain ⟨hack, hlines⟩ := hzero rfl
    exact ⟨hlines, .inr ⟨hack, BitVec.eq_of_toNat_eq hk, (List.append_nil _).symm⟩⟩
  | succ k ih =>
    have hframe := tryFirst_frame s
    obtain ⟨polls, htokens, ⟨hack, hpolls⟩ | ⟨hack, hpolls, hcnt⟩⟩ := tryFirst_answer hne
    · rw [tryLoop_acked k hack]
      exact ⟨tryFirst_lines s, .inl ⟨(acked_iff _).1 hack, 0, polls, k.succ_pos, congrArg BitVec.toNat hframe.trycnt,
        hpolls, htokens⟩⟩
    · have hfail := failFirst_frame s
      have htry : (failFirst s).trycnt.toNat = s.trycnt.toNat + 1 := by rw [failFirst_trycnt]; bv_omega
      obtain ⟨hend, hcases⟩ := ih (s := failFirst s) (by rw [htry, hfail.cfgStartMax]; omega) (hfail.cfgAckMax ▸ hne)
        fun _ => ⟨by rw [failFirst_ackcnt, hcnt, hfail.cfgAckMax], failFirst_lines s⟩
      rw [tryLoop_unacked hack hk]
      simp only [hfail.cfgAckMax, hfail.cfgStartMax, hfail.bufRead, traceFailedTries_congr hfail,
        failFirst_tokens, htokens, htry] at hcases
      refine ⟨hend, ?_⟩
      rcases hcases with ⟨hz, f, q, hf, hcount, hq, ht⟩ | ⟨hmax, hcount, ht⟩
      · refine .inl ⟨hz, f + 1, q, Nat.succ_lt_succ hf, by omega, hq, ?_⟩
        rw [ht, traceFailedTries_succ s f hpolls]
        simp only [List.append_assoc]
      · refine .inr ⟨hmax, hcount, ?_⟩
        rw [ht, traceFailedTries_succ s k hpolls, List.append_assoc]

/-! SENDCOMMAND (R191, R192, R193). -/

/-- SENDCOMMAND up to the end of its attempts. -/
def commandTries (len : Byte) (s : State) : State :=
  tryLoop ((s.setLen len).setTrycnt 0).tryBound ((s.setLen len).setTrycnt 0)

/-- The bytes of SENDCOMMAND after the first. -/
def commandRest (len : Byte) (s : State) : Bool × State := sendLoop (len.toNat - 1) ((commandTries len s).setIdx 1)

theorem sendCommand_of_acked {len : Byte} {s : State} (h : (commandTries len s).acked = true) :
    sendCommand len s =
      finish (if (commandRest len s).1 then .success else .cmdByteFailure) (commandRest len s).2 := by
  rw [sendCommand_eq]
  exact if_pos h

theorem sendCommand_of_unacked {len : Byte} {s : State} (h : (commandTries len s).acked = false) :
    sendCommand len s = finish .startFailure (commandTries len s) := by
  rw [sendCommand_eq]
  exact if_neg (Bool.eq_false_iff.1 h)

theorem setLen_setTrycnt_frame (len count : Byte) (s : State) : commandOnly s ((s.setLen len).setTrycnt count) :=
  ⟨_, _, _, _, _, _, _, _, _, _, _, _, _, _, rfl⟩

theorem commandTries_frame (len : Byte) (s : State) : commandOnly s (commandTries len s) :=
  (setLen_setTrycnt_frame len 0 s).trans (tryLoop_frame _ _)

theorem commandRest_frame (len : Byte) (s : State) : commandOnly s (commandRest len s).2 := by
  have hset : commandOnly (commandTries len s) ((commandTries len s).setIdx 1) :=
    ⟨_, _, _, _, _, _, _, _, _, _, _, _, _, _, rfl⟩
  exact ((commandTries_frame len s).trans hset).trans (sendLoop_frame _ _).command

theorem sendCommand_frame (len : Byte) (s : State) : commandOnly s (sendCommand len s) := by
  have hfinish : ∀ (r : Result) (t : State), commandOnly t (finish r t) := fun _ _ =>
    ⟨_, _, _, _, _, _, _, _, _, _, _, _, _, _, rfl⟩
  cases hack : (commandTries len s).acked with
  | true =>
    rw [sendCommand_of_acked hack]
    exact (commandRest_frame len s).trans (hfinish _ _)
  | false =>
    rw [sendCommand_of_unacked hack]
    exact (commandTries_frame len s).trans (hfinish _ _)

theorem commandTries_len (len : Byte) (s : State) : (commandTries len s).len = len := by
  rw [commandTries, tryLoop_len, State.setTrycnt_len, State.setLen_len]

theorem commandRest_len (len : Byte) (s : State) : (commandRest len s).2.len = len := by
  rw [commandRest, sendLoop_len, State.setIdx_len, commandTries_len]

theorem commandRest_lines {len : Byte} {s : State}
    (h : (commandTries len s).dirClock = .input ∧ (commandTries len s).dirData = .input) :
    (commandRest len s).2.dirClock = .input ∧ (commandRest len s).2.dirData = .input :=
  sendLoop_lines _ (by rwa [State.setIdx_dirClock, State.setIdx_dirData])

theorem State.tryBound_eq {s : State} (h : s.cfgStartMax ≠ 0) : s.tryBound = s.cfgStartMax.toNat := by
  rw [State.tryBound]
  bv_omega

theorem commandTries_eq (len : Byte) {s : State} (h : s.cfgStartMax ≠ 0) :
    commandTries len s = tryLoop s.cfgStartMax.toNat ((s.setLen len).setTrycnt 0) := by
  rw [commandTries, State.tryBound_eq (s := (s.setLen len).setTrycnt 0) h]
  rfl

/-- All that the attempts can do, the bounds in their range. -/
theorem commandTries_spec (len : Byte) {s : State} (hne : s.cfgAckMax ≠ 0) (hstart : s.cfgStartMax ≠ 0) :
    ((commandTries len s).dirClock = .input ∧ (commandTries len s).dirData = .input) ∧
      (((commandTries len s).ackcnt = 0 ∧ ∃ f polls, f < s.cfgStartMax.toNat ∧
          (commandTries len s).trycnt.toNat = f ∧ AckedPolls s.cfgAckMax polls ∧ (commandTries len s).tokens =
            s.tokens ++ (traceFailedTries s f ++ (traceStart ++ traceWriteByte (s.bufRead 0) polls))) ∨
        ((commandTries len s).ackcnt = s.cfgAckMax ∧ (commandTries len s).trycnt = s.cfgStartMax ∧
          (commandTries len s).tokens = s.tokens ++ traceFailedTries s s.cfgStartMax.toNat)) := by
  have hset := setLen_setTrycnt_frame len 0 s
  have hzero : (0 : Byte).toNat = 0 := rfl
  have hspec := tryLoop_spec s.cfgStartMax.toNat (s := (s.setLen len).setTrycnt 0) (Nat.zero_add _) hne
    fun h => absurd (BitVec.eq_of_toNat_eq h) hstart
  simp only [hset.cfgAckMax, hset.cfgStartMax, hset.bufRead, traceFailedTries_congr hset, State.tokens_setTrycnt,
    State.tokens_setLen, State.setTrycnt_trycnt, hzero, Nat.zero_add] at hspec
  rwa [commandTries_eq len hstart]

/-- All that the bytes after the first can do, after an acknowledged attempt. -/
theorem commandRest_spec (len : Byte) {s : State} (hne : s.cfgAckMax ≠ 0) (hack : (commandTries len s).ackcnt = 0) :
    ∃ polls, (∀ p ∈ polls, AckedPolls s.cfgAckMax p) ∧
      (commandRest len s).2.idx = BitVec.ofNat 8 (1 + polls.length) ∧
      (commandRest len s).2.trycnt = (commandTries len s).trycnt ∧
      (((commandRest len s).1 = true ∧ polls.length = len.toNat - 1 ∧ (commandRest len s).2.ackcnt = 0 ∧
          (commandRest len s).2.tokens = (commandTries len s).tokens ++ traceBytes s 1 polls) ∨
        ((commandRest len s).1 = false ∧ polls.length < len.toNat - 1 ∧
          (commandRest len s).2.ackcnt = s.cfgAckMax ∧ ∃ bad, FailedPolls s.cfgAckMax bad ∧
            (commandRest len s).2.tokens = (commandTries len s).tokens ++ traceBytes s 1 (polls ++ [bad]))) := by
  have hframe := commandTries_frame len s
  obtain ⟨polls, hpolls, hidx, hcases⟩ := sendLoop_spec (len.toNat - 1) 1 (s := (commandTries len s).setIdx 1) rfl
    (by rwa [State.setIdx_cfgAckMax, hframe.cfgAckMax])
  have hbuf : ∀ j, ((commandTries len s).setIdx 1).bufRead j = s.bufRead j := fun j => by
    rw [State.setIdx_bufRead, hframe.bufRead]
  simp only [State.setIdx_cfgAckMax, hframe.cfgAckMax, State.setIdx_ackcnt, hack, true_implies, State.tokens_setIdx,
    traceBytes_congr hbuf] at hpolls hcases
  refine ⟨polls, hpolls, hidx, ?_, hcases⟩
  rw [commandRest, (sendLoop_frame _ _).trycnt, State.setIdx_trycnt]

/-- The first byte and the bytes from index 1 are the bytes from index 0. -/
theorem traceBytes_zero_cons (s : State) (p : List Bit) (ps : List (List Bit)) :
    traceBytes s 0 (p :: ps) = traceWriteByte (s.bufRead 0) p ++ traceBytes s 1 ps := rfl

/-- Settles O47: the attempts (`commandTries_spec`), and after an acknowledged one the remaining bytes
(`commandRest_spec`). -/
theorem sendCommandFollowsTheRetryLaw : Obligations.SendCommandFollowsTheRetryLaw := by
  intro len s hlen hne hstart
  have hframe := sendCommand_frame len s
  refine ⟨packWord_eq_add 0x50 len, sendCommand len s, if_neg hlen, ?_⟩
  obtain ⟨hlines, ⟨hack, f, p, hf, htry, hp, htokens⟩ | ⟨hack, htry, htokens⟩⟩ := commandTries_spec len hne hstart
  · obtain ⟨ps, hps, hidx, htry', hcases⟩ := commandRest_spec len hne hack
    have hpolls := List.forall_mem_cons.2 ⟨hp, hps⟩
    obtain ⟨hclock, hdata⟩ := commandRest_lines hlines
    rw [sendCommand_of_acked ((acked_iff _).2 hack)] at hframe ⊢
    refine ⟨by rw [finish_dirClock, hclock], by rw [finish_dirData, hdata], by rw [finish_len, commandRest_len], hframe,
      hframe.bufRead, ?_⟩
    rw [finish_result, finish_tokens, finish_idx, finish_ackcnt, finish_trycnt, hidx, htry', htry]
    rcases hcases with ⟨hok, hcount, hzero, hnew⟩ | ⟨hok, hcount, hmax, bad, hbad, hnew⟩
    · refine .inl ⟨if_pos hok, hzero, by bv_omega, f, p :: ps, hf, rfl, by rw [List.length_cons]; bv_omega, hpolls, ?_⟩
      rw [hnew, htokens, traceBytes_zero_cons]
      simp only [List.append_assoc]
    · have hsent : (BitVec.ofNat 8 (1 + ps.length)).toNat = 1 + ps.length := by bv_omega
      refine .inr (.inr ⟨if_neg (Bool.eq_false_iff.1 hok), hmax, by omega, by bv_omega, f, p :: ps, bad, hf, rfl,
        by rw [hsent, List.length_cons, Nat.add_comm], hpolls, hbad, ?_⟩)
      rw [hnew, htokens, List.cons_append, traceBytes_zero_cons]
      simp only [List.append_assoc]
  · rw [sendCommand_of_unacked (acked_eq_false hne hack)] at hframe ⊢
    refine ⟨by rw [finish_dirClock, hlines.1], by rw [finish_dirData, hlines.2], by rw [finish_len, commandTries_len],
      hframe, hframe.bufRead, .inr (.inl ?_)⟩
    rw [finish_result, finish_ackcnt, finish_trycnt, finish_tokens]
    exact ⟨rfl, hack, htry, htokens⟩

/-! A device as the script presents it (log entry 7): one that never acknowledges, and one that always does. -/

/-- An attempt of the polls, as the script's next stretch answers it. -/
theorem pollLoop_succ_of_scripted (k : Nat) {s : State} {p : EnvPhase} {ps : List EnvPhase} (h : s.env = p :: ps) :
    pollLoop (k + 1) s =
      if p.dataLow then (readDataBit s).setAckcnt 0 else pollLoop k ((readDataBit s).setPollcnt (s.pollcnt + 1)) := by
  rw [pollLoop, State.readLow, readDataBit_scripted h, (readDataBit_frame s).pollcnt]
  cases p.dataLow <;> rfl

theorem pollLoop_absent (k : Nat) {s : State} (hlen : k ≤ s.env.length) (habsent : ∀ p ∈ s.env, p.dataLow = false) :
    (pollLoop k s).ackcnt = s.pollcnt + BitVec.ofNat 8 k ∧ (pollLoop k s).env = s.env.drop k := by
  induction k generalizing s with
  | zero => exact ⟨(BitVec.add_zero _).symm, rfl⟩
  | succ k ih =>
    obtain ⟨p, ps, henv⟩ : ∃ p ps, s.env = p :: ps := List.exists_cons_of_length_pos (by omega)
    rw [henv] at hlen habsent
    obtain ⟨hp, hps⟩ := List.forall_mem_cons.1 habsent
    have htail : ((readDataBit s).setPollcnt (s.pollcnt + 1)).env = ps := by simp [henv]
    obtain ⟨hack, hrest⟩ := ih (by rw [htail]; simpa using hlen) (by rwa [htail])
    rw [pollLoop_succ_of_scripted k henv, hp, if_neg Bool.false_ne_true, hack, hrest, htail, henv]
    refine ⟨?_, rfl⟩
    rw [State.setPollcnt_pollcnt]
    bv_omega

/-- No answer of an absent device acknowledges a byte, and each of the polls costs an entry of the script. -/
theorem writeByte_absent (value : Byte) {s : State} (hlen : s.cfgAckMax.toNat ≤ s.env.length)
    (habsent : ∀ p ∈ s.env, p.dataLow = false) :
    (writeByte value s).ackcnt = s.cfgAckMax ∧ (writeByte value s).env = s.env.drop s.cfgAckMax.toNat := by
  obtain ⟨u, hpolls, -, hpollcnt, -, -, -, -, henv, -⟩ := writeByte_polls value s
  obtain ⟨hack, hrest⟩ := pollLoop_absent s.cfgAckMax.toNat (s := u) (by rwa [henv]) (by rwa [henv])
  rw [hpolls, hack, hrest, hpollcnt, henv]
  simp

theorem failFirst_absent {s : State} (hlen : s.cfgAckMax.toNat ≤ s.env.length)
    (habsent : ∀ p ∈ s.env, p.dataLow = false) :
    (failFirst s).ackcnt = s.cfgAckMax ∧ (failFirst s).env = s.env.drop s.cfgAckMax.toNat := by
  have hstart := start_frame s
  have hwrite := writeByte_absent (s.bufRead 0) (s := start s)
  rw [hstart.cfgAckMax, hstart.env, ← tryFirst_eq] at hwrite
  exact hwrite hlen habsent

/-- With an absent device all the attempts up to the bound fail. -/
theorem tryLoop_absent (k : Nat) {s : State} (hk : s.trycnt.toNat + k = s.cfgStartMax.toNat) (hne : s.cfgAckMax ≠ 0)
    (hzero : k = 0 → s.ackcnt = s.cfgAckMax) (hlen : k * s.cfgAckMax.toNat ≤ s.env.length)
    (habsent : ∀ p ∈ s.env, p.dataLow = false) :
    (tryLoop k s).ackcnt = s.cfgAckMax ∧ (tryLoop k s).env = s.env.drop (k * s.cfgAckMax.toNat) := by
  induction k generalizing s with
  | zero => exact ⟨hzero rfl, by rw [Nat.zero_mul]; rfl⟩
  | succ k ih =>
    rw [Nat.succ_mul] at hlen ⊢
    have hfail := failFirst_frame s
    obtain ⟨hack, hrest⟩ := failFirst_absent (by omega) habsent
    have hloop := ih (s := failFirst s) (by rw [failFirst_trycnt, hfail.cfgStartMax]; bv_omega)
      (by rwa [hfail.cfgAckMax]) (fun _ => by rw [hack, hfail.cfgAckMax])
      (by rw [hrest, hfail.cfgAckMax, List.length_drop]; omega)
      (by rw [hrest]; exact fun p hp => habsent p (List.mem_of_mem_drop hp))
    rw [hfail.cfgAckMax, hrest, List.drop_drop, Nat.add_comm] at hloop
    rwa [tryLoop_unacked (acked_eq_false hne hack) hk]

/-- Settles O49: no attempt is acknowledged (`tryLoop_absent`), so that all of them fail (`commandTries_spec`). -/
theorem absentDeviceFailsTheStart : Obligations.AbsentDeviceFailsTheStart := by
  intro len s hlen hne hstart hscript habsent
  have htries := tryLoop_absent s.cfgStartMax.toNat (s := (s.setLen len).setTrycnt 0) (Nat.zero_add _) hne
    (fun h => absurd (BitVec.eq_of_toNat_eq h) hstart) hscript habsent
  rw [← commandTries_eq len hstart] at htries
  obtain ⟨hack, henv⟩ := htries
  obtain ⟨-, ⟨hzero, -⟩ | ⟨-, -, htokens⟩⟩ := commandTries_spec len hne hstart
  · exact absurd (hack.symm.trans hzero) hne
  · refine ⟨sendCommand len s, if_neg hlen, ?_⟩
    rw [sendCommand_of_unacked (acked_eq_false hne hack), finish_result, finish_tokens, finish_env]
    exact ⟨rfl, htokens, henv⟩

/-- A willing device acknowledges a byte at the first poll. -/
theorem writeByte_willing (value : Byte) {s : State} (hne : s.cfgAckMax ≠ 0) {p : EnvPhase} {ps : List EnvPhase}
    (h : s.env = p :: ps) (hp : p.dataLow = true) :
    (writeByte value s).acked = true ∧ (writeByte value s).env = ps ∧
      (writeByte value s).tokens = s.tokens ++ traceWriteByte value [0] := by
  obtain ⟨u, hpolls, htokens, -, -, -, -, -, henv, -⟩ := writeByte_polls value s
  obtain ⟨k, hk⟩ := Nat.exists_eq_add_one_of_ne_zero (show s.cfgAckMax.toNat ≠ 0 by bv_omega)
  rw [hpolls, hk, pollLoop_succ_of_scripted k (henv.trans h), hp, if_pos rfl, acked_iff, State.setAckcnt_ackcnt,
    State.setAckcnt_env, State.tokens_setAckcnt, readDataBit_env, readDataBit_tokens,
    readDataBit_scripted (henv.trans h), hp, if_pos rfl, henv, h, htokens, traceWriteByte]
  simp

/-- A willing device acknowledges every byte of the loop. -/
theorem sendLoop_willing (k i : Nat) {s : State} (hidx : s.idx = BitVec.ofNat 8 i) (hne : s.cfgAckMax ≠ 0)
    (hlen : k ≤ s.env.length) (hwilling : ∀ p ∈ s.env, p.dataLow = true) :
    (sendLoop k s).1 = true ∧
      (sendLoop k s).2.tokens = s.tokens ++ traceBytes s i (List.replicate k [0]) := by
  induction k generalizing i s with
  | zero => exact ⟨rfl, (List.append_nil _).symm⟩
  | succ k ih =>
    obtain ⟨p, ps, henv⟩ : ∃ p ps, s.env = p :: ps := List.exists_cons_of_length_pos (by omega)
    rw [henv] at hlen hwilling
    obtain ⟨hp, hps⟩ := List.forall_mem_cons.1 hwilling
    obtain ⟨hack, hrest, htokens⟩ := writeByte_willing s.byteAtIdx hne henv hp
    obtain ⟨u, hloop, -, hnext, hmax, hbuf, hnew, henv'⟩ := sendLoop_of_acked k hidx hack
    rw [hrest] at henv'
    obtain ⟨hok, hend⟩ := ih (i + 1) hnext (hmax ▸ hne) (by rw [henv']; exact Nat.le_of_succ_le_succ hlen) (henv' ▸ hps)
    rw [hloop, hend, hnew, htokens, traceBytes_congr hbuf, State.byteAtIdx_of_idx hidx, List.append_assoc]
    exact ⟨hok, rfl⟩

/-- A willing device acknowledges the first attempt. -/
theorem tryFirst_willing {s : State} (hne : s.cfgAckMax ≠ 0) {p : EnvPhase} {ps : List EnvPhase}
    (h : s.env = p :: ps) (hp : p.dataLow = true) :
    (tryFirst s).acked = true ∧ (tryFirst s).env = ps ∧
      (tryFirst s).tokens = s.tokens ++ (traceStart ++ traceWriteByte (s.bufRead 0) [0]) := by
  have hstart := start_frame s
  rw [tryFirst_eq, ← List.append_assoc, ← start_tokens]
  exact writeByte_willing _ (by rwa [hstart.cfgAckMax]) (hstart.env.trans h) hp

theorem commandTries_willing (len : Byte) {s : State} (hne : s.cfgAckMax ≠ 0) {p : EnvPhase} {ps : List EnvPhase}
    (h : s.env = p :: ps) (hp : p.dataLow = true) :
    (commandTries len s).acked = true ∧ (commandTries len s).trycnt = 0 ∧ (commandTries len s).env = ps ∧
      (commandTries len s).tokens = s.tokens ++ (traceStart ++ traceWriteByte (s.bufRead 0) [0]) := by
  obtain ⟨hack, hrest, htokens⟩ := tryFirst_willing (s := (s.setLen len).setTrycnt 0) hne h hp
  have htry := (tryFirst_frame ((s.setLen len).setTrycnt 0)).trycnt
  rw [commandTries, State.tryBound, tryLoop_acked _ hack]
  exact ⟨hack, htry, hrest, htokens⟩

/-- Settles O50: the first attempt is acknowledged, and so is every byte after it (`sendLoop_willing`). -/
theorem willingDeviceTakesTheCommand : Obligations.WillingDeviceTakesTheCommand := by
  intro len s hlen hne hscript hwilling
  obtain ⟨p, ps, henv⟩ : ∃ p ps, s.env = p :: ps := List.exists_cons_of_length_pos (by bv_omega)
  rw [henv] at hscript hwilling
  obtain ⟨hp, hps⟩ := List.forall_mem_cons.1 hwilling
  obtain ⟨hack, htry, hrest, htokens⟩ := commandTries_willing len hne henv hp
  have hframe := commandTries_frame len s
  have hbuf : ∀ j, ((commandTries len s).setIdx 1).bufRead j = s.bufRead j := fun j => by
    rw [State.setIdx_bufRead, hframe.bufRead]
  obtain ⟨k, hk⟩ := Nat.exists_eq_add_one_of_ne_zero (show len.toNat ≠ 0 by bv_omega)
  have hsent := sendLoop_willing k 1 (s := (commandTries len s).setIdx 1) rfl
    (by rwa [State.setIdx_cfgAckMax, hframe.cfgAckMax])
    (by rw [State.setIdx_env, hrest]; simpa [hk] using hscript) (by rwa [State.setIdx_env, hrest])
  have hrestTry := (sendLoop_frame k ((commandTries len s).setIdx 1)).trycnt
  rw [State.tokens_setIdx, traceBytes_congr hbuf, htokens] at hsent
  refine ⟨sendCommand len s, if_neg hlen, ?_⟩
  rw [sendCommand_of_acked hack, commandRest, finish_result, finish_trycnt, finish_tokens, hk, Nat.add_sub_cancel,
    hrestTry, State.setIdx_trycnt, hsent.2, List.replicate_succ, traceBytes_zero_cons]
  exact ⟨if_pos hsent.1, htry, by simp only [List.append_assoc]⟩

end Sys2Proof.Machine
end

section
/-! SUPPORT. RECEIVEDATA (spec/45_frame_operations.md): the trace of its byte loop and what it leaves in BUF, whatever
the samples are. -/

namespace Sys2Proof.Machine

/-- READBYTE takes eight samples and returns the byte they make (R155). -/
theorem readByte_samples (s : State) :
    ∃ bits : List Bit, bits.length = 8 ∧ (readByte s).tokens = s.tokens ++ traceReadByte bits ∧
      (readByte s).rxdata = byteOfBits bits := by
  obtain ⟨-, hread⟩ := readByteAssemblesEightSamples
  obtain ⟨t, bits, hexec, hlength, htokens, hrx, -⟩ := hread s
  cases hexec
  exact ⟨bits, hlength, htokens, hrx⟩

@[simp] theorem State.storeAtIdx_tokens (s : State) (v : Byte) : (s.storeAtIdx v).tokens = s.tokens := rfl

theorem answerByte_tokens (s : State) :
    (answerByte s).tokens = s.tokens ++ if s.idx + 1 ≠ s.len then traceSendAck else traceSendNak := by
  unfold answerByte
  split
  · exact sendAck_tokens s
  · exact sendNak_tokens s

theorem receiveOne_len (s : State) : (receiveOne s).len = s.len := by
  rw [receiveOne, State.nextIdx, State.setIdx_len, (answerByte_frame _).len, State.storeAtIdx_len,
    (readByte_frame s).len]

/-- A byte is answered with NAK exactly if it is the last (R172, R197). -/
theorem receiveOne_tokens (s : State) :
    (receiveOne s).tokens = (readByte s).tokens ++ if s.idx + 1 ≠ s.len then traceSendAck else traceSendNak := by
  have hframe := readByte_frame s
  rw [receiveOne, State.nextIdx_tokens, answerByte_tokens, State.storeAtIdx_tokens, State.storeAtIdx_idx,
    State.storeAtIdx_len, hframe.idx, hframe.len]

theorem traceReads_cons (b : List Bit) (bs : List (List Bit)) :
    traceReads (b :: bs) = traceReadByte b ++ ((if bs ≠ [] then traceSendAck else traceSendNak) ++ traceReads bs) := by
  cases bs with
  | nil => simp [traceReads]
  | cons c cs => simp [traceReads]

/-- All that the loop over the `k` bytes from IDX up to LEN does: each is read, stored at its index and answered, and
the bytes below IDX and from LEN up are as before. -/
theorem receiveLoop_spec (k : Nat) {s : State} (hk : s.idx.toNat + k = s.len.toNat) :
    ∃ bits : List (List Bit), bits.length = k ∧ (∀ b ∈ bits, b.length = 8) ∧
      (receiveLoop k s).tokens = s.tokens ++ traceReads bits ∧ (receiveLoop k s).idx = s.len ∧
      (receiveLoop k s).len = s.len ∧
      (∀ j : Byte, j < s.idx ∨ s.len ≤ j → (receiveLoop k s).bufRead j = s.bufRead j) ∧
      ∀ (j : Byte) (b : List Bit), s.idx ≤ j → bits[j.toNat - s.idx.toNat]? = some b →
        (receiveLoop k s).bufRead j = byteOfBits b := by
  induction k generalizing s with
  | zero => exact ⟨[], rfl, by simp, (List.append_nil _).symm, BitVec.eq_of_toNat_eq hk, rfl, fun _ _ => rfl, by simp⟩
  | succ k ih =>
    obtain ⟨b, hb, htokens, hrx⟩ := readByte_samples s
    have hread := receiveOne_bufRead s
    have hidx : (receiveOne s).idx.toNat = s.idx.toNat + 1 := by rw [receiveOne_idx]; bv_omega
    have hlen := receiveOne_len s
    obtain ⟨bs, hcount, height, hnew, hend, hlen', hkept, hstored⟩ := ih (s := receiveOne s) (by rw [hidx, hlen]; omega)
    rw [receiveLoop_succ]
    have hlast : s.idx + 1 ≠ s.len ↔ bs ≠ [] := by
      rw [← List.length_pos_iff, hcount]
      bv_omega
    refine ⟨b :: bs, congrArg (· + 1) hcount, List.forall_mem_cons.2 ⟨hb, height⟩, ?_, hend.trans hlen,
      hlen'.trans hlen, fun j hj => ?_, fun j v hj hv => ?_⟩
    · rw [hnew, receiveOne_tokens, htokens, traceReads_cons]
      simp only [hlast, List.append_assoc]
    · rw [hkept j (by rw [hlen]; bv_omega), hread, if_neg (by bv_omega)]
    · by_cases hji : j = s.idx
      · obtain rfl : b = v := by simpa [hji] using hv
        rw [hkept j (by bv_omega), hread, if_pos hji, hrx]
      · have hsub : j.toNat - s.idx.toNat = j.toNat - (receiveOne s).idx.toNat + 1 := by bv_omega
        refine hstored j v (by bv_omega) ?_
        rwa [hsub, List.getElem?_cons_succ] at hv

/-- Each byte read takes 41 pin actions, and its answer four. -/
theorem traceReads_pins_length (bits : List (List Bit)) (h : ∀ b ∈ bits, b.length = 8) :
    ((traceReads bits).filter Token.isPin).length = 45 * bits.length := by
  induction bits with
  | nil => rfl
  | cons b bs ih =>
    obtain ⟨hb, hbs⟩ := List.forall_mem_cons.1 h
    have hanswer : ((if bs ≠ [] then traceSendAck else traceSendNak).filter Token.isPin).length = 4 := by
      split <;> rfl
    rw [traceReads_cons, List.filter_append, List.filter_append, List.length_append, List.length_append, hanswer,
      (traceReadByte_length b).2, hb, ih hbs, List.length_cons]
    omega

theorem receiveData_frame (len : Byte) (s : State) : receiveOnly s (receiveData len s) := by
  have hset : receiveOnly s ((s.setLen len).setIdx 0) := ⟨_, _, _, _, _, _, _, _, _, _, _, _, rfl⟩
  have hloop := hset.trans (receiveLoop_frame len.toNat _)
  exact (hloop.trans (stop_frame _).bits.read.receive).trans ⟨_, _, _, _, _, _, _, _, _, _, _, _, rfl⟩

/-- Settles O52: the byte loop from IDX 0 (`receiveLoop_spec`), then STOP. -/
theorem receiveDataFillsTheBuffer : Obligations.ReceiveDataFillsTheBuffer := by
  intro len s
  have hframe := receiveData_frame len s
  obtain ⟨bits, hcount, height, hnew, hidx, hlen, hkept, hstored⟩ :=
    receiveLoop_spec len.toNat (s := (s.setLen len).setIdx 0) (Nat.zero_add _)
  have hstop := stop_frame (receiveLoop len.toNat ((s.setLen len).setIdx 0))
  have htokens : (receiveData len s).tokens = s.tokens ++ (traceReads bits ++ traceStop) := by
    rw [receiveData, finish_tokens, stop_tokens, hnew, State.tokens_setIdx, State.tokens_setLen, List.append_assoc]
  have hpins : (traceStop.filter Token.isPin).length = 4 := rfl
  have hbuf : ∀ j, (receiveData len s).bufRead j = (receiveLoop len.toNat ((s.setLen len).setIdx 0)).bufRead j :=
    fun j => by rw [receiveData, finish_bufRead, hstop.bits.bufRead]
  refine ⟨packWord_eq_add 0x52 len, receiveData len s, bits, rfl, rfl, rfl, rfl, ?_, ?_, hcount, height, ?_,
    fun j b hb => ?_, fun j hj => ?_, ?_, hframe⟩
  · rw [receiveData, finish_len, hstop.len, hlen, State.setIdx_len, State.setLen_len]
  · rw [receiveData, finish_idx, hstop.idx, hidx, State.setIdx_len, State.setLen_len]
  · rw [htokens, List.append_assoc]
  · rw [hbuf]
    exact hstored j b (by rw [State.setIdx_idx]; bv_omega) hb
  · rw [hbuf, hkept j (.inr hj)]
    rfl
  · rw [State.pinTrace_of_tokens htokens, List.filter_append, List.length_append, List.length_append, hpins,
      traceReads_pins_length bits height, hcount, Nat.add_assoc]

end Sys2Proof.Machine
end

section
/-! SUPPORT. WAITCLOCK (spec/45_frame_operations.md): what its loop adds to the trace, and the signatures and the clock
edges of an iteration. -/

namespace Sys2Proof.Machine

/-- One iteration of WAITCLOCK, but for the count: START, 15 bare cycles, STOP (R200). -/
def waitOne (s : State) : State := stop (clockCycles Config.waitClocks (start s))

theorem waitLoop_succ (k : Nat) (s : State) :
    waitLoop (k + 1) s = waitLoop k ((waitOne s).setLoopc ((waitOne s).loopc - 1)) := rfl

theorem cyclesOnly.env {s t : State} (h : cyclesOnly s t) : t.env = s.env := by
  obtain ⟨_, _, _, _, _, rfl⟩ := h
  rfl

theorem waitOne_frame (s : State) : cyclesOnly s (waitOne s) :=
  ((start_frame s).cycles.trans (clockCycles_frame _ _)).trans (stop_frame _).cycles

theorem waitOne_tokens (s : State) : (waitOne s).tokens = s.tokens ++ (traceStart ++ traceCycles 15 ++ traceStop) := by
  have hcycles : Config.waitClocks.toNat = 15 := rfl
  rw [waitOne, stop_tokens, clockCycles_tokens, hcycles, start_tokens]
  simp only [List.append_assoc]

/-! The trace, the count and the lines (R200, R202). -/

/-- The iterations of WAITCLOCK in the trace. -/
def traceWaits (k : Nat) : List Token := (List.replicate k (traceStart ++ traceCycles 15 ++ traceStop)).flatten

theorem traceWaits_succ (k : Nat) :
    traceWaits (k + 1) = traceStart ++ traceCycles 15 ++ traceStop ++ traceWaits k := by
  rw [traceWaits, List.replicate_succ, List.flatten_cons, traceWaits]

/-- An iteration is 39 pin actions: 5 of START, 30 of the cycles, 4 of STOP. -/
theorem traceWaits_pins_length (k : Nat) : ((traceWaits k).filter Token.isPin).length = 39 * k := by
  have hone : ((traceStart ++ traceCycles 15 ++ traceStop).filter Token.isPin).length = 39 := rfl
  induction k with
  | zero => rfl
  | succ k ih =>
    rw [traceWaits_succ, List.filter_append, List.length_append, hone, ih]
    omega

theorem waitLoop_tokens (k : Nat) (s : State) : (waitLoop k s).tokens = s.tokens ++ traceWaits k := by
  induction k generalizing s with
  | zero => exact (List.append_nil _).symm
  | succ k ih =>
    rw [waitLoop_succ, ih, State.tokens_setLoopc, waitOne_tokens, traceWaits_succ, List.append_assoc]

/-- The loop ends with LOOPC 0 where LOOPC counts its iterations. -/
theorem waitLoop_loopc (k : Nat) (s : State) (hk : s.loopc.toNat = k) : (waitLoop k s).loopc = 0 := by
  induction k generalizing s with
  | zero => exact BitVec.eq_of_toNat_eq hk
  | succ k ih =>
    rw [waitLoop_succ, (waitOne_frame s).loopc]
    exact ih _ (toNat_sub_one hk)

/-- The last iteration's STOP leaves both lines floating. -/
theorem waitLoop_lines (k : Nat) (s : State) :
    (waitLoop k s).dirClock = (if k = 0 then s.dirClock else .input) ∧
      (waitLoop k s).dirData = if k = 0 then s.dirData else .input := by
  induction k generalizing s with
  | zero => exact ⟨rfl, rfl⟩
  | succ k ih =>
    rw [waitLoop_succ, (ih _).1, (ih _).2, State.setLoopc_dirClock, State.setLoopc_dirData, waitOne, stop_dirClock,
      stop_dirData, ite_self]
    exact ⟨rfl, rfl⟩

theorem waitClock_eq (k : Byte) (s : State) :
    waitClock k s = finish .success (waitLoop k.toNat (dataLow (s.setLoopc k))) := rfl

theorem waitClock_tokens (k : Byte) (s : State) : (waitClock k s).tokens = s.tokens ++ traceWaitClock k.toNat := by
  rw [waitClock_eq, finish_tokens, waitLoop_tokens, dataLow_tokens, State.tokens_setLoopc, List.append_assoc]
  rfl

theorem traceWaitClock_pins_length (k : Nat) : ((traceWaitClock k).filter Token.isPin).length = 1 + 39 * k := by
  have hlow : (traceDataLow.filter Token.isPin).length = 1 := rfl
  rw [← traceWaits_pins_length, ← hlow, ← List.length_append, ← List.filter_append]
  rfl

theorem waitClock_frame (k : Byte) (s : State) : waitOnly s (waitClock k s) := by
  have hset : waitOnly s (s.setLoopc k) := ⟨_, _, _, _, _, _, _, rfl⟩
  exact ((hset.trans (dataLow_frame _).cycles.wait).trans (waitLoop_frame _ _)).trans ⟨_, _, _, _, _, _, _, rfl⟩

theorem waitOnly.bufRead {s t : State} (h : waitOnly s t) (j : Byte) : t.bufRead j = s.bufRead j := by
  obtain ⟨_, _, _, _, _, _, _, rfl⟩ := h
  rfl

/-- Settles O54: the trace, the lines and LOOPC of the loop, each by induction on the number of iterations. -/
theorem waitClockRunsItsIterations : Obligations.WaitClockRunsItsIterations := by
  intro k s
  have htokens := waitClock_tokens k s
  have hzero : k.toNat = 0 ↔ k = 0 := by bv_omega
  have hcount : (dataLow (s.setLoopc k)).loopc = k := (dataLow_frame _).cycles.loopc
  obtain ⟨hclock, hdata⟩ := waitLoop_lines k.toNat (dataLow (s.setLoopc k))
  simp only [hzero, dataLow_dirClock, dataLow_dirData, State.setLoopc_dirClock] at hclock hdata
  refine ⟨packWord_eq_add 0x53 k, waitClock k s, rfl, htokens, rfl, waitLoop_loopc _ _ (by rw [hcount]), hclock, hdata,
    ?_, waitClock_frame k s, (waitClock_frame k s).bufRead⟩
  rw [State.pinTrace_of_tokens htokens, List.length_append, traceWaitClock_pins_length, Nat.add_assoc]

/-! The signatures and the clock edges (R201). -/

section
variable {s : State} {p : EnvPhase} {ps : List EnvPhase} (h : s.env = p :: ps) (hp : p.clockLow = false)
include h hp

/-- START raises the clock once, over the data line it has floated. -/
theorem start_carries : Carries s (start s) [p.sentLevel true] := by
  have hset : Carries s (delay .st1 (dataHigh (clockLow s))) [] :=
    ((clockLow_carries s).trans (dataHigh_carries _)).trans (perform_carries (.delay .st1) _)
  have hrise := clockHigh_carries (s := delay .st1 (dataHigh (clockLow s)))
    (by rw [delay_env, dataHigh_env, clockLow_env, h]) hp rfl
  have hstart : ∀ t, Carries t (delay .st3 (dataLow (delay .st2 t))) [] := fun t =>
    ((perform_carries (.delay .st2) t).trans (dataLow_carries _)).trans (perform_carries (.delay .st3) _)
  have hend : ∀ t, Carries t (delay .st4 (clockLow t)) [] := fun t =>
    (clockLow_carries t).trans (perform_carries (.delay .st4) _)
  exact (hset.trans hrise).trans ((hstart _).trans (hend _))

/-- STOP raises the clock once, over the data line it drives. -/
theorem stop_carries : Carries s (stop s) [p.sentLevel false] := by
  have hset : Carries s (dataLow (clockLow s)) [] := (clockLow_carries s).trans (dataLow_carries _)
  have hrise := clockHigh_carries (s := dataLow (clockLow s)) (by rw [dataLow_env, clockLow_env, h]) hp rfl
  have hstop : ∀ t, Carries t (delay .sp2 (dataHigh (delay .sp1 t))) [] := fun t =>
    ((perform_carries (.delay .sp1) t).trans (dataHigh_carries _)).trans (perform_carries (.delay .sp2) _)
  exact (hset.trans hrise).trans (hstop _)

/-- An iteration raises the clock once in START, once in STOP, and 15 times between. -/
theorem waitOne_carries : ∃ bits, bits.length = 17 ∧ Carries s (waitOne s) bits := by
  have henv := (start_frame s).env.trans h
  have hcycles := clockCycles_carries Config.waitClocks henv hp
  have hstop := stop_carries ((clockCycles_frame Config.waitClocks (start s)).env.trans henv) hp
  exact ⟨_, by simp [Config.waitClocks], ((start_carries h hp).trans hcycles).trans hstop⟩

/-- An iteration has a start signature in START and a stop signature in STOP, where the data line rises at all. -/
theorem waitOne_signatures (hdata : p.dataLow = false) : Signatures s (waitOne s) [.driveLow .data] [.float .data] := by
  have hstart := start_signatures h hp
  have hcycles := hstart.trans_still (clockCycles_signatures Config.waitClocks (hstart.scripted h))
  have hstop := hcycles.trans (stop_signatures (hcycles.scripted h) hp)
  simpa [waitOne, hdata] using hstop

end

theorem setLoopc_signatures (s : State) (v : Byte) : Signatures s (s.setLoopc v) [] [] := .refl s

theorem waitLoop_signatures (k : Nat) {s : State} {p : EnvPhase} {ps : List EnvPhase} (h : s.env = p :: ps)
    (hp : p.clockLow = false) (hdata : p.dataLow = false) :
    Signatures s (waitLoop k s) (List.replicate k (.driveLow .data)) (List.replicate k (.float .data)) := by
  induction k generalizing s with
  | zero => exact .refl s
  | succ k ih =>
    have hone := (waitOne_signatures h hp hdata).trans_still (setLoopc_signatures _ ((waitOne s).loopc - 1))
    exact hone.trans (ih (hone.scripted h))

theorem waitLoop_carries (k : Nat) {s : State} {p : EnvPhase} {ps : List EnvPhase} (h : s.env = p :: ps)
    (hp : p.clockLow = false) : ∃ bits, bits.length = 17 * k ∧ Carries s (waitLoop k s) bits := by
  induction k generalizing s with
  | zero => exact ⟨[], rfl, .of_trace rfl⟩
  | succ k ih =>
    obtain ⟨bits, hlength, hone⟩ := waitOne_carries h hp
    obtain ⟨more, hmore, hrest⟩ := ih (s := (waitOne s).setLoopc ((waitOne s).loopc - 1))
      (by rw [State.setLoopc_env, (waitOne_frame s).env, h])
    refine ⟨bits ++ more, by rw [List.length_append, hlength, hmore, Nat.mul_succ, Nat.add_comm], ?_⟩
    rw [waitLoop_succ]
    simpa using (hone.trans (.of_trace (State.setLoopc_trace _ _))).trans hrest

/-- The signatures of WAITCLOCK: those of its first DATALOW, then one start and one stop an iteration. -/
theorem waitClock_signatures (k : Byte) {s : State} {p : EnvPhase} {ps : List EnvPhase} (h : s.env = p :: ps)
    (hp : p.clockLow = false) (hdata : p.dataLow = false) {starts : List Token}
    (hlow : Signatures (s.setLoopc k) (dataLow (s.setLoopc k)) starts []) :
    Signatures s (waitClock k s) (starts ++ List.replicate k.toNat (.driveLow .data))
      (List.replicate k.toNat (.float .data)) := by
  have hbegin : Signatures s (dataLow (s.setLoopc k)) starts [] := (setLoopc_signatures s k).trans hlow
  exact (hbegin.trans (waitLoop_signatures k.toNat (hbegin.scripted h) hp hdata)).trans_still (finish_signatures _ _)

theorem waitClock_carries (k : Byte) {s : State} {p : EnvPhase} {ps : List EnvPhase} (h : s.env = p :: ps)
    (hp : p.clockLow = false) : ∃ bits, bits.length = 17 * k.toNat ∧ Carries s (waitClock k s) bits := by
  obtain ⟨bits, hlength, hloop⟩ := waitLoop_carries k.toNat ((dataLow_env (s.setLoopc k)).trans h) hp
  have hset : Carries s (s.setLoopc k) [] := .of_trace rfl
  refine ⟨bits, hlength, ?_⟩
  simpa using ((hset.trans (dataLow_carries _)).trans hloop).trans (.of_trace (t := waitClock k s) rfl)

/-- Settles O55: the loop has a start and a stop signature an iteration, and the DATALOW before it is a start signature
on an idle bus and none while TWBB drives the clock. -/
theorem waitClockSignatures : Obligations.WaitClockSignatures := by
  intro k s p ps h hp hdata
  obtain ⟨bits, hlength, hedges⟩ := waitClock_carries k h hp
  obtain ⟨starts, hlow⟩ : ∃ starts, Signatures (s.setLoopc k) (dataLow (s.setLoopc k)) starts [] :=
    ⟨_, dataLow_signatures (s := s.setLoopc k) h⟩
  refine ⟨waitClock k s, rfl, ?_, hedges.riseCount.trans hlength, fun hclock hfloat => ?_, fun hdriven => ?_⟩
  · rw [(waitClock_signatures k h hp hdata hlow).count_eq.2, List.length_replicate]
  · have hidle := dataLow_signatures_of_idle (s := s.setLoopc k) h hp hclock hfloat
    rw [hdata, if_neg Bool.false_ne_true] at hidle
    rw [(waitClock_signatures k h hp hdata hidle).count_eq.1, List.length_append, List.length_replicate, Nat.add_comm]
    rfl
  · have hnone := (data_signatures_of_driven_clock (s := s.setLoopc k) h hdriven).1
    rw [(waitClock_signatures k h hp hdata hnone).count_eq.1, List.nil_append, List.length_replicate]

end Sys2Proof.Machine
end

section
/-! SUPPORT. Laws over all operations: how many pin actions each takes at most (R202), and what none touches (R206). -/

namespace Sys2Proof.Machine

/-! Pin actions (R202). -/

theorem State.pinTrace_length_of_tokens {s t : State} {new : List Token} (h : t.tokens = s.tokens ++ new) :
    t.pinTrace.length = s.pinTrace.length + (new.filter Token.isPin).length := by
  rw [State.pinTrace_of_tokens h, List.length_append]

theorem State.pinTrace_congr {s t : State} (h : t.tokens = s.tokens) : t.pinTrace = s.pinTrace := by
  rw [State.pinTrace, h, State.pinTrace]

theorem writeByte_pins_le (value : Byte) (s : State) :
    (writeByte value s).pinTrace.length ≤ s.pinTrace.length + (27 + 2 * s.cfgAckMax.toNat) := by
  obtain ⟨polls, htokens, hcases, -⟩ := writeByte_outcome value s
  have hpolls : polls.length ≤ s.cfgAckMax.toNat := by
    rcases hcases with ⟨hacked, -⟩ | ⟨hfailed, -⟩
    · exact hacked.length_bounds.2
    · exact hfailed.length_eq.le
  rw [State.pinTrace_length_of_tokens htokens, (traceWriteByte_length value polls).2]
  omega

theorem tryFirst_pins_le (s : State) :
    (tryFirst s).pinTrace.length ≤ s.pinTrace.length + (5 + 27 + 2 * s.cfgAckMax.toNat) := by
  have hwrite := writeByte_pins_le (s.bufRead 0) (start s)
  have hpins : (traceStart.filter Token.isPin).length = 5 := rfl
  rw [← tryFirst_eq, (start_frame s).cfgAckMax, State.pinTrace_length_of_tokens (start_tokens s), hpins] at hwrite
  omega

theorem sendLoop_pins_le (k : Nat) (s : State) :
    (sendLoop k s).2.pinTrace.length ≤ s.pinTrace.length + k * (27 + 2 * s.cfgAckMax.toNat) := by
  induction k generalizing s with
  | zero => simp [sendLoop]
  | succ k ih =>
    have hwrite := writeByte_pins_le s.byteAtIdx s
    rw [Nat.succ_mul]
    unfold sendLoop
    dsimp only
    split
    · have hrest := ih (writeByte s.byteAtIdx s).nextIdx
      rw [State.nextIdx_cfgAckMax, (writeByte_frame _ s).cfgAckMax,
        State.pinTrace_congr (State.nextIdx_tokens _)] at hrest
      omega
    · dsimp only
      omega

theorem tryLoop_pins_le (k : Nat) (s : State) :
    (tryLoop k s).pinTrace.length ≤ s.pinTrace.length + k * (5 + 27 + 2 * s.cfgAckMax.toNat) := by
  induction k generalizing s with
  | zero => simp [tryLoop]
  | succ k ih =>
    have hfirst := tryFirst_pins_le s
    have hfail : (failFirst s).pinTrace = (tryFirst s).pinTrace := State.pinTrace_congr (failFirst_tokens s)
    have hrest := ih (failFirst s)
    rw [hfail, (failFirst_frame s).cfgAckMax] at hrest
    rw [Nat.succ_mul]
    cases hack : (tryFirst s).acked with
    | true =>
      rw [tryLoop_acked k hack]
      omega
    | false =>
      rw [tryLoop_of_unacked k hack]
      split
      · rw [hfail]
        omega
      · omega

theorem sendCommand_pins_le (len : Byte) {s : State} (h : s.cfgStartMax ≠ 0) :
    (sendCommand len s).pinTrace.length ≤ s.pinTrace.length +
      (s.cfgStartMax.toNat * (5 + 27 + 2 * s.cfgAckMax.toNat) + (len.toNat - 1) * (27 + 2 * s.cfgAckMax.toNat)) := by
  have htries : (commandTries len s).pinTrace.length ≤
      s.pinTrace.length + s.cfgStartMax.toNat * (5 + 27 + 2 * s.cfgAckMax.toNat) := by
    rw [commandTries_eq len h]
    exact tryLoop_pins_le s.cfgStartMax.toNat ((s.setLen len).setTrycnt 0)
  have hrest := sendLoop_pins_le (len.toNat - 1) ((commandTries len s).setIdx 1)
  rw [State.setIdx_cfgAckMax, (commandTries_frame len s).cfgAckMax, State.pinTrace_congr (State.tokens_setIdx _ _),
    ← commandRest] at hrest
  cases hack : (commandTries len s).acked with
  | true =>
    rw [sendCommand_of_acked hack, State.pinTrace_congr (finish_tokens _ _)]
    omega
  | false =>
    rw [sendCommand_of_unacked hack, State.pinTrace_congr (finish_tokens _ _)]
    omega

theorem sendData_pins_le (len : Byte) (s : State) :
    (sendData len s).pinTrace.length ≤ s.pinTrace.length + (len.toNat * (27 + 2 * s.cfgAckMax.toNat) + 4) := by
  have hloop := sendLoop_pins_le len.toNat ((s.setLen len).setIdx 0)
  have hpins : (traceStop.filter Token.isPin).length = 4 := rfl
  rw [State.setIdx_cfgAckMax, State.setLen_cfgAckMax,
    State.pinTrace_congr (t := (s.setLen len).setIdx 0) (s := s) rfl] at hloop
  rw [sendData_eq, State.pinTrace_congr (finish_tokens _ _), State.pinTrace_length_of_tokens (stop_tokens _), hpins]
  omega

/-- An operation whose tokens are known takes their pin actions. -/
theorem pins_le_of_tokens {s t : State} {new : List Token} {n : Nat} (h : t.tokens = s.tokens ++ new)
    (hn : (new.filter Token.isPin).length = n) : t.pinTrace.length ≤ s.pinTrace.length + n :=
  (hn ▸ State.pinTrace_length_of_tokens h).le

/-- Settles O56: the tokens of each operation, and for those that poll the bounds of their loops. -/
theorem everyOperationIsBounded : Obligations.EveryOperationIsBounded := by
  intro i s hstart
  cases i with
  | float l => exact ⟨_, rfl, pins_le_of_tokens (floatLine_tokens l s) rfl⟩
  | driveLow l => exact ⟨_, rfl, pins_le_of_tokens (driveLine_tokens l s) rfl⟩
  | sample l => exact ⟨_, rfl, pins_le_of_tokens (sampleLine_tokens l s) rfl⟩
  | clockHigh => exact ⟨_, rfl, pins_le_of_tokens (clockHigh_tokens s) rfl⟩
  | clockLow => exact ⟨_, rfl, pins_le_of_tokens (clockLow_tokens s) rfl⟩
  | clockCycle => exact ⟨_, rfl, pins_le_of_tokens (clockCycle_tokens s) rfl⟩
  | clockCycles n => exact ⟨_, rfl, pins_le_of_tokens (clockCycles_tokens n s) (traceCycles_pins_length _)⟩
  | dataHigh => exact ⟨_, rfl, pins_le_of_tokens (dataHigh_tokens s) rfl⟩
  | dataLow => exact ⟨_, rfl, pins_le_of_tokens (dataLow_tokens s) rfl⟩
  | readDataBit => exact ⟨_, rfl, pins_le_of_tokens (readDataBit_tokens s) rfl⟩
  | writeByte value => exact ⟨_, rfl, writeByte_pins_le value s⟩
  | readByte =>
    obtain ⟨bits, hlength, htokens, -⟩ := readByte_samples s
    exact ⟨_, rfl, pins_le_of_tokens htokens (by rw [(traceReadByte_length bits).2, hlength])⟩
  | sendAck => exact ⟨_, rfl, pins_le_of_tokens (sendAck_tokens s) rfl⟩
  | sendNak => exact ⟨_, rfl, pins_le_of_tokens (sendNak_tokens s) rfl⟩
  | start => exact ⟨_, rfl, pins_le_of_tokens (start_tokens s) rfl⟩
  | stop => exact ⟨_, rfl, pins_le_of_tokens (stop_tokens s) rfl⟩
  | powerOn => exact ⟨_, rfl, pins_le_of_tokens (powerOn_tokens s) (tracePowerOn_length _).2⟩
  | sendCommand len =>
    by_cases hlen : len = 0
    · refine ⟨_, if_pos hlen, ?_⟩
      rw [State.pinTrace_congr (State.tokens_markIllegal s)]
      exact Nat.le_add_right _ _
    · exact ⟨_, if_neg hlen, sendCommand_pins_le len hstart⟩
  | sendData len => exact ⟨_, rfl, sendData_pins_le len s⟩
  | receiveData len =>
    obtain ⟨-, t, -, hexec, -, -, -, -, -, -, -, -, -, -, hpins, -⟩ := receiveDataFillsTheBuffer len s
    exact ⟨t, hexec, hpins.le⟩
  | waitClock k => exact ⟨_, rfl, pins_le_of_tokens (waitClock_tokens k s) (traceWaitClock_pins_length _)⟩

/-! The host port and BUF (R206, R63). -/

theorem readOnly.buf {s t : State} (h : readOnly s t) : t.buf = s.buf := by
  obtain ⟨_, _, _, _, _, _, _, _, rfl⟩ := h
  rfl

theorem cyclesOnly.buf {s t : State} (h : cyclesOnly s t) : t.buf = s.buf := by
  obtain ⟨_, _, _, _, _, rfl⟩ := h
  rfl

theorem powerOnly.buf {s t : State} (h : powerOnly s t) : t.buf = s.buf := by
  obtain ⟨_, _, _, _, _, _, rfl⟩ := h
  rfl

theorem waitOnly.buf {s t : State} (h : waitOnly s t) : t.buf = s.buf := by
  obtain ⟨_, _, _, _, _, _, _, rfl⟩ := h
  rfl

/-- RECEIVEDATA alone writes BUF (R63, R75). -/
theorem exec_buf {i : Instr} {s t : State} (h : exec i s = .next t) (hi : ∀ len, i ≠ .receiveData len) :
    t.buf = s.buf := by
  cases i with
  | float l => cases h; exact (floatLine_frame l s).buf
  | driveLow l => cases h; exact (driveLine_frame l s).buf
  | sample l => cases h; exact (sampleLine_frame l s).read.buf
  | clockHigh => cases h; exact (clockHigh_frame s).buf
  | clockLow => cases h; exact (clockLow_frame s).buf
  | clockCycle => cases h; exact (clockCycle_frame s).buf
  | clockCycles n => cases h; exact (clockCycles_frame n s).buf
  | dataHigh => cases h; exact (dataHigh_frame s).buf
  | dataLow => cases h; exact (dataLow_frame s).buf
  | readDataBit => cases h; exact (readDataBit_frame s).read.buf
  | writeByte value => cases h; exact (writeByte_frame value s).command.buf
  | readByte => cases h; exact (readByte_frame s).buf
  | sendAck => cases h; exact (sendAck_frame s).buf
  | sendNak => cases h; exact (sendNak_frame s).buf
  | start => cases h; exact (start_frame s).buf
  | stop => cases h; exact (stop_frame s).buf
  | powerOn => cases h; exact (powerOn_frame s).buf
  | sendCommand len =>
    by_cases hlen : len = 0
    · rw [exec, execSendCommand, if_pos hlen] at h
      cases h
      rfl
    · rw [exec, execSendCommand, if_neg hlen] at h
      cases h
      exact (sendCommand_frame len s).buf
  | sendData len => cases h; exact (sendData_frame len s).command.buf
  | receiveData len => exact absurd rfl (hi len)
  | waitClock k => cases h; exact (waitClock_frame k s).buf

theorem State.bufRead_congr {s t : State} (hbuf : t.buf = s.buf) (hepoch : t.epoch = s.epoch) (j : Byte) :
    t.bufRead j = s.bufRead j := by
  rw [State.bufRead, hbuf, hepoch, State.bufRead]

/-- What belongs to the host port, its flag ILL apart, is the same in both states (R206). -/
def HostPortKept (s t : State) : Prop :=
  t.cmd = s.cmd ∧ t.ovr = s.ovr ∧ t.cfgAckMax = s.cfgAckMax ∧ t.cfgStartMax = s.cfgStartMax ∧
    t.cfgPwrClks = s.cfgPwrClks ∧ t.exposeInternal = s.exposeInternal ∧ t.upc = s.upc ∧ t.host = s.host ∧
    t.replies = s.replies ∧ t.epoch = s.epoch

theorem operationOnly.hostPort {s t : State} (h : operationOnly s t) : HostPortKept s t ∧ t.ill = s.ill := by
  obtain ⟨_, _, _, _, _, _, _, _, _, _, _, _, _, _, _, _, _, _, rfl, -⟩ := h
  exact ⟨⟨rfl, rfl, rfl, rfl, rfl, rfl, rfl, rfl, rfl, rfl⟩, rfl⟩

theorem markIllegal_hostPort (s : State) : HostPortKept s s.markIllegal :=
  ⟨rfl, rfl, rfl, rfl, rfl, rfl, rfl, rfl, rfl, rfl⟩

theorem exec_hostPort {i : Instr} {s t : State} (h : exec i s = .next t) :
    HostPortKept s t ∧ (i ≠ .sendCommand 0 → t.ill = s.ill) := by
  obtain ⟨hi, rfl⟩ | ⟨-, hop⟩ := exec_frame i s t h
  · exact ⟨markIllegal_hostPort s, fun hne => absurd hi hne⟩
  · exact ⟨hop.hostPort.1, fun _ => hop.hostPort.2⟩

/-- Settles O57: the frame of `exec` (`exec_hostPort`), and BUF operation by operation (`exec_buf`). -/
theorem noOperationTouchesTheHostPort : Obligations.NoOperationTouchesTheHostPort := by
  intro i s t h
  obtain ⟨⟨hcmd, hovr, hack, hstart, hpwr, hexp, hupc, hhost, hreplies, hepoch⟩, hill⟩ := exec_hostPort h
  refine ⟨hcmd, hovr, hack, hstart, hpwr, hexp, hupc, hhost, hreplies, hepoch, hill, fun hi => ?_⟩
  exact ⟨exec_buf h hi, State.bufRead_congr (exec_buf h hi) hepoch⟩

/-- Settles O48: the arm of SENDCOMMAND 0 sets STATUS.ILL and no more (R194). -/
theorem emptyCommandIsIllegal : Obligations.EmptyCommandIsIllegal :=
  fun _ => ⟨rfl, rfl, rfl⟩

end Sys2Proof.Machine
end

section
/-! SUPPORT. Totality of a step: the blocking call runs an operation, and every operation answers a next state
(`exec_runs`); the host's other actions and the engine's step answer theirs outright (R220). -/

namespace Sys2Proof.Machine

/-- A blocking call answers a next state: while busy (R256), with a word that issues an operation (R96), and with one
that issues none (R98). -/
theorem callCmd_answers (cw : CmdWord) (s : State) : ∃ t, callCmd cw s = .next t := by
  by_cases hidle : s.upc = []
  · cases hissued : issued (s.setCmd cw) with
    | none => exact ⟨_, callCmd_of_illegal hidle hissued⟩
    | some i =>
      obtain ⟨t, hexec, -⟩ := exec_runs i (s.setCmd cw)
      exact ⟨t, (callCmd_of_issued hidle hissued).trans hexec⟩
  · have hbusy : s.busy = true := by simpa [← busy_eq_false_iff] using hidle
    exact ⟨_, if_pos hbusy⟩

/-- Each action of the list answers a next state. -/
theorem hostStep_answers (a : HostAct) (s : State) : ∃ t, hostStep a s = .next t := by
  cases a with
  | call cw => exact callCmd_answers cw s
  | writeReg r v => exact ⟨writeReg r v s, rfl⟩
  | readReg r => exact ⟨s.reply (readReg r s), rfl⟩
  | writeBuf i v => exact ⟨hostWriteBuf i v s, rfl⟩
  | readBuf i => exact ⟨s.reply ((s.bufRead i).setWidth 16), rfl⟩
  | waitIdle => exact ⟨if s.busy then engineStep (s.setHost (.waitIdle :: s.host)) else s, rfl⟩
  | tick => exact ⟨engineStep s, rfl⟩
  | reset => exact ⟨hardReset s, rfl⟩
  | environment p => exact ⟨moveEnvironment p s, rfl⟩

/-- Settles O13: the host's next action answers a next state, and so does the engine's step where there is none. -/
theorem everyStepAnswersANextState : Obligations.EveryStepAnswersANextState := by
  intro s
  cases hhost : s.host with
  | nil => exact ⟨engineStep s, by rw [step, machineStep, hhost]⟩
  | cons a rest =>
    rw [step_of_host_cons hhost]
    exact hostStep_answers a (s.setHost rest)

end Sys2Proof.Machine
end

section
/-! SUPPORT. The hazards at the host port: a write that finds the engine busy (R256), and a reset, which may come at any
moment (R250). -/

namespace Sys2Proof.Machine

/-! Writes while busy: each form of the write is dropped and marks the overrun, whatever the value written. -/

theorem busy_eq_true_iff (s : State) : s.busy = true ↔ s.upc ≠ [] := by simp [State.busy]

theorem writeCmd_busy (cw : CmdWord) {s : State} (h : s.upc ≠ []) : writeCmd cw s = s.markOverrun :=
  if_pos ((busy_eq_true_iff s).2 h)

theorem writeCfg_busy (zeroAllowed : Bool) (set : Byte → State → State) (v : Byte) {s : State} (h : s.upc ≠ []) :
    writeCfg zeroAllowed set v s = s.markOverrun :=
  if_pos ((busy_eq_true_iff s).2 h)

theorem hostWriteBuf_busy (i v : Byte) {s : State} (h : s.upc ≠ []) : hostWriteBuf i v s = s.markOverrun :=
  if_pos ((busy_eq_true_iff s).2 h)

/-- Of a blocking call that finds the engine busy the wait goes back to the head of the list (R96). -/
theorem callCmd_busy (cw : CmdWord) {s : State} (h : s.upc ≠ []) :
    callCmd cw s = .next (s.markOverrun.setHost (.waitIdle :: s.host)) :=
  if_pos ((busy_eq_true_iff s).2 h)

/-- Settles O9: the write to each register and to BUF by the lemma of its form, and the blocking call by its own. -/
theorem busyWritesAreDropped : Obligations.BusyWritesAreDropped := by
  refine ⟨fun s h rest hwrite hhost hbusy => ?_, fun s cw rest hhost hbusy => ?_⟩
  · have hbusy' : (s.setHost rest).upc ≠ [] := hbusy
    rw [step_of_host_cons hhost]
    obtain ⟨v, rfl | rfl | rfl | rfl⟩ | ⟨i, v, rfl⟩ := hwrite
    · exact congrArg Host.Outcome.next (writeCmd_busy v hbusy')
    · exact congrArg Host.Outcome.next (writeCfg_busy false (fun b t => t.setCfgAckMax b) (portByte v) hbusy')
    · exact congrArg Host.Outcome.next (writeCfg_busy false (fun b t => t.setCfgStartMax b) (portByte v) hbusy')
    · exact congrArg Host.Outcome.next (writeCfg_busy true (fun b t => t.setCfgPwrClks b) (portByte v) hbusy')
    · exact congrArg Host.Outcome.next (hostWriteBuf_busy i v hbusy')
  · rw [step_of_host_cons hhost]
    exact callCmd_busy cw (s := s.setHost rest) hbusy

/-! Reset. -/

/-- An idle engine stays as it is for any number of steps (R235). -/
theorem engineRun_idle (n : Nat) {s : State} (h : s.upc = []) : engineRun n s = s := by
  induction n with
  | zero => rfl
  | succ n ih => rw [engineRun, engineStep_idle h, ih]

/-- A reset enters its mark: the levels before it, and those of two lines that TWBB floats (R41, R250). -/
theorem hardReset_trace (s : State) :
    (hardReset s).trace = ⟨.reset, s.levels, ⟨s.floatLevel .clock, s.floatLevel .data⟩⟩ :: s.trace := rfl

/-- Settles O17: the reset state field by field, its one mark being no micro-action and so no clock edge
(`hardReset_trace`, `hardReset_tokens`), and the engine idle from then on (`engineRun_idle`). -/
theorem resetAbandonsTheOperation : Obligations.ResetAbandonsTheOperation := by
  intro s rest hhost
  have hnew : newEvents s (hardReset (s.setHost rest)) =
      [⟨.reset, s.levels, ⟨s.floatLevel .clock, s.floatLevel .data⟩⟩] :=
    newEvents_of_trace_cons (hardReset_trace (s.setHost rest))
  refine ⟨hardReset (s.setHost rest), step_of_host_cons hhost, rfl, rfl, rfl, rfl, rfl, rfl, rfl, rfl, rfl, rfl, rfl,
    hardReset_trace (s.setHost rest), hardReset_tokens _, ?rise, ?fall, fun n => engineRun_idle n rfl⟩
  case rise => rw [hnew]; rfl
  case fall => rw [hnew]; rfl

end Sys2Proof.Machine
end
